-- ==== Sys2Proof/Word.lean ====
section
/-!
DEFINITION. The widths of the engine's values (00_scope.md R8, R9). Every value is an unsigned bit vector with
bit 0 least significant (R10).
-/

namespace Sys2Proof

/-- One byte of `MBUF`, of a lane or of a digest. -/
abbrev Byte := BitVec 8

/-- One word of the window or one command word (R9: bus accesses and commands are 32 bits wide). -/
abbrev Word := BitVec 32

/-- Half of a lane, and the width of `DOMAIN`, `SEED`, `LEN`, `BLK` (R8). -/
abbrev Half := BitVec 64

/-- A lane register (R8, R12): 128 bits. -/
abbrev Lane := BitVec 128

/-- The 4-lane short state, 'a tuple of 4 lane vectors' (00_scope.md glossary, 10_state.md R22). -/
abbrev Quad := Vector Lane 4

/-- The 32-lane bulk state (10_state.md R21). -/
abbrev Bulk := Vector Lane 32

end Sys2Proof
end

