-- ==== Sys2Proof/Config.lean ====
section
/-!
DEFINITION. What an implementation fixes: the numeric constants of the construction (00_scope.md R6), whose values
the spec leaves OPEN (92_eei_decisions.md D35, D36), and the free value behind every read of unspecified storage
(10_state.md R40). None has a body, so no proof can use a value of it.
-/

namespace Sys2Proof

/-- The parameters of R6, in the order of its table. They are constant for the life of an engine and are not state.
Every kernel function takes them as an argument, so that what is proved of it holds of every configuration. -/
structure Params where
  /-- `PHI`, used by R98 and R138. -/
  phi : Half
  /-- `C[0..7]`, the initialization bases. -/
  c : Vector Half 8
  /-- `W0`, the low half of the whitening key (R97). -/
  w0 : Half
  /-- `W1`, the high half of the whitening key (R97). -/
  w1 : Half
  /-- `K1`, the first multiplicand of R168. -/
  k1 : Half
  /-- `K2`, the second multiplicand of R168. -/
  k2 : Half
  /-- `LANE_OFFSET[0..31]`. -/
  laneOffset : Vector Half 32
  /-- `RK[0..9]`, the round-key chain. -/
  rk : Vector Lane 10
  /-- `SHORT_INIT[0..3]`, a free parameter by R122. -/
  shortInit : Quad
deriving DecidableEq, Repr, Inhabited

/-- The parameters of the engine at hand. UNVERIFIED by nature: the spec prints none of them (91_not_in_source.md N1,
N2) and a model takes them as arguments; log 6, safe. -/
opaque Config.params : Params

/-- The byte that the access numbered `draw` finds at the window address `addr` when nothing has written it since
reset: 'a free draw at each read' (R40). DESIGN CHOICE (log 2): one draw per access and byte; safe. -/
opaque Config.freeByte (draw addr : Nat) : Byte

end Sys2Proof
end

