-- ==== Sys2Proof/Syntax.lean ====
section
/-!
DEFINITION. The instructions: the commands of the opcode map (30_encoding.md R73), one constructor per row of
spec/opcode_table.json, in the table's order.
-/

namespace Sys2Proof

/-- A command. Every command works on fixed registers (R70), so the only operands are the free fields of R73: the
selectors `sa`, `sb` of CLMUL, the key flag `k` of INIT and the length immediate `n`, an unsigned number of bytes
(R71, R72). -/
inductive Instr where
  | nop
  | clrerr
  | sreset
  | subb
  | shrow
  | mixc
  | aesr
  | clmul (sa sb : Bool)
  | xor
  | add64
  | short (n : Nat)
  | init (k : Bool)
  | compress
  | tail (n : Nat)
  | merge
  | harden
  | fblock
  | rekey
  | reduce
  | final (n : Nat)
deriving DecidableEq, Repr

end Sys2Proof
end

