-- ==== Sys2Proof/WellFormed.lean ====
section
/-!
DEFINITION. Which terms of `Instr` a command word can stand for. The length immediate has 16 bits (30_encoding.md R70);
the flags are single bits by their type. A length outside the range of R71 is well formed: such a word decodes and is
then refused with ARG (log 11).
-/

namespace Sys2Proof

/-- The length immediate of a command that has one, 0 for the others (R71: `n` must be 0 there). -/
def Instr.length : Instr → Nat
  | .short n | .tail n | .final n => n
  | .nop | .clrerr | .sreset | .subb | .shrow | .mixc | .aesr | .clmul _ _ | .xor | .add64 | .init _ | .compress
  | .merge | .harden | .fblock | .rekey | .reduce => 0

/-- The length immediate fits its 16-bit field (R70). -/
def Instr.wf (i : Instr) : Bool := decide (i.length < 2 ^ 16)

end Sys2Proof
end

