-- ==== Sys2Proof/Decode.lean ====
section
/-!
DEFINITION. Decoding and encoding of command words (30_encoding.md R70 to R75). `decode` is total: every 32-bit word is
one command or is rejected by name.
-/

namespace Sys2Proof

/-- Why a word is no command (R74). Both are refused alike, with ILLEGAL (R76 step 1). -/
inductive Illegal where
  /-- The `op` field is in no row of R73. -/
  | unassignedOp
  /-- The `op` field has a row, and a bit the row requires to be 0 is 1. -/
  | reservedBit
deriving DecidableEq, Repr

/-- What a word written to `CMD` is. -/
inductive Decoded where
  | command (i : Instr)
  | illegal (why : Illegal)
deriving DecidableEq, Repr

/-- Bits 7:0 of a command word (R70). -/
def opField (w : Word) : BitVec 8 := w.extractLsb' 0 8

/-- Bits 15:8 of a command word (R70). -/
def flagField (w : Word) : BitVec 8 := w.extractLsb' 8 8

/-- Bits 31:16 of a command word (R70), taken unsigned and unscaled (R71). -/
def lengthField (w : Word) : BitVec 16 := w.extractLsb' 16 16

/-- A row of R73 with no free field: all bits above `op` must be 0. -/
def decodeFixed (w : Word) (i : Instr) : Decoded :=
  if flagField w = 0 ∧ lengthField w = 0 then .command i else .illegal .reservedBit

/-- A row of R73 whose free field is `n`: the flag bits must be 0. -/
def decodeLength (w : Word) (mk : Nat → Instr) : Decoded :=
  if flagField w = 0 then .command (mk (lengthField w).toNat) else .illegal .reservedBit

/-- The row of CLMUL: `sa` is bit 8 and `sb` bit 9, every other bit above `op` must be 0 (R72, R73). -/
def decodeClmul (w : Word) : Decoded :=
  if (flagField w).extractLsb' 2 6 = 0 ∧ lengthField w = 0 then
    .command (.clmul ((flagField w).getLsbD 0) ((flagField w).getLsbD 1))
  else .illegal .reservedBit

/-- The row of INIT: `k` is bit 8, every other bit above `op` must be 0 (R72, R73). -/
def decodeInit (w : Word) : Decoded :=
  if (flagField w).extractLsb' 1 7 = 0 ∧ lengthField w = 0 then .command (.init ((flagField w).getLsbD 0))
  else .illegal .reservedBit

/-- The opcode map of R73, by the `op` field. -/
def decode (w : Word) : Decoded :=
  match (opField w).toNat with
  | 0x00 => decodeFixed w .nop
  | 0x01 => decodeFixed w .clrerr
  | 0x02 => decodeFixed w .sreset
  | 0x10 => decodeFixed w .subb
  | 0x11 => decodeFixed w .shrow
  | 0x12 => decodeFixed w .mixc
  | 0x13 => decodeFixed w .aesr
  | 0x14 => decodeClmul w
  | 0x15 => decodeFixed w .xor
  | 0x16 => decodeFixed w .add64
  | 0x20 => decodeLength w .short
  | 0x30 => decodeInit w
  | 0x31 => decodeFixed w .compress
  | 0x40 => decodeLength w .tail
  | 0x41 => decodeFixed w .merge
  | 0x42 => decodeFixed w .harden
  | 0x43 => decodeFixed w .fblock
  | 0x44 => decodeFixed w .rekey
  | 0x45 => decodeFixed w .reduce
  | 0x4F => decodeLength w .final
  | _ => .illegal .unassignedOp

/-- The opcode of a command (R73, column `op`). -/
def Instr.opcode : Instr → BitVec 8
  | .nop => 0x00
  | .clrerr => 0x01
  | .sreset => 0x02
  | .subb => 0x10
  | .shrow => 0x11
  | .mixc => 0x12
  | .aesr => 0x13
  | .clmul _ _ => 0x14
  | .xor => 0x15
  | .add64 => 0x16
  | .short _ => 0x20
  | .init _ => 0x30
  | .compress => 0x31
  | .tail _ => 0x40
  | .merge => 0x41
  | .harden => 0x42
  | .fblock => 0x43
  | .rekey => 0x44
  | .reduce => 0x45
  | .final _ => 0x4F

/-- The flag bits of a command (R72): `f[0]` is bit 8 of the word, `f[1]` bit 9. -/
def Instr.flags : Instr → BitVec 8
  | .clmul sa sb => (BitVec.ofBool sb ++ BitVec.ofBool sa).setWidth 8
  | .init k => (BitVec.ofBool k).setWidth 8
  | .nop | .clrerr | .sreset | .subb | .shrow | .mixc | .aesr | .xor | .add64 | .short _ | .compress | .tail _ | .merge
  | .harden | .fblock | .rekey | .reduce | .final _ => 0

/-- The command word of a well-formed command: `n`, `f` and `op` side by side (R70), which is the `CMD` line of R77. -/
def encode (i : Instr) : Word := BitVec.ofNat 16 i.length ++ i.flags ++ i.opcode

/-- One row of the table of R73: `w` is the row's command exactly when `w AND mask = pattern`. -/
structure OpcodeRow where
  mnemonic : String
  pattern : Word
  mask : Word
deriving DecidableEq, Repr

/-- The word is the row's command. -/
def OpcodeRow.covers (r : OpcodeRow) (w : Word) : Bool := w &&& r.mask == r.pattern

/-- The table of R73 with its `match` and `mask` columns, row by row. -/
def opcodeMap : List OpcodeRow :=
  [⟨"NOP", 0x00000000, 0xFFFFFFFF⟩, ⟨"CLRERR", 0x00000001, 0xFFFFFFFF⟩, ⟨"SRESET", 0x00000002, 0xFFFFFFFF⟩,
   ⟨"SUBB", 0x00000010, 0xFFFFFFFF⟩, ⟨"SHROW", 0x00000011, 0xFFFFFFFF⟩, ⟨"MIXC", 0x00000012, 0xFFFFFFFF⟩,
   ⟨"AESR", 0x00000013, 0xFFFFFFFF⟩, ⟨"CLMUL", 0x00000014, 0xFFFFFCFF⟩, ⟨"XOR", 0x00000015, 0xFFFFFFFF⟩,
   ⟨"ADD64", 0x00000016, 0xFFFFFFFF⟩, ⟨"SHORT", 0x00000020, 0x0000FFFF⟩, ⟨"INIT", 0x00000030, 0xFFFFFEFF⟩,
   ⟨"COMPRESS", 0x00000031, 0xFFFFFFFF⟩, ⟨"TAIL", 0x00000040, 0x0000FFFF⟩, ⟨"MERGE", 0x00000041, 0xFFFFFFFF⟩,
   ⟨"HARDEN", 0x00000042, 0xFFFFFFFF⟩, ⟨"FBLOCK", 0x00000043, 0xFFFFFFFF⟩, ⟨"REKEY", 0x00000044, 0xFFFFFFFF⟩,
   ⟨"REDUCE", 0x00000045, 0xFFFFFFFF⟩, ⟨"FINAL", 0x0000004F, 0x0000FFFF⟩]

/-- The mnemonic of a command in R73. -/
def Instr.mnemonic : Instr → String
  | .nop => "NOP"
  | .clrerr => "CLRERR"
  | .sreset => "SRESET"
  | .subb => "SUBB"
  | .shrow => "SHROW"
  | .mixc => "MIXC"
  | .aesr => "AESR"
  | .clmul _ _ => "CLMUL"
  | .xor => "XOR"
  | .add64 => "ADD64"
  | .short _ => "SHORT"
  | .init _ => "INIT"
  | .compress => "COMPRESS"
  | .tail _ => "TAIL"
  | .merge => "MERGE"
  | .harden => "HARDEN"
  | .fblock => "FBLOCK"
  | .rekey => "REKEY"
  | .reduce => "REDUCE"
  | .final _ => "FINAL"

/-- The command the decoder reads from the instruction whose `nbits` bits are `w`, every bit above them 0. All commands
are one 32-bit word (R70), which the bus carries whole, so there is no byte order to apply here. -/
def decodeTableWord (nbits w : Nat) : Option Instr :=
  match decode (BitVec.ofNat 32 (w % 2 ^ nbits)) with
  | .command i => some i
  | .illegal _ => none

end Sys2Proof
end

