-- ==== Sys2Proof/Machine/State.lean ====
section
/-!
DEFINITION. The state of one engine (10_state.md R20 to R40), as plain data, and its value after reset (R39).

UNSPECIFIED STORAGE. R39 leaves `ACC`, `DPAD`, `MBUF`, `OPA`, `OPB`, `RES`, `KEY` and `DIGEST` unspecified after reset, and
R40 says that a read of what nothing has written since is a free draw at each read, never to be taken as zero. The state
says which words those are: `unspecified` lists the window addresses of the register words nothing has written, and a
byte of `MBUF` that nothing has written is not listed in `mbuf`. Every register field holds a value all the same (log 1),
which no read sees while its word is marked; the reads are in Machine/Operands.lean (log 2, log 3).
-/

namespace Sys2Proof.Machine

/-- `PHASE`, the state of the kernel state machine (10_state.md R33). -/
inductive Phase where
  | idle
  | absorb
  | tailed
  | merged
  | hardened
  | committed
  | rekeyed
  | done
deriving DecidableEq, Repr

/-- `ERR`, the code of the first refusal since it was last cleared (10_state.md R34, 60_exceptions.md R241). Values 5 to
15 never occur. -/
inductive ErrCode where
  | none
  | illegal
  | state
  | arg
  | bus
deriving DecidableEq, Repr

/-- One thing the host does to the engine: the two transaction primitives of 20_memory.md R60, at any width (R51 refuses
all but 32 bits), and the hardware reset (70_reset_and_hazards.md R260; log 9). `width` counts bits; the window has 12-bit
addresses (R50; log 8). -/
inductive HostAccess where
  | read (width : Nat) (addr : BitVec 12)
  | write (width : Nat) (addr : BitVec 12) (data : Word)
  | reset
deriving DecidableEq, Repr

/-- Byte storage of the window by address, in one canonical form: addresses strictly rising (`Memory.wf`). An address that
is not listed holds no value (R40). -/
abbrev Memory := List Host.Cell

/-- Why the machine would stop with a fault. Nothing raises one, which is safe: the engine has no traps and always answers
(60_exceptions.md R240, 93_implementation_defined.md part 2), so the type has no constructor (log 10). A refusal in the
spec's sense is a next state with `ERR` set. -/
inductive Fault where
deriving DecidableEq, Repr

/-- Why the model would give an instruction no meaning. -/
inductive Refusal where
  /-- Raised by no arm: every instruction of the table has its meaning. Safe. -/
  | notModelled (mnemonic : String)
deriving DecidableEq, Repr

/-- The state of one engine (10_state.md R20), with the marks of unspecified storage and the model's own three fields. The wide
fields stand last: two states that differ are told apart at a narrow one. -/
structure State where
  /-- `PHASE` (R33). -/
  phase : Phase
  /-- `ERR` (R34). -/
  err : ErrCode
  /-- `KEYV`: the hash in progress is keyed (R29). -/
  keyv : Bool
  /-- The window addresses, rising, of the register words that hold no defined value (R40). -/
  unspecified : List Nat
  /-- The model's own: the host's accesses not yet performed, in the order issued (20_memory.md R61; log 5). -/
  pending : List HostAccess
  /-- The model's own: how many accesses were performed, the index of the free draws (R40; log 4). -/
  draw : Nat
  /-- The model's own: the word the latest read returned (20_memory.md R60; log 4). -/
  rdata : Word
  /-- `DOMAIN` (R27). -/
  domain : Half
  /-- `SEED` (R28). -/
  seed : Half
  /-- `LEN`, the total byte count (R30). -/
  len : Half
  /-- `BLK`, the block index (R31). -/
  blk : Half
  /-- `OPA` (R26). -/
  opa : Lane
  /-- `OPB` (R26). -/
  opb : Lane
  /-- `RES` (R26). -/
  res : Lane
  /-- `KEY` = `K1R || K0R` (R29). -/
  key : BitVec 256
  /-- `DIGEST` (R32). -/
  digest : BitVec 256
  /-- `MBUF[0..511]`, byte `k` at window address `0x200 + k` (R25). -/
  mbuf : Memory
  /-- `DPAD[0..3]`, the pre-whitened padded final block (R23). -/
  dpad : Quad
  /-- `ACC[0..31]`, the lane registers (R21); `ACC[0..3]` also hold the short state (R22). -/
  acc : Bulk
deriving DecidableEq, Repr

/-- The addresses of `count` consecutive window words from `base`. -/
def wordsFrom (base count : Nat) : List Nat := (List.range count).map fun k => base + 4 * k

/-- The register words that R39 leaves unspecified after reset: those of `KEY`, `DIGEST`, `OPA`, `OPB`, `RES`, `DPAD` and
`ACC`, at the addresses of 20_memory.md R52. -/
def unspecifiedAtReset : List Nat :=
  wordsFrom 0x040 8 ++ wordsFrom 0x060 8 ++ wordsFrom 0x080 4 ++ wordsFrom 0x090 4 ++ wordsFrom 0x0A0 4
    ++ wordsFrom 0x100 16 ++ wordsFrom 0x400 128

/-- The state after a hardware reset (10_state.md R39, 70_reset_and_hazards.md R261). The zeros of `acc`, `dpad`, `opa`,
`opb`, `res`, `key` and `digest` are DESIGN CHOICE (log 1): those words are marked unspecified and no read gives the zero. -/
def State.reset : State where
  acc := Vector.replicate 32 0
  dpad := Vector.replicate 4 0
  mbuf := []
  opa := 0
  opb := 0
  res := 0
  domain := 0
  seed := 0
  key := 0
  keyv := false
  len := 0
  blk := 0
  digest := 0
  phase := .idle
  err := .none
  unspecified := unspecifiedAtReset
  pending := []
  draw := 0
  rdata := 0

end Sys2Proof.Machine
end

