-- ==== Sys2Proof/Machine/Flags.lean ====
section
/-!
DEFINITION. The control state: the STATUS word (10_state.md R35), which command is legal in which phase and which phase it
leaves (30_encoding.md R80), the range of the length immediate (R71) and which commands run while ERR is set
(60_exceptions.md R243). There are no condition codes (10_state.md R37).
-/

namespace Sys2Proof.Machine

/-- The value of `PHASE` (R33). -/
def Phase.code : Phase → BitVec 3
  | .idle => 0
  | .absorb => 1
  | .tailed => 2
  | .merged => 3
  | .hardened => 4
  | .committed => 5
  | .rekeyed => 6
  | .done => 7

/-- The value of `ERR` (R34, R241). -/
def ErrCode.code : ErrCode → BitVec 4
  | .none => 0
  | .illegal => 1
  | .state => 2
  | .arg => 3
  | .bus => 4

/-- `STATUS`: `PHASE` in bits 2:0, `KEYV` in bit 3, `ERR` in bits 7:4, `BUSY` (always 0) in bit 8, bits 31:9 zero (R35). -/
def State.status (s : State) : Word :=
  (0 : BitVec 23) ++ (0 : BitVec 1) ++ s.err.code ++ BitVec.ofBool s.keyv ++ s.phase.code

/-- In which phases a command is legal (R80). -/
def legalIn (i : Instr) (p : Phase) : Bool :=
  match i with
  | .nop | .clrerr | .sreset | .subb | .shrow | .mixc | .aesr | .clmul _ _ | .xor | .add64 | .short _ | .init _ => true
  | .compress | .tail _ | .final _ => p == .absorb
  | .merge => p == .tailed
  | .harden => p == .merged
  | .fblock => p == .hardened
  | .rekey => p == .committed
  | .reduce => p == .rekeyed

/-- The phase a command leaves when it is performed in phase `p` (R80). -/
def phaseAfter (i : Instr) (p : Phase) : Phase :=
  match i with
  | .nop | .clrerr | .subb | .shrow | .mixc | .aesr | .clmul _ _ | .xor | .add64 => p
  | .sreset => .idle
  | .short _ => .done
  | .init _ => .absorb
  | .compress => .absorb
  | .tail _ => .tailed
  | .merge => .merged
  | .harden => .hardened
  | .fblock => .committed
  | .rekey => .rekeyed
  | .reduce => .done
  | .final _ => .done

/-- The range of the length immediate: 0 to 63 for SHORT, 0 to 511 for TAIL and FINAL (R71). -/
def lengthInRange (i : Instr) : Bool :=
  match i with
  | .short n => decide (n ≤ 63)
  | .tail n | .final n => decide (n ≤ 511)
  | .nop | .clrerr | .sreset | .subb | .shrow | .mixc | .aesr | .clmul _ _ | .xor | .add64 | .init _ | .compress
  | .merge | .harden | .fblock | .rekey | .reduce => true

/-- CLRERR and SRESET, the commands that run whatever ERR holds (R243, R76 step 2). -/
def runsUnderError (i : Instr) : Bool :=
  match i with
  | .clrerr | .sreset => true
  | .nop | .subb | .shrow | .mixc | .aesr | .clmul _ _ | .xor | .add64 | .short _ | .init _ | .compress | .tail _
  | .merge | .harden | .fblock | .rekey | .reduce | .final _ => false

end Sys2Proof.Machine
end

