-- ==== Sys2Proof/Machine/Datapath.lean ====
section
/-!
DEFINITION. The lane datapath (40_lane_primitives.md R90 to R99): the AES round unit, the carry-less multiplier, the
64-bit lane-wise adder, and the whitening, metadata and padding functions that every kernel uses. All are pure functions.
-/

namespace Sys2Proof.Machine

/-! ## Bytes, words and halves of a vector (00_scope.md R11 to R13, 20_memory.md R53, R54) -/

/-- `byte(x, n) = x[8n+7 : 8n]` (R11). -/
def byte (x : Lane) (n : Nat) : Byte := x.extractLsb' (8 * n) 8

/-- `x.lo = x[63:0]` (R12). -/
def lo (x : Lane) : Half := x.extractLsb' 0 64

/-- `x.hi = x[127:64]` (R12). -/
def hi (x : Lane) : Half := x.extractLsb' 64 64

/-- The pair notation `(a, b)`: `a` is the low half, `b` the high half (R13). -/
def pair (a b : Half) : Lane := b ++ a

/-- `bcast(v) = (v, v)` (R13). -/
def bcast (v : Half) : Lane := pair v v

/-- The little-endian value of a byte string, the sum of `B[n] * 2^(8n)` (R54). -/
def leValue : List Byte → Nat
  | [] => 0
  | b :: bs => b.toNat + 256 * leValue bs

/-- The lane formed from 16 bytes, the first least significant (R54). -/
def leLane (bs : List Byte) : Lane := BitVec.ofNat 128 (leValue bs)

/-- The lane whose byte `n` is `f n`. -/
def laneOfBytes (f : Fin 16 → Byte) : Lane := leLane (List.ofFn f)

/-- Bits `[32k+31 : 32k]` of a register, its word `k` (R53). -/
def wordOf {m : Nat} (x : BitVec m) (k : Nat) : Word := x.extractLsb' (32 * k) 32

/-- A register with its word `k` replaced and the rest left (R53). -/
def putWord {m : Nat} (x : BitVec m) (k : Nat) (w : Word) : BitVec m :=
  (x &&& ~~~((0xFFFFFFFF#32).setWidth m <<< (32 * k))) ||| (w.setWidth m <<< (32 * k))

/-! ## The AES round unit (PRESUMED by the spec, from general knowledge: log 7) -/

/-- The AES S-box as R91 prints it: row = high nibble, column = low nibble. -/
def sboxRows : List (List Byte) :=
  [[0x63, 0x7C, 0x77, 0x7B, 0xF2, 0x6B, 0x6F, 0xC5, 0x30, 0x01, 0x67, 0x2B, 0xFE, 0xD7, 0xAB, 0x76]]
    ++ [[0xCA, 0x82, 0xC9, 0x7D, 0xFA, 0x59, 0x47, 0xF0, 0xAD, 0xD4, 0xA2, 0xAF, 0x9C, 0xA4, 0x72, 0xC0]]
    ++ [[0xB7, 0xFD, 0x93, 0x26, 0x36, 0x3F, 0xF7, 0xCC, 0x34, 0xA5, 0xE5, 0xF1, 0x71, 0xD8, 0x31, 0x15]]
    ++ [[0x04, 0xC7, 0x23, 0xC3, 0x18, 0x96, 0x05, 0x9A, 0x07, 0x12, 0x80, 0xE2, 0xEB, 0x27, 0xB2, 0x75]]
    ++ [[0x09, 0x83, 0x2C, 0x1A, 0x1B, 0x6E, 0x5A, 0xA0, 0x52, 0x3B, 0xD6, 0xB3, 0x29, 0xE3, 0x2F, 0x84]]
    ++ [[0x53, 0xD1, 0x00, 0xED, 0x20, 0xFC, 0xB1, 0x5B, 0x6A, 0xCB, 0xBE, 0x39, 0x4A, 0x4C, 0x58, 0xCF]]
    ++ [[0xD0, 0xEF, 0xAA, 0xFB, 0x43, 0x4D, 0x33, 0x85, 0x45, 0xF9, 0x02, 0x7F, 0x50, 0x3C, 0x9F, 0xA8]]
    ++ [[0x51, 0xA3, 0x40, 0x8F, 0x92, 0x9D, 0x38, 0xF5, 0xBC, 0xB6, 0xDA, 0x21, 0x10, 0xFF, 0xF3, 0xD2]]
    ++ [[0xCD, 0x0C, 0x13, 0xEC, 0x5F, 0x97, 0x44, 0x17, 0xC4, 0xA7, 0x7E, 0x3D, 0x64, 0x5D, 0x19, 0x73]]
    ++ [[0x60, 0x81, 0x4F, 0xDC, 0x22, 0x2A, 0x90, 0x88, 0x46, 0xEE, 0xB8, 0x14, 0xDE, 0x5E, 0x0B, 0xDB]]
    ++ [[0xE0, 0x32, 0x3A, 0x0A, 0x49, 0x06, 0x24, 0x5C, 0xC2, 0xD3, 0xAC, 0x62, 0x91, 0x95, 0xE4, 0x79]]
    ++ [[0xE7, 0xC8, 0x37, 0x6D, 0x8D, 0xD5, 0x4E, 0xA9, 0x6C, 0x56, 0xF4, 0xEA, 0x65, 0x7A, 0xAE, 0x08]]
    ++ [[0xBA, 0x78, 0x25, 0x2E, 0x1C, 0xA6, 0xB4, 0xC6, 0xE8, 0xDD, 0x74, 0x1F, 0x4B, 0xBD, 0x8B, 0x8A]]
    ++ [[0x70, 0x3E, 0xB5, 0x66, 0x48, 0x03, 0xF6, 0x0E, 0x61, 0x35, 0x57, 0xB9, 0x86, 0xC1, 0x1D, 0x9E]]
    ++ [[0xE1, 0xF8, 0x98, 0x11, 0x69, 0xD9, 0x8E, 0x94, 0x9B, 0x1E, 0x87, 0xE9, 0xCE, 0x55, 0x28, 0xDF]]
    ++ [[0x8C, 0xA1, 0x89, 0x0D, 0xBF, 0xE6, 0x42, 0x68, 0x41, 0x99, 0x2D, 0x0F, 0xB0, 0x54, 0xBB, 0x16]]

/-- `S[a]` of R91. -/
def sbox (a : Byte) : Byte := (sboxRows.getD (a.toNat / 16) []).getD (a.toNat % 16) 0

/-- `xtime(a) = 2*a` in GF(2^8) modulo `x^8 + x^4 + x^3 + x + 1` (R93). -/
def xtime (a : Byte) : Byte := (a <<< 1) ^^^ (if a.getLsbD 7 then 0x1B else 0)

/-- `3*a = xtime(a) XOR a` (R93). -/
def times3 (a : Byte) : Byte := xtime a ^^^ a

/-- `SubBytes(x)`: every byte through the S-box, independently (R90). -/
def subBytes (x : Lane) : Lane := laneOfBytes fun n => sbox (byte x n)

/-- `ShiftRows(x)`: output byte `4c + r` is input byte `4*((c + r) mod 4) + r` (R92). -/
def shiftRows (x : Lane) : Lane := laneOfBytes fun n => byte x (4 * ((n.val / 4 + n.val % 4) % 4) + n.val % 4)

/-- Byte `r` of the image of a column of four bytes `a0..a3` under the matrix of R93. -/
def mixByte (a0 a1 a2 a3 : Byte) (r : Nat) : Byte :=
  match r with
  | 0 => xtime a0 ^^^ times3 a1 ^^^ a2 ^^^ a3
  | 1 => a0 ^^^ xtime a1 ^^^ times3 a2 ^^^ a3
  | 2 => a0 ^^^ a1 ^^^ xtime a2 ^^^ times3 a3
  | _ => times3 a0 ^^^ a1 ^^^ a2 ^^^ xtime a3

/-- `MixColumns(x)`: each column `c`, bytes `4c..4c+3`, through the matrix of R93. -/
def mixColumns (x : Lane) : Lane :=
  laneOfBytes fun n =>
    let c := 4 * (n.val / 4)
    mixByte (byte x c) (byte x (c + 1)) (byte x (c + 2)) (byte x (c + 3)) (n.val % 4)

/-- `AES(s, k)`: one full encryption round, AddRoundKey last (R94). -/
def aes (s k : Lane) : Lane := mixColumns (shiftRows (subBytes s)) ^^^ k

/-! ## The carry-less multiplier and the adder -/

/-- `clmul(a, b)`: the XOR over all `i` with `a[i] = 1` of `zext_128(b) << i` (R95). -/
def clmul (a b : Half) : Lane :=
  (List.range 64).foldl (fun acc i => if a.getLsbD i then acc ^^^ (b.setWidth 128 <<< i) else acc) 0

/-- `add64(x, y)`: each half modulo 2^64, no carry between them (R96). -/
def add64 (x y : Lane) : Lane := pair (lo x + lo y) (hi x + hi y)

/-! ## Whitening, metadata, padding -/

/-- `whiten(w) = AES(w, (W0, W1))` (R97). -/
def whiten (cfg : Params) (w : Lane) : Lane := aes w (pair cfg.w0 cfg.w1)

/-- `meta(L, dom)`, the four metadata words (R98). -/
def metaWords (cfg : Params) (len dom : Half) : Quad :=
  #v[pair (dom ^^^ len) cfg.phi, pair len dom, pair cfg.phi len, pair dom cfg.phi]

/-- The padded 64-byte block of R99: the bytes, the sentinel `0x80`, zeros. -/
def padBytes (bs : List Byte) : List Byte := bs ++ 0x80 :: List.replicate (63 - bs.length) 0

/-- Lane `i` of a byte string: the little-endian value of bytes `16i .. 16i+15`. -/
def laneAt (bs : List Byte) (i : Nat) : Lane := leLane ((bs.drop (16 * i)).take 16)

/-- `pad64(B)` for a byte string of 0 to 63 bytes (R99). -/
def pad64 (bs : List Byte) : Quad := Vector.ofFn fun i => laneAt (padBytes bs) i

/-- `whiten(pad64(B)[i])` for `i` = 0..3: the data words of the short kernel (R123) and of the padded final block
(R164). -/
def whitenedPad (cfg : Params) (bs : List Byte) : Quad := Vector.ofFn fun i => whiten cfg (pad64 bs)[i]

end Sys2Proof.Machine
end

