-- ==== Sys2Proof/Machine/Operands.lean ====
section
/-!
DEFINITION. Every way a command or the host reads the state's storage. A word or byte that nothing has written since reset
reads as a free draw of the access at hand (10_state.md R40; log 2): `Config.freeByte` at the access's number and the
byte's window address. One access draws one value for one byte, however often its command uses it.
-/

namespace Sys2Proof.Machine

/-- The free value of the word at window address `a` in this access (R40), least significant byte first (R54). -/
def State.freeWord (s : State) (a : Nat) : Word :=
  BitVec.ofNat 32 (leValue ((List.range 4).map fun j => Config.freeByte s.draw (a + j)))

/-- What a read of a register word finds: the value held, or a free draw where nothing has written it (R40). -/
def State.seenWord (s : State) (a : Nat) (held : Word) : Word :=
  if a ∈ s.unspecified then s.freeWord a else held

/-- What a read of a 128-bit register at window address `a` finds, word by word. -/
def State.seenLane (s : State) (a : Nat) (held : Lane) : Lane :=
  s.seenWord (a + 12) (wordOf held 3) ++ s.seenWord (a + 8) (wordOf held 2) ++ s.seenWord (a + 4) (wordOf held 1)
    ++ s.seenWord a (wordOf held 0)

/-- `OPA` as this access reads it (10_state.md R26, 20_memory.md R52). -/
def State.opaSeen (s : State) : Lane := s.seenLane 0x080 s.opa

/-- `OPB` as this access reads it. -/
def State.opbSeen (s : State) : Lane := s.seenLane 0x090 s.opb

/-- `K0R`, key bytes 0..15, as this access reads it (10_state.md R29). -/
def State.k0Seen (s : State) : Lane := s.seenLane 0x040 (s.key.extractLsb' 0 128)

/-- `K1R`, key bytes 16..31, as this access reads it (10_state.md R29). -/
def State.k1Seen (s : State) : Lane := s.seenLane 0x050 (s.key.extractLsb' 128 128)

/-- `DPAD[0..3]` as this access reads them (10_state.md R23). -/
def State.dpadSeen (s : State) : Quad := Vector.ofFn fun i => s.seenLane (0x100 + 16 * i) s.dpad[i]

/-- `ACC[0..31]` as this access reads them (10_state.md R21). -/
def State.accSeen (s : State) : Bulk := Vector.ofFn fun i => s.seenLane (0x400 + 16 * i) s.acc[i]

/-- `acc[0..3]`, the four lanes the short kernel and the end of the finalisation work on. -/
def firstQuad (acc : Bulk) : Quad := Vector.ofFn fun i => acc[(⟨i.val, by omega⟩ : Fin 32)]

/-- The byte listed at a window address, if any. -/
def Memory.find : Memory → Nat → Option Byte
  | [], _ => none
  | (b, v) :: m, a => if b = a then some v else Memory.find m a

/-- Byte `k` of `MBUF` as this access reads it (10_state.md R25, R40). -/
def State.mbufByte (s : State) (k : Nat) : Byte :=
  (Memory.find s.mbuf (0x200 + k)).getD (Config.freeByte s.draw (0x200 + k))

/-- The `n` bytes of `MBUF` from offset `a`. -/
def State.mbufBytes (s : State) (a n : Nat) : List Byte := (List.range n).map fun j => s.mbufByte (a + j)

/-- `MemRead(a, n)`: the sum over `j < n` of `MBUF[a + j] * 2^(8j)`, as a value of `8n` bits (20_memory.md R55). -/
def State.memRead (s : State) (a n : Nat) : BitVec (8 * n) := BitVec.ofNat (8 * n) (leValue (s.mbufBytes a n))

/-- The data word at buffer offset `a`: `MemRead(a, 16)`. -/
def State.dataWord (s : State) (a : Nat) : Lane := s.memRead a 16

end Sys2Proof.Machine
end

