-- ==== Sys2Proof/Machine/Ops.lean ====
section
/-!
DEFINITION. The named operations over the state: refusing and recovering (60_exceptions.md R240 to R247), the frame every
command runs in (30_encoding.md R76), the writes of registers and of `MBUF`, and the host's two transaction primitives
over the register map (20_memory.md R52 to R60).
-/

namespace Sys2Proof.Machine

/-! ## Refusal and recovery

The engine has no traps (R240). A refusal is its only exceptional event: what an exception entry saves and changes is here
the one assignment of R240, and the return is CLRERR (R246, R247). -/

/-- `raise E`: record the code if `ERR` is 0, change nothing else (R240, R242). -/
def State.raise (s : State) (e : ErrCode) : State := if s.err = .none then { s with err := e } else s

/-- The return from a refusal: `ERR <- 0` and nothing else (R247, 46_system.md R196). -/
def State.clearErr (s : State) : State := { s with err := .none }

/-- A hardware reset, and SRESET (70_reset_and_hazards.md R260, 46_system.md R197): every piece of the engine's state takes
its reset value. The host's accesses, the count of accesses and the word the host last read are not the engine's and stay
(DESIGN CHOICE, log 9). -/
def State.resetEngine (s : State) : State :=
  { State.reset with pending := s.pending, draw := s.draw, rdata := s.rdata }

/-- Steps 2 to 5 of R76 for a decoded command: gating by ERR, the phase, the range of `n`, then the command's own rule and
the new phase. -/
def command (i : Instr) (s : State) (effect : State → State) : Host.Outcome State Fault Refusal :=
  if s.err ≠ .none ∧ runsUnderError i = false then .next s
  else if legalIn i s.phase = false then .next (s.raise .state)
  else if lengthInRange i = false then .next (s.raise .arg)
  else .next { effect s with phase := phaseAfter i s.phase }

/-! ## Writes of registers -/

/-- The `n` register words from window address `a` hold defined values from now on (R40). -/
def State.define (s : State) (a n : Nat) : State :=
  { s with unspecified := s.unspecified.filter fun x => decide (x < a ∨ a + 4 * n ≤ x) }

/-- `RES <- v`. -/
def State.setRes (s : State) (v : Lane) : State := { s.define 0x0A0 4 with res := v }

/-- `DIGEST <- v`. -/
def State.setDigest (s : State) (v : BitVec 256) : State := { s.define 0x060 8 with digest := v }

/-- `DPAD[i] <- v[i]` for `i` = 0..3. -/
def State.setDpad (s : State) (v : Quad) : State := { s.define 0x100 16 with dpad := v }

/-- `ACC[i] <- v[i]` for `i < count`; the other lane registers keep what they hold. -/
def State.setAcc (s : State) (count : Nat) (v : Bulk) : State :=
  { s.define 0x400 (4 * count) with acc := Vector.ofFn fun i => if i.val < count then v[i] else s.acc[i] }

/-- The bulk state with its first four lanes replaced. -/
def withFirstQuad (acc : Bulk) (q : Quad) : Bulk :=
  Vector.ofFn fun i => if h : i.val < 4 then q[(⟨i.val, h⟩ : Fin 4)] else acc[i]

/-- `ACC[i] <- q[i]` for `i` = 0..3. -/
def State.setQuad (s : State) (q : Quad) : State := s.setAcc 4 (withFirstQuad s.acc q)

/-! ## `MBUF` -/

/-- Store one byte, keeping the addresses strictly rising. -/
def Memory.put : Memory → Nat → Byte → Memory
  | [], a, v => [(a, v)]
  | (b, w) :: m, a, v => if a < b then (a, v) :: (b, w) :: m else if a = b then (a, v) :: m else (b, w) :: Memory.put m a v

/-- The canonical form of the byte storage: addresses strictly rising, all in `MBUF`'s part of the window (20_memory.md
R52). An unlisted byte has no value, so no listed one can repeat it. -/
def Memory.wf (m : Memory) : Bool :=
  decide (m.Pairwise fun x y => x.1 < y.1) && m.all fun c => decide (0x200 ≤ c.1 ∧ c.1 < 0x400)

/-- `MBUF[4w + j] <- v[8j+7 : 8j]` for `j` = 0..3, at window address `a = 0x200 + 4w` (R55). -/
def Memory.putWord (m : Memory) (a : Nat) (v : Word) : Memory :=
  (List.range 4).foldl (fun m j => Memory.put m (a + j) (v.extractLsb' (8 * j) 8)) m

/-! ## The register map -/

/-- The registers of the map (R52). -/
inductive Reg where
  | cmd
  | status
  | domain
  | seed
  | len
  | blk
  | key
  | digest
  | opa
  | opb
  | res
  | dpad
  | mbuf
  | acc
deriving DecidableEq, Repr

/-- The column Access of R52. -/
inductive Access where
  | rw
  | ro
  | wo
deriving DecidableEq, Repr

/-- One row of the map: a register at a window address, its words and its access. -/
structure RegRow where
  reg : Reg
  base : Nat
  words : Nat
  access : Access
deriving DecidableEq, Repr

/-- The register map of R52; every address in no row is reserved. -/
def registerMap : List RegRow :=
  [⟨.cmd, 0x000, 1, .wo⟩, ⟨.status, 0x004, 1, .ro⟩, ⟨.domain, 0x008, 2, .rw⟩, ⟨.seed, 0x010, 2, .rw⟩,
   ⟨.len, 0x018, 2, .rw⟩, ⟨.blk, 0x020, 2, .rw⟩, ⟨.key, 0x040, 8, .wo⟩, ⟨.digest, 0x060, 8, .ro⟩,
   ⟨.opa, 0x080, 4, .rw⟩, ⟨.opb, 0x090, 4, .rw⟩, ⟨.res, 0x0A0, 4, .ro⟩, ⟨.dpad, 0x100, 16, .rw⟩,
   ⟨.mbuf, 0x200, 128, .rw⟩, ⟨.acc, 0x400, 128, .rw⟩]

/-- The row of the register at a word address, none when the address is reserved. -/
def locate (a : Nat) : Option RegRow := registerMap.find? fun r => decide (r.base ≤ a ∧ a < r.base + 4 * r.words)

/-- The access has the one width and alignment the bus allows (R51). -/
def busShapeOk (width a : Nat) : Bool := decide (width = 32 ∧ a % 4 = 0)

/-- The register word a read of the host reaches, and none when the read is refused: by its shape (R51), at a reserved
address, or of a write-only register (R57). -/
def readTarget (width a : Nat) : Option (Reg × Nat) :=
  if busShapeOk width a then
    (locate a).bind fun r => if r.access = .wo then none else some (r.reg, (a - r.base) / 4)
  else none

/-- The register word a write of the host reaches, and none when the write is refused: by its shape (R51), at a reserved
address, or of a read-only register (R57). -/
def writeTarget (width a : Nat) : Option (Reg × Nat) :=
  if busShapeOk width a then
    (locate a).bind fun r => if r.access = .ro then none else some (r.reg, (a - r.base) / 4)
  else none

/-- Word `k` of a readable register, as this access reads it (R53, R55, R60). `CMD` and `KEY` are never readable. -/
def State.readReg (s : State) (r : Reg) (k : Nat) : Word :=
  match r with
  | .cmd | .key => 0
  | .status => s.status
  | .domain => wordOf s.domain k
  | .seed => wordOf s.seed k
  | .len => wordOf s.len k
  | .blk => wordOf s.blk k
  | .digest => s.seenWord (0x060 + 4 * k) (wordOf s.digest k)
  | .opa => s.seenWord (0x080 + 4 * k) (wordOf s.opa k)
  | .opb => s.seenWord (0x090 + 4 * k) (wordOf s.opb k)
  | .res => s.seenWord (0x0A0 + 4 * k) (wordOf s.res k)
  | .dpad => s.seenWord (0x100 + 4 * k) (wordOf s.dpad[Fin.ofNat 4 (k / 4)] (k % 4))
  | .mbuf => s.memRead (4 * k) 4
  | .acc => s.seenWord (0x400 + 4 * k) (wordOf s.acc[Fin.ofNat 32 (k / 4)] (k % 4))

/-- Store a word into word `k` of a writable register (R53, R55, R60); the word holds a defined value from then on. `CMD`
stores nothing (its write executes a command) and the read-only registers are never reached. -/
def State.writeReg (s : State) (r : Reg) (k : Nat) (w : Word) : State :=
  match r with
  | .cmd | .status | .digest | .res => s
  | .domain => { s with domain := putWord s.domain k w }
  | .seed => { s with seed := putWord s.seed k w }
  | .len => { s with len := putWord s.len k w }
  | .blk => { s with blk := putWord s.blk k w }
  | .key => { s.define (0x040 + 4 * k) 1 with key := putWord s.key k w }
  | .opa => { s.define (0x080 + 4 * k) 1 with opa := putWord s.opa k w }
  | .opb => { s.define (0x090 + 4 * k) 1 with opb := putWord s.opb k w }
  | .dpad =>
    { s.define (0x100 + 4 * k) 1 with
      dpad := s.dpad.set (Fin.ofNat 4 (k / 4)) (putWord s.dpad[Fin.ofNat 4 (k / 4)] (k % 4) w) }
  | .mbuf => { s with mbuf := Memory.putWord s.mbuf (0x200 + 4 * k) w }
  | .acc =>
    { s.define (0x400 + 4 * k) 1 with
      acc := s.acc.set (Fin.ofNat 32 (k / 4)) (putWord s.acc[Fin.ofNat 32 (k / 4)] (k % 4) w) }

/-- `HostRead(a)`: a refused read raises BUS and returns 0, any other returns the register's word and changes nothing
(R57, R58, R60). The word returned is what the host holds afterwards, in `rdata`. -/
def State.hostRead (s : State) (width a : Nat) : State :=
  match readTarget width a with
  | none => { s.raise .bus with rdata := 0 }
  | some (r, k) => { s with rdata := s.readReg r k }

/-- What a host access comes to: a command to run, or a state already reached. -/
inductive BusAction where
  | run (i : Instr)
  | done (t : State)
deriving DecidableEq, Repr

/-- `HostWrite(a, w)`: a refused write raises BUS and changes nothing else; a write of `CMD` gives the word to the decoder
(step 1 of R76: an illegal word raises ILLEGAL); any other stores the word (R57, R58, R60). -/
def State.hostWrite (s : State) (width a : Nat) (w : Word) : BusAction :=
  match writeTarget width a with
  | none => .done (s.raise .bus)
  | some (.cmd, _) =>
    match decode w with
    | .command i => .run i
    | .illegal _ => .done (s.raise .illegal)
  | some (r, k) => .done (s.writeReg r k w)

/-- What one access of the host does to the engine. -/
def State.access (s : State) (x : HostAccess) : BusAction :=
  match x with
  | .read width a => .done (s.hostRead width a.toNat)
  | .write width a w => s.hostWrite width a.toNat w
  | .reset => .done s.resetEngine

/-- The next access of the host, with the state in which it is performed: it is no longer pending and is counted, so its
free draws are its own (R40). None when the host does nothing. -/
def State.nextAccess (s : State) : Option (HostAccess × State) :=
  match s.pending with
  | [] => none
  | x :: rest => some (x, { s with pending := rest, draw := s.draw + 1 })

end Sys2Proof.Machine
end

