-- ==== Sys2Proof/Machine/BulkInit.lean ====
section
/-!
DEFINITION. Bulk initialisation, INIT (42_bulk_init.md R135 to R140), and the two views of a bulk index.
-/

namespace Sys2Proof.Machine

/-- The lane group of a bulk index (00_scope.md R14). -/
def groupOf (i : Fin 32) : Fin 8 := ⟨i.val / 4, by omega⟩

/-- The element of a bulk index within its lane group (R14). -/
def elemOf (i : Fin 32) : Fin 4 := ⟨i.val % 4, by omega⟩

/-- Index `4g + e`, the document's `acc[g][e]` (R14). -/
def bulkIndex (g : Fin 8) (e : Fin 4) : Fin 32 := ⟨4 * g.val + e.val, by omega⟩

/-- Step 1, fill: `ACC[4g + e] <- (C[g] + 2e, C[g] + 2e + 1)` modulo 2^64 (R136). -/
def bulkFill (cfg : Params) : Bulk :=
  Vector.ofFn fun i =>
    let base := cfg.c[groupOf i]
    let e := BitVec.ofNat 64 (elemOf i).val
    pair (base + 2 * e) (base + 2 * e + 1)

/-- The seed word: `SEED`, or `C[5]` when it is 0 (R137). -/
def seedWord (cfg : Params) (seed : Half) : Half := if seed = 0 then cfg.c[5] else seed

/-- Step 2, absorb seed: one AES round on every lane with the key `(s, s)` (R137). -/
def bulkSeed (cfg : Params) (seed : Half) (acc : Bulk) : Bulk :=
  Vector.ofFn fun i => aes acc[i] (bcast (seedWord cfg seed))

/-- `k_e` of R138: `k0, k1, k0 XOR (PHI, PHI), k1 XOR (PHI, PHI)`. -/
def keyWords (cfg : Params) (k0 k1 : Lane) : Quad := #v[k0, k1, k0 ^^^ bcast cfg.phi, k1 ^^^ bcast cfg.phi]

/-- Step 3, absorb key: two AES rounds on every lane, with `k_e + bcast(LANE_OFFSET[g])` and then with `k_e` (R138). -/
def bulkKey (cfg : Params) (k0 k1 : Lane) (acc : Bulk) : Bulk :=
  Vector.ofFn fun i =>
    let k := (keyWords cfg k0 k1)[elemOf i]
    aes (aes acc[i] (add64 k (bcast cfg.laneOffset[Fin.ofNat 32 (groupOf i).val]))) k

/-- The bulk state INIT leaves (R136 to R138). -/
def bulkInit (cfg : Params) (seed : Half) (k : Bool) (k0 k1 : Lane) : Bulk :=
  let acc := bulkSeed cfg seed (bulkFill cfg)
  if k then bulkKey cfg k0 k1 acc else acc

/-- What INIT does when it is performed (R135, R139): all of `ACC`, `KEYV <- k`, `LEN <- 0`, `BLK <- 0`. -/
def initEffect (cfg : Params) (k : Bool) (s : State) : State :=
  { s.setAcc 32 (bulkInit cfg s.seed k s.k0Seen s.k1Seen) with keyv := k, len := 0, blk := 0 }

/-- INIT (R135). -/
def execInit (k : Bool) (s : State) : Host.Outcome State Fault Refusal :=
  command (.init k) s (initEffect Config.params k)

end Sys2Proof.Machine
end

