-- ==== Sys2Proof/Machine/Compress.lean ====
section
/-!
DEFINITION. Bulk compression of one 512-byte block, COMPRESS (43_bulk_compress.md R145 to R155).
-/

namespace Sys2Proof.Machine

/-- Step 1, pre-whiten: data word `i` is `whiten` of block bytes `16i .. 16i+15` (R146). -/
def blockWords (cfg : Params) (s : State) : Bulk := Vector.ofFn fun i => whiten cfg (s.dataWord (16 * i))

/-- Sub-step (a) of R148 and R152: AES with the data word of the lane group `shift` further on, the round key, the lane's
offset and the block index, all added by halves. -/
def bulkAes (cfg : Params) (shift : Fin 8) (b : Half) (acc d : Bulk) (r : Fin 10) : Bulk :=
  Vector.ofFn fun i =>
    aes acc[i]
      (add64 (add64 (add64 d[bulkIndex (groupOf i + shift) (elemOf i)] cfg.rk[r]) (bcast cfg.laneOffset[i])) (pair b b))

/-- Sub-step (b) of R148, the cross-lane feedback of stride 3: `d[4g + e] <- d[4g + e] XOR acc[4*((g+3) mod 8) + e]`. -/
def bulkFeed (acc d : Bulk) : Bulk := Vector.ofFn fun i => d[i] ^^^ acc[bulkIndex (groupOf i + 3) (elemOf i)]

/-- Sub-step (c) of R148, the lane rotation: lane group `g` receives what was at `(g+1) mod 8`. -/
def rotateGroups (acc : Bulk) : Bulk := Vector.ofFn fun i => acc[bulkIndex (groupOf i + 1) (elemOf i)]

/-- One round of a phase: AES, feedback, lane rotation (R148, R152). -/
def bulkRound (cfg : Params) (shift : Fin 8) (b : Half) (st : Bulk × Bulk) (r : Fin 10) : Bulk × Bulk :=
  let acc := bulkAes cfg shift b st.1 st.2 r
  (rotateGroups acc, bulkFeed acc st.2)

/-- Rounds 0 to 4, phase 1. -/
def phaseOneRounds : List (Fin 10) := [0, 1, 2, 3, 4]

/-- Rounds 5 to 9, phase 2. -/
def phaseTwoRounds : List (Fin 10) := [5, 6, 7, 8, 9]

/-- The element rotation: `acc[4g + e] <- acc[4g + ((e+1) mod 4)]` (R149, R153). -/
def rotateElems (acc : Bulk) : Bulk := Vector.ofFn fun i => acc[bulkIndex (groupOf i) (elemOf i + 1)]

/-- The butterfly across halves: of a pair of lane groups `g`, `g + 4` the lower gets the XOR, the higher the sum, at every
element (R150). -/
def butterflyHalves (acc : Bulk) : Bulk :=
  Vector.ofFn fun i =>
    let other := acc[bulkIndex (groupOf i + 4) (elemOf i)]
    if (groupOf i).val < 4 then acc[i] ^^^ other else add64 acc[i] other

/-- The secondary butterfly on the pairs of lane groups (0,2), (1,3), (4,6), (5,7): the lower gets the XOR, the higher the
sum, at every element (R151). -/
def butterflyPairs (acc : Bulk) : Bulk :=
  Vector.ofFn fun i =>
    if (groupOf i).val % 4 < 2 then acc[i] ^^^ acc[bulkIndex (groupOf i + 2) (elemOf i)]
    else add64 acc[i] acc[bulkIndex (groupOf i - 2) (elemOf i)]

/-- The XOR of two bulk states, lane by lane. -/
def xorBulk (x y : Bulk) : Bulk := Vector.ofFn fun i => x[i] ^^^ y[i]

/-- The compression of the block with whitened data words `d` at block index `b` (R147 to R153): a function of the state,
the data and the index alone (R155). -/
def bulkCompress (cfg : Params) (acc d : Bulk) (b : Half) : Bulk :=
  let one := phaseOneRounds.foldl (bulkRound cfg 0 b) (acc, d)
  let middle := butterflyPairs (butterflyHalves (rotateElems one.1))
  let two := phaseTwoRounds.foldl (bulkRound cfg 4 b) (middle, one.2)
  xorBulk (rotateElems two.1) acc

/-- What COMPRESS does when it is performed (R145): all of `ACC`, and the counters (R154). -/
def compressEffect (cfg : Params) (s : State) : State :=
  { s.setAcc 32 (bulkCompress cfg s.accSeen (blockWords cfg s) s.blk) with blk := s.blk + 1, len := s.len + 512 }

/-- COMPRESS (R145). -/
def execCompress (s : State) : Host.Outcome State Fault Refusal := command .compress s (compressEffect Config.params)

end Sys2Proof.Machine
end

