-- ==== Sys2Proof/Machine/Reduce.lean ====
section
/-!
DEFINITION. The final lane reduction and REDUCE (45_reduce.md R185 to R191). Five rounds: 90_conflicts.md C1.
-/

namespace Sys2Proof.Machine

/-- `partner(i) = i XOR 1` (R186): the adjacent swap 0↔1, 2↔3. -/
def partner (i : Fin 4) : Fin 4 := ⟨i.val ^^^ 1, Nat.xor_lt_two_pow (n := 2) i.isLt (by decide)⟩

/-- `bias = (0, C7, C6, C5)`, each constant in both halves (R186). -/
def reduceBias (cfg : Params) : Quad := #v[0, bcast cfg.c[7], bcast cfg.c[6], bcast cfg.c[5]]

/-- Round 1: each lane is its own round key (R187). -/
def reduceSelf (x : Quad) : Quad := Vector.ofFn fun i => aes x[i] x[i]

/-- Rounds 2 and 4, the distant swap 0↔2, 1↔3 (R188, R190). -/
def reduceDistant (x : Quad) : Quad := Vector.ofFn fun i => aes x[i] x[i + 2]

/-- Rounds 3 and 5, the adjacent swap with asymmetry (R189, R190). -/
def reduceAdjacent (cfg : Params) (x : Quad) : Quad :=
  Vector.ofFn fun i => aes x[i] (x[partner i] ^^^ (reduceBias cfg)[i])

/-- The four lanes `e[0..3]` after Round 5 (R187 to R190). -/
def reduceRounds (cfg : Params) (x : Quad) : Quad :=
  reduceAdjacent cfg (reduceDistant (reduceAdjacent cfg (reduceDistant (reduceSelf x))))

/-- `Reduce(x[0..3]) = e[1] || e[0]` (R186, R191). -/
def reduceLanes (cfg : Params) (x : Quad) : BitVec 256 :=
  let e := reduceRounds cfg x
  e[1] ++ e[0]

/-- What REDUCE does when it is performed: `DIGEST <- Reduce(ACC[0..3])` (R185). -/
def reduceEffect (cfg : Params) (s : State) : State := s.setDigest (reduceLanes cfg (firstQuad s.accSeen))

/-- REDUCE (R185). -/
def execReduce (s : State) : Host.Outcome State Fault Refusal := command .reduce s (reduceEffect Config.params)

end Sys2Proof.Machine
end

