-- ==== Sys2Proof/Machine/Short.lean ====
section
/-!
DEFINITION. The short kernel and SHORT (41_short_kernel.md R120 to R125), and the 4-lane, 10-round compression it shares
with the remainder chunks (44_finalize.md R163).
-/

namespace Sys2Proof.Machine

/-- Rounds 0 to 9 in order. -/
def tenRounds : List (Fin 10) := [0, 1, 2, 3, 4, 5, 6, 7, 8, 9]

/-- 'Cyclically rotate left by one lane': index `i` receives what was at `(i+1) mod 4` (R124, R172). -/
def rotateQuad (acc : Quad) : Quad := Vector.ofFn fun i => acc[i + 1]

/-- Sub-step (a) of R124: AES with the data word, the round key and the lane's offset, all added by halves. -/
def quadAes (cfg : Params) (off : Vector Half 4) (acc d : Quad) (r : Fin 10) : Quad :=
  Vector.ofFn fun i => aes acc[i] (add64 (add64 d[i] cfg.rk[r]) (bcast off[i]))

/-- Sub-step (b) of R124: on odd rounds `d[i] <- d[i] XOR acc[(i+1) mod 4]`, before the rotation. -/
def quadFeed (acc d : Quad) (r : Fin 10) : Quad :=
  if r.val % 2 = 1 then Vector.ofFn fun i => d[i] ^^^ acc[i + 1] else d

/-- One round of R124 on the state and the data words: AES, feed forward, rotate. -/
def quadRound (cfg : Params) (off : Vector Half 4) (st : Quad × Quad) (r : Fin 10) : Quad × Quad :=
  let acc := quadAes cfg off st.1 st.2 r
  (rotateQuad acc, quadFeed acc st.2 r)

/-- The XOR of two 4-lane states, lane by lane. -/
def xorQuad (x y : Quad) : Quad := Vector.ofFn fun i => x[i] ^^^ y[i]

/-- Save, ten rounds, XOR of the saved state into the lane that now stands at its index (R124, R125, R163). -/
def quadCompress (cfg : Params) (off : Vector Half 4) (acc d : Quad) : Quad :=
  xorQuad (tenRounds.foldl (quadRound cfg off) (acc, d)).1 acc

/-- `LANE_OFFSET[base .. base+3]`. -/
def offsetsFrom (cfg : Params) (base : Nat) : Vector Half 4 := Vector.ofFn fun i => cfg.laneOffset[Fin.ofNat 32 (base + i)]

/-- Steps 1 to 3 of the short kernel: the frozen table, the whitened padded message, length and domain (R121, R123). -/
def shortCommitted (cfg : Params) (msg : List Byte) (len dom : Half) : Quad :=
  xorQuad (xorQuad cfg.shortInit (metaWords cfg len dom)) (whitenedPad cfg msg)

/-- The four lanes after step 5 of the short kernel (R121 to R125). -/
def shortState (cfg : Params) (msg : List Byte) (len dom : Half) : Quad :=
  quadCompress cfg (offsetsFrom cfg 0) (shortCommitted cfg msg len dom) (whitenedPad cfg msg)

/-- What SHORT does when it is performed: `L = zext_64(n)` (R71, R121), `ACC[0..3]` and `DIGEST` (R120, R125). -/
def shortEffect (cfg : Params) (n : Nat) (s : State) : State :=
  let x := shortState cfg (s.mbufBytes 0 n) (BitVec.ofNat 64 n) s.domain
  (s.setQuad x).setDigest (reduceLanes cfg x)

/-- SHORT (R120). -/
def execShort (n : Nat) (s : State) : Host.Outcome State Fault Refusal :=
  command (.short n) s (shortEffect Config.params n)

end Sys2Proof.Machine
end

