-- ==== Sys2Proof/Machine/Finalize.lean ====
section
/-!
DEFINITION. The finalisation pipeline: TAIL, MERGE, HARDEN, FBLOCK, REKEY, FINAL (44_finalize.md R160 to R178). Readings of the
document that change digests are the spec's (92_eei_decisions.md part B; log 12).
-/

namespace Sys2Proof.Machine

/-! ## TAIL -/

/-- The data words of remainder chunk `c`: `whiten(MemRead(64c + 16i, 16))` (R162). -/
def chunkWords (cfg : Params) (s : State) (c : Nat) : Quad := Vector.ofFn fun i => whiten cfg (s.dataWord (64 * c + 16 * i))

/-- Lane registers `base .. base+3`. -/
def quadAt (acc : Bulk) (base : Nat) : Quad := Vector.ofFn fun i => acc[Fin.ofNat 32 (base + i)]

/-- The bulk state with lane registers `base .. base+3` replaced. -/
def withQuadAt (acc : Bulk) (base : Nat) (q : Quad) : Bulk :=
  Vector.ofFn fun i => if base ≤ i.val ∧ i.val < base + 4 then q[Fin.ofNat 4 (i.val - base)] else acc[i]

/-- The mini-compression of chunk `c` on `ACC[4c .. 4c+3]` with the lane offsets of those registers (R163). -/
def absorbChunk (cfg : Params) (s : State) (acc : Bulk) (c : Nat) : Bulk :=
  withQuadAt acc (4 * c) (quadCompress cfg (offsetsFrom cfg (4 * c)) (quadAt acc (4 * c)) (chunkWords cfg s c))

/-- The bulk state after chunks `0 .. q-1` in order (R161). -/
def absorbChunks (cfg : Params) (s : State) (q : Nat) : Bulk := (List.range q).foldl (absorbChunk cfg s) s.accSeen

/-- What TAIL does when it is performed (R160): with `q = floor(n / 64)` and `t = n mod 64`, the registers of the `q` full
chunks (R161), `DPAD` from the `t` bytes left over, and `LEN <- LEN + n` (R164). -/
def tailEffect (cfg : Params) (n : Nat) (s : State) : State :=
  { (s.setAcc (4 * (n / 64)) (absorbChunks cfg s (n / 64))).setDpad
      (whitenedPad cfg (s.mbufBytes (64 * (n / 64)) (n % 64))) with
    len := s.len + BitVec.ofNat 64 n }

/-- TAIL (R160). -/
def execTail (n : Nat) (s : State) : Host.Outcome State Fault Refusal :=
  command (.tail n) s (tailEffect Config.params n)

/-! ## MERGE -/

/-- One level of the tree-merge: the registers `0 .. count-1` absorb `count .. 2*count-1` under the key mask `m`, two AES
rounds each; the others stay (R166). -/
def mergeLevel (count : Nat) (m : Lane) (acc : Bulk) : Bulk :=
  Vector.ofFn fun i =>
    if i.val < count then
      let t := aes acc[i] (acc[Fin.ofNat 32 (i.val + count)] ^^^ m)
      aes t (t ^^^ m)
    else acc[i]

/-- The tree-merge 32 to 16 to 8 to 4 (R166). -/
def treeMerge (cfg : Params) (acc : Bulk) : Bulk :=
  mergeLevel 4 (bcast cfg.c[7]) (mergeLevel 8 (bcast cfg.c[6]) (mergeLevel 16 (bcast cfg.c[5]) acc))

/-- What MERGE does when it is performed: `ACC[0..15]` (R165). -/
def mergeEffect (cfg : Params) (s : State) : State := s.setAcc 16 (treeMerge cfg s.accSeen)

/-- MERGE (R165). -/
def execMerge (s : State) : Host.Outcome State Fault Refusal := command .merge s (mergeEffect Config.params)

/-! ## HARDEN -/

/-- The CLMUL hardening of one lane (R168): both AES rounds take the original lane as their state. -/
def hardenLane (cfg : Params) (x : Lane) : Lane :=
  let cl1 := clmul (lo x) cfg.k1 ^^^ clmul (hi x) cfg.k2
  let mid := aes x cl1
  aes x (cl1 ^^^ clmul (lo mid) (hi mid))

/-- What HARDEN does when it is performed: `ACC[0..3]` (R167). -/
def hardenEffect (cfg : Params) (s : State) : State :=
  s.setQuad (Vector.ofFn fun i => hardenLane cfg (firstQuad s.accSeen)[i])

/-- HARDEN (R167). -/
def execHarden (s : State) : Host.Outcome State Fault Refusal := command .harden s (hardenEffect Config.params)

/-! ## FBLOCK -/

/-- Sub-step (a) of R172: AES with the data word and the round key, no lane offset and no block index. -/
def finalAes (cfg : Params) (acc d : Quad) (r : Fin 10) : Quad := Vector.ofFn fun i => aes acc[i] (add64 d[i] cfg.rk[r])

/-- One round of R172: AES, rotate, then on odd rounds `d[i] <- d[i] XOR acc[i]` with the rotated lanes. -/
def finalRound (cfg : Params) (st : Quad × Quad) (r : Fin 10) : Quad × Quad :=
  let acc := rotateQuad (finalAes cfg st.1 st.2 r)
  (acc, if r.val % 2 = 1 then xorQuad st.2 acc else st.2)

/-- The final block: the save is taken before metadata and data are XORed in (R170 to R173). -/
def finalBlock (cfg : Params) (acc d : Quad) (len dom : Half) : Quad :=
  xorQuad (tenRounds.foldl (finalRound cfg) (xorQuad (xorQuad acc (metaWords cfg len dom)) d, d)).1 acc

/-- What FBLOCK does when it is performed: `ACC[0..3]` (R169); `DPAD` is worked on in a copy (R170). -/
def fblockEffect (cfg : Params) (s : State) : State :=
  s.setQuad (finalBlock cfg (firstQuad s.accSeen) s.dpadSeen s.len s.domain)

/-- FBLOCK (R169). -/
def execFblock (s : State) : Host.Outcome State Fault Refusal := command .fblock s (fblockEffect Config.params)

/-! ## REKEY -/

/-- The four patterns of R175: entry `i` of the list for round `t` is the round key of `acc[i]`. -/
def rekeyPatterns (k0 k1 : Lane) : List Quad :=
  [#v[k0, k1, k1, k0], #v[k1, k0, k0, k1], #v[k0, k1, k0, k1], #v[k0, k0, k1, k1]]

/-- Four AES rounds on the four surviving lanes (R175). -/
def rekeyLanes (k0 k1 : Lane) (acc : Quad) : Quad :=
  (rekeyPatterns k0 k1).foldl (fun acc p => Vector.ofFn fun i => aes acc[i] p[i]) acc

/-- What REKEY does when it is performed: `ACC[0..3]` when `KEYV = 1`, nothing otherwise (R174, R175). -/
def rekeyEffect (s : State) : State :=
  if s.keyv then s.setQuad (rekeyLanes s.k0Seen s.k1Seen (firstQuad s.accSeen)) else s

/-- REKEY (R174). -/
def execRekey (s : State) : Host.Outcome State Fault Refusal := command .rekey s rekeyEffect

/-! ## FINAL -/

/-- What FINAL does when it is performed: exactly the six stages in order with nothing between them (R177, R178). -/
def finalEffect (cfg : Params) (n : Nat) (s : State) : State :=
  reduceEffect cfg (rekeyEffect (fblockEffect cfg (hardenEffect cfg (mergeEffect cfg (tailEffect cfg n s)))))

/-- FINAL (R178). -/
def execFinal (n : Nat) (s : State) : Host.Outcome State Fault Refusal :=
  command (.final n) s (finalEffect Config.params n)

end Sys2Proof.Machine
end

