-- ==== Sys2Proof/Machine/Primitives.lean ====
section
/-!
DEFINITION. The lane primitive commands SUBB, SHROW, MIXC, AESR, CLMUL, XOR, ADD64 (40_lane_primitives.md R100 to R106).
Each writes `RES` and nothing else.
-/

namespace Sys2Proof.Machine

/-- SUBB: `RES <- SubBytes(OPA)` (R100). -/
def execSubb (s : State) : Host.Outcome State Fault Refusal := command .subb s fun s => s.setRes (subBytes s.opaSeen)

/-- SHROW: `RES <- ShiftRows(OPA)` (R101). -/
def execShrow (s : State) : Host.Outcome State Fault Refusal := command .shrow s fun s => s.setRes (shiftRows s.opaSeen)

/-- MIXC: `RES <- MixColumns(OPA)` (R102). -/
def execMixc (s : State) : Host.Outcome State Fault Refusal := command .mixc s fun s => s.setRes (mixColumns s.opaSeen)

/-- AESR: `RES <- AES(OPA, OPB)` (R103). -/
def execAesr (s : State) : Host.Outcome State Fault Refusal :=
  command .aesr s fun s => s.setRes (aes s.opaSeen s.opbSeen)

/-- The half of a lane a selector bit of CLMUL names: 0 = `lo`, 1 = `hi` (30_encoding.md R72). -/
def selectHalf (sel : Bool) (x : Lane) : Half := if sel then hi x else lo x

/-- CLMUL: `RES <- clmul(a, b)` of the selected halves of `OPA` and `OPB` (R104). -/
def execClmul (sa sb : Bool) (s : State) : Host.Outcome State Fault Refusal :=
  command (.clmul sa sb) s fun s => s.setRes (clmul (selectHalf sa s.opaSeen) (selectHalf sb s.opbSeen))

/-- XOR: `RES <- OPA XOR OPB` (R105). -/
def execXor (s : State) : Host.Outcome State Fault Refusal := command .xor s fun s => s.setRes (s.opaSeen ^^^ s.opbSeen)

/-- ADD64: `RES <- add64(OPA, OPB)` (R106). -/
def execAdd64 (s : State) : Host.Outcome State Fault Refusal :=
  command .add64 s fun s => s.setRes (add64 s.opaSeen s.opbSeen)

end Sys2Proof.Machine
end

