-- ==== Sys2Proof/Machine/System.lean ====
section
/-!
DEFINITION. The housekeeping commands NOP, CLRERR, SRESET (46_system.md R195 to R197).
-/

namespace Sys2Proof.Machine

/-- NOP: no state changes (R195). -/
def execNop (s : State) : Host.Outcome State Fault Refusal := command .nop s id

/-- CLRERR: `ERR <- 0`, nothing else, whatever ERR holds (R196). -/
def execClrerr (s : State) : Host.Outcome State Fault Refusal := command .clrerr s State.clearErr

/-- SRESET: in every respect a hardware reset, whatever ERR holds (R197). -/
def execSreset (s : State) : Host.Outcome State Fault Refusal := command .sreset s State.resetEngine

end Sys2Proof.Machine
end

