-- ==== Sys2Proof/Machine/Dispatch.lean ====
section
/-!
DEFINITION. The meaning of each command: one arm per constructor of Instr, one definition per arm.
-/

namespace Sys2Proof.Machine

def exec (i : Instr) (s : State) : Host.Outcome State Fault Refusal :=
  match i with
  | .nop => Sys2Proof.Machine.execNop s
  | .clrerr => Sys2Proof.Machine.execClrerr s
  | .sreset => Sys2Proof.Machine.execSreset s
  | .subb => Sys2Proof.Machine.execSubb s
  | .shrow => Sys2Proof.Machine.execShrow s
  | .mixc => Sys2Proof.Machine.execMixc s
  | .aesr => Sys2Proof.Machine.execAesr s
  | .clmul sa sb => Sys2Proof.Machine.execClmul sa sb s
  | .xor => Sys2Proof.Machine.execXor s
  | .add64 => Sys2Proof.Machine.execAdd64 s
  | .short n => Sys2Proof.Machine.execShort n s
  | .init k => Sys2Proof.Machine.execInit k s
  | .compress => Sys2Proof.Machine.execCompress s
  | .tail n => Sys2Proof.Machine.execTail n s
  | .merge => Sys2Proof.Machine.execMerge s
  | .harden => Sys2Proof.Machine.execHarden s
  | .fblock => Sys2Proof.Machine.execFblock s
  | .rekey => Sys2Proof.Machine.execRekey s
  | .reduce => Sys2Proof.Machine.execReduce s
  | .final n => Sys2Proof.Machine.execFinal n s

end Sys2Proof.Machine
end

