-- ==== Sys2Proof/Machine/Step.lean ====
section
/-!
DEFINITION. One step of the machine: the next access of the host, performed to its end (20_memory.md R61,
70_reset_and_hazards.md R263). The engine fetches nothing (10_state.md R36): the 'fetch' is the host's next write of `CMD`.
-/

namespace Sys2Proof.Machine

/-- One access of the host; with none pending the engine waits and nothing changes (60_exceptions.md R252). A command that
the access starts runs to its end in the same step (R59, R263). -/
def step (s : State) : Host.Outcome State Fault Refusal :=
  match s.nextAccess with
  | none => .next s
  | some (x, t) =>
    match t.access x with
    | .run i => exec i t
    | .done u => .next u

/-- `s` with the write of the command word `w` to `CMD` as the host's next access: where the next step finds its
instruction (log 5). -/
def State.withFetchWord (s : State) (nbits w : Nat) : State :=
  { s with pending := .write 32 0x000 (BitVec.ofNat 32 (w % 2 ^ nbits)) :: s.pending }

end Sys2Proof.Machine
end

