-- ==== Sys2Proof/Safety.lean ====
section
/-!
DEFINITION. The terms claims about the machine use: what every step keeps, and in what sense two states agree.
-/

namespace Sys2Proof.Machine

/-- The canonical form of the state's storage: `MBUF` is in the canonical form of a memory, and the marks of unspecified
words are some of those of reset, in the same rising order. -/
def State.canonical (s : State) : Bool := Memory.wf s.mbuf && s.unspecified.isSublist unspecifiedAtReset

/-- No word of the window in `[a, b)` is marked unspecified. -/
def State.definedOn (s : State) (a b : Nat) : Prop := ∀ x ∈ s.unspecified, ¬ (a ≤ x ∧ x < b)

/-- A bulk hash is in progress: phases ABSORB to REKEYED (10_state.md R33). -/
def Phase.inProgress (p : Phase) : Bool :=
  match p with
  | .absorb | .tailed | .merged | .hardened | .committed | .rekeyed => true
  | .idle | .done => false

/-- The tail has been absorbed and the digest is still to come: phases TAILED to REKEYED (10_state.md R33). -/
def Phase.afterTail (p : Phase) : Bool :=
  match p with
  | .tailed | .merged | .hardened | .committed | .rekeyed => true
  | .idle | .absorb | .done => false

/-- 'Every kernel command writes what it later reads' (10_state.md R40): while a bulk hash is in progress every lane register
holds a defined value, from TAIL on `DPAD` does, and in DONE `DIGEST` does. -/
def State.writtenBeforeRead (s : State) : Prop :=
  (s.phase.inProgress = true → s.definedOn 0x400 0x600) ∧ (s.phase.afterTail = true → s.definedOn 0x100 0x140)
    ∧ (s.phase = .done → s.definedOn 0x060 0x080)

/-- A next state rewritten; any other outcome as it is. -/
def mapNext (f : State → State) : Host.Outcome State Fault Refusal → Host.Outcome State Fault Refusal
  | .next t => .next (f t)
  | .fault r => .fault r
  | .refused r => .refused r

/-- The state with another content of `KEY`, which the host cannot tell from it by reading (10_state.md R29). -/
def State.withKey (s : State) (k : BitVec 256) : State := { s with key := k }

/-- The marks of unspecified words that remain when the words of the window in `[a, b)` are written. -/
def State.marksOutside (s : State) (a b : Nat) : List Nat := s.unspecified.filter fun x => decide (x < a ∨ b ≤ x)

/-- Lane index `n` of the bulk state, for the index formulas of the spec. -/
def laneIx (n : Nat) : Fin 32 := Fin.ofNat 32 n

/-- Lane index `n` of a 4-lane state. -/
def quadIx (n : Nat) : Fin 4 := Fin.ofNat 4 n

/-- Multiplication in GF(2^8) modulo `x^8 + x^4 + x^3 + x + 1`, for the formula of R91. -/
def gfMul (a b : Byte) : Byte :=
  (List.range 8).foldl (fun acc i => if b.getLsbD i then acc ^^^ xtime^[i] a else acc) 0

/-- The affine map of R91. -/
def sboxAffine (v : Byte) : Byte :=
  v ^^^ v.rotateLeft 1 ^^^ v.rotateLeft 2 ^^^ v.rotateLeft 3 ^^^ v.rotateLeft 4 ^^^ 0x63

/-- A read of the host that is refused: not 32 bits wide or not aligned (20_memory.md R51), of `CMD` or `KEY`, or at a
reserved address (R52, R57). -/
def readRefused (width a : Nat) : Prop :=
  width ≠ 32 ∨ a % 4 ≠ 0 ∨ a < 0x004 ∨ (0x028 ≤ a ∧ a < 0x060) ∨ (0x0B0 ≤ a ∧ a < 0x100) ∨ (0x140 ≤ a ∧ a < 0x200)
    ∨ 0x600 ≤ a

/-- A write of the host that is refused: not 32 bits wide or not aligned (20_memory.md R51), of `STATUS`, `DIGEST` or `RES`,
or at a reserved address (R52, R57). -/
def writeRefused (width a : Nat) : Prop :=
  width ≠ 32 ∨ a % 4 ≠ 0 ∨ (0x004 ≤ a ∧ a < 0x008) ∨ (0x028 ≤ a ∧ a < 0x040) ∨ (0x060 ≤ a ∧ a < 0x080)
    ∨ (0x0A0 ≤ a ∧ a < 0x100) ∨ (0x140 ≤ a ∧ a < 0x200) ∨ 0x600 ≤ a

/-- The word that 20_memory.md R52 and R53 place at a word address of the window, written out from R52's table and not from
`registerMap`: the register's own word, write-only `KEY` included; 0 at `CMD` and at the reserved addresses. -/
def State.mapWord (s : State) (a : Nat) : Word :=
  if a < 0x004 then 0
  else if a < 0x008 then s.status
  else if a < 0x010 then wordOf s.domain ((a - 0x008) / 4)
  else if a < 0x018 then wordOf s.seed ((a - 0x010) / 4)
  else if a < 0x020 then wordOf s.len ((a - 0x018) / 4)
  else if a < 0x028 then wordOf s.blk ((a - 0x020) / 4)
  else if a < 0x040 then 0
  else if a < 0x060 then wordOf s.key ((a - 0x040) / 4)
  else if a < 0x080 then wordOf s.digest ((a - 0x060) / 4)
  else if a < 0x090 then wordOf s.opa ((a - 0x080) / 4)
  else if a < 0x0A0 then wordOf s.opb ((a - 0x090) / 4)
  else if a < 0x0B0 then wordOf s.res ((a - 0x0A0) / 4)
  else if a < 0x100 then 0
  else if a < 0x140 then wordOf s.dpad[quadIx ((a - 0x100) / 16)] ((a - 0x100) / 4 % 4)
  else if a < 0x200 then 0
  else if a < 0x400 then s.memRead (a - 0x200) 4
  else if a < 0x600 then wordOf s.acc[laneIx ((a - 0x400) / 16)] ((a - 0x400) / 4 % 4)
  else 0

/-- Byte `k` of `MBUF` has been written. -/
def State.mbufWritten (s : State) (k : Nat) : Prop := (Memory.find s.mbuf (0x200 + k)).isSome = true

/-- The word at window address `a` holds a defined value (10_state.md R40): it is not marked and, in `MBUF`, its four bytes have
been written. -/
def State.definedAt (s : State) (a : Nat) : Prop :=
  a ∉ s.unspecified ∧ (0x200 ≤ a → a < 0x400 → ∀ j, j < 4 → s.mbufWritten (a - 0x200 + j))

/-- The register words a write of the host takes the mark of `unspecified` off: those of `KEY`, `OPA`, `OPB`, `DPAD`, `ACC`. -/
def takesMarkOff (a : Nat) : Prop :=
  (0x040 ≤ a ∧ a < 0x060) ∨ (0x080 ≤ a ∧ a < 0x0A0) ∨ (0x100 ≤ a ∧ a < 0x140) ∨ (0x400 ≤ a ∧ a < 0x600)

/-- The host has written what 70_reset_and_hazards.md R262 asks of it before a command, of the storage that R39 leaves
unspecified: (a) to (d), (f); the key before an INIT with `k = 1` (b) and so, while the hash is keyed, before REKEY and FINAL. -/
def State.setUpFor (s : State) (i : Instr) : Prop :=
  match i with
  | .nop | .clrerr | .sreset | .merge | .harden | .fblock | .reduce => True
  | .subb | .shrow | .mixc => s.definedOn 0x080 0x090
  | .aesr | .clmul _ _ | .xor | .add64 => s.definedOn 0x080 0x0A0
  | .short n | .tail n => ∀ k, k < n → s.mbufWritten k
  | .init k => k = true → s.definedOn 0x040 0x060
  | .compress => ∀ k, k < 512 → s.mbufWritten k
  | .rekey => s.keyv = true → s.definedOn 0x040 0x060
  | .final n => (∀ k, k < n → s.mbufWritten k) ∧ (s.keyv = true → s.definedOn 0x040 0x060)

/-- The state in which the pending access after which `rest` remains is performed. -/
def State.performing (s : State) (rest : List HostAccess) : State := { s with pending := rest, draw := s.draw + 1 }

end Sys2Proof.Machine
end

