-- ==== Sys2Proof/Certificates/Slice0/Obligations.lean ====
section
/-!
DEFINITION. The statements for the provers. `Config.params` is opaque, so every statement about it holds of every
configuration; a statement that reads storage holds for every value of the free draws.
-/

open Sys2Proof Sys2Proof.Machine

/-! ## Encoding (30_encoding.md) -/

/-- Decode and encode agree: the word of every well-formed command decodes to that command (R70 to R73). -/
def Obligations.EveryCommandDecodesFromItsWord : Prop :=
  ∀ i : Instr, i.wf = true → decode (encode i) = .command i

/-- The other direction: a word that decodes is the word of the command it decodes to, so no bit of it is dropped. -/
def Obligations.EveryDecodedWordIsTheWordOfItsCommand : Prop :=
  ∀ (w : Word) (i : Instr), decode w = .command i → i.wf = true ∧ encode i = w

/-- Decoding is the `match`/`mask` table of R73, and is total (R75): a word is a command exactly when a row covers it, and
then it is that row's command. -/
def Obligations.DecodingFollowsTheOpcodeTable : Prop :=
  ∀ w : Word,
    (∀ i, decode w = .command i → ∃ r ∈ opcodeMap, r.covers w = true ∧ r.mnemonic = i.mnemonic)
      ∧ (∀ why, decode w = .illegal why → ∀ r ∈ opcodeMap, r.covers w = false)

/-- The rows of R73 do not overlap (R75). -/
def Obligations.NoWordHasTwoOpcodeRows : Prop :=
  opcodeMap.Pairwise fun a b => ∀ w : Word, ¬ (a.covers w = true ∧ b.covers w = true)

/-- Sanity: words written out from R73, R77 and the decoding vectors V90. -/
def Obligations.SampleWordsDecodeAsTheSpecSays : Prop :=
  decode 0x00000000 = .command .nop ∧ decode 0x00000002 = .command .sreset ∧ decode 0x00000013 = .command .aesr
    ∧ decode 0x00000214 = .command (.clmul false true) ∧ decode 0x003F0020 = .command (.short 63)
    ∧ decode 0x00000130 = .command (.init true) ∧ decode 0x00000031 = .command .compress
    ∧ decode 0x0058004F = .command (.final 88) ∧ decode 0x00000045 = .command .reduce
    ∧ decode 0x00010031 = .illegal .reservedBit ∧ decode 0x00000099 = .illegal .unassignedOp

/-! ## The step, refusals, the phase machine (30_encoding.md R76, R80; 60_exceptions.md) -/

/-- A step runs the decoded instruction: a pending write of a command word to `CMD` runs that command, in the state from
which the access is taken and in which it is counted. -/
def Obligations.StepRunsTheDecodedCommand : Prop :=
  ∀ (s : State) (rest : List HostAccess) (w : Word) (i : Instr),
    s.pending = .write 32 0x000 w :: rest → decode w = .command i → i.wf = true → step s = exec i (s.performing rest)

/-- A word that no row of R73 covers is refused with ILLEGAL and has no other effect; among them all words with an unassigned
opcode (R74). -/
def Obligations.IllegalWordsAreRefused : Prop :=
  (∀ (s : State) (rest : List HostAccess) (w : Word), s.pending = .write 32 0x000 w :: rest →
      (∀ r ∈ opcodeMap, r.covers w = false) →
      step s = .next { s.performing rest with err := if s.err = .none then .illegal else s.err })
    ∧ ∀ w : Word,
        (let op := (opField w).toNat
         (0x03 ≤ op ∧ op ≤ 0x0F) ∨ (0x17 ≤ op ∧ op ≤ 0x1F) ∨ (0x21 ≤ op ∧ op ≤ 0x2F) ∨ (0x32 ≤ op ∧ op ≤ 0x3F)
           ∨ (0x46 ≤ op ∧ op ≤ 0x4E) ∨ 0x50 ≤ op) →
        ∀ r ∈ opcodeMap, r.covers w = false

/-- The engine always answers: there is no trap and no stuck state (R240, 93_implementation_defined.md part 2). -/
def Obligations.EveryStepAnswersANextState : Prop := ∀ s : State, ∃ t, step s = .next t

/-- Gating while ERR is set, and what is not gated (R243). -/
def Obligations.ErrGatesEveryOtherCommand : Prop :=
  (∀ (i : Instr) (s : State), s.err ≠ .none → i ≠ .clrerr → i ≠ .sreset → exec i s = .next s)
    ∧ (∀ (s : State) (rest : List HostAccess) (w : Word) (why : Illegal), s.err ≠ .none →
        s.pending = .write 32 0x000 w :: rest → decode w = .illegal why → step s = .next (s.performing rest))
    ∧ (∀ (s : State) (width a : Nat) (e : ErrCode) (r : Reg) (k : Nat), readTarget width a = some (r, k) → r ≠ .status →
        ({ s with err := e } : State).hostRead width a = { s.hostRead width a with err := e })
    ∧ ∀ (s : State) (width a : Nat) (w : Word) (e : ErrCode) (r : Reg) (k : Nat), writeTarget width a = some (r, k) →
        r ≠ .cmd → ({ s with err := e } : State).hostWrite width a w = .done { s.writeReg r k w with err := e }

/-- A command outside its phases records STATE and changes nothing else, whatever its length immediate (R80, R241, R244). -/
def Obligations.WrongPhaseRaisesState : Prop :=
  ∀ (s : State) (n : Nat), s.err = .none →
    (s.phase ≠ .absorb → exec .compress s = .next { s with err := .state })
      ∧ (s.phase ≠ .absorb → exec (.tail n) s = .next { s with err := .state })
      ∧ (s.phase ≠ .absorb → exec (.final n) s = .next { s with err := .state })
      ∧ (s.phase ≠ .tailed → exec .merge s = .next { s with err := .state })
      ∧ (s.phase ≠ .merged → exec .harden s = .next { s with err := .state })
      ∧ (s.phase ≠ .hardened → exec .fblock s = .next { s with err := .state })
      ∧ (s.phase ≠ .committed → exec .rekey s = .next { s with err := .state })
      ∧ (s.phase ≠ .rekeyed → exec .reduce s = .next { s with err := .state })

/-- A length immediate outside its range records ARG and changes nothing else (R71, R241). -/
def Obligations.LengthOutOfRangeRaisesArg : Prop :=
  ∀ (s : State) (n : Nat), s.err = .none →
    (63 < n → exec (.short n) s = .next { s with err := .arg })
      ∧ (511 < n → s.phase = .absorb → exec (.tail n) s = .next { s with err := .arg })
      ∧ (511 < n → s.phase = .absorb → exec (.final n) s = .next { s with err := .arg })

/-- ERR keeps the first code: whatever the host does, it changes only to 0, and only by CLRERR, SRESET or a hardware reset
(R242). -/
def Obligations.ErrKeepsTheFirstCode : Prop :=
  ∀ s t : State, s.err ≠ .none → step s = .next t →
    t.err = s.err
      ∨ (t.err = .none
          ∧ ∃ x rest, s.pending = x :: rest
              ∧ (x = .reset
                  ∨ ∃ w, x = .write 32 0x000 w ∧ (decode w = .command .clrerr ∨ decode w = .command .sreset)))

/-- The phase machine: a step that changes PHASE is a reset or a command of R80, along that command's row. -/
def Obligations.PhaseMovesOnlyByItsCommands : Prop :=
  ∀ s t : State, step s = .next t → t.phase ≠ s.phase →
    ∃ x rest, s.pending = x :: rest
      ∧ ((x = .reset ∧ t.phase = .idle)
          ∨ ∃ w i, x = .write 32 0x000 w ∧ decode w = .command i
              ∧ ((i = .sreset ∧ t.phase = .idle) ∨ ((∃ n, i = .short n ∧ n ≤ 63) ∧ t.phase = .done)
                  ∨ ((∃ k, i = .init k) ∧ t.phase = .absorb)
                  ∨ ((∃ n, i = .tail n ∧ n ≤ 511) ∧ s.phase = .absorb ∧ t.phase = .tailed)
                  ∨ (i = .merge ∧ s.phase = .tailed ∧ t.phase = .merged)
                  ∨ (i = .harden ∧ s.phase = .merged ∧ t.phase = .hardened)
                  ∨ (i = .fblock ∧ s.phase = .hardened ∧ t.phase = .committed)
                  ∨ (i = .rekey ∧ s.phase = .committed ∧ t.phase = .rekeyed)
                  ∨ (i = .reduce ∧ s.phase = .rekeyed ∧ t.phase = .done)
                  ∨ ((∃ n, i = .final n ∧ n ≤ 511) ∧ s.phase = .absorb ∧ t.phase = .done)))

/-! ## Housekeeping commands (46_system.md) -/

/-- NOP changes no state, whatever ERR holds (R195). -/
def Obligations.NopChangesNothing : Prop := (∀ s : State, exec .nop s = .next s) ∧ encode .nop = 0x00000000

/-- CLRERR clears ERR in every state and changes nothing else (R196). -/
def Obligations.ClrerrClearsErrOnly : Prop :=
  (∀ s : State, exec .clrerr s = .next { s with err := .none }) ∧ encode .clrerr = 0x00000001
    ∧ ∀ s : State, s.err = .none → exec .clrerr s = .next s

/-- SRESET leaves, in every state, what R39 says: the control state at 0, all data storage unspecified; and a hardware reset
leaves the same (R197, R260). What 'unspecified' is in the model: every word of it is marked, no byte of MBUF is listed (log 1,
log 3); that the model's own `pending`, `draw` and `rdata` stay is the model's choice (log 9). -/
def Obligations.SresetIsAHardwareReset : Prop :=
  (∀ s : State, ∃ t, exec .sreset s = .next t ∧ t.phase = .idle ∧ t.err = .none ∧ t.keyv = false ∧ t.domain = 0 ∧ t.seed = 0
      ∧ t.len = 0 ∧ t.blk = 0 ∧ t.status = 0 ∧ t.mbuf = [] ∧ t.unspecified = unspecifiedAtReset
      ∧ t.pending = s.pending ∧ t.draw = s.draw ∧ t.rdata = s.rdata)
    ∧ ∀ (s : State) (rest : List HostAccess), s.pending = .reset :: rest → step s = exec .sreset (s.performing rest)

/-! ## The datapath (40_lane_primitives.md R90 to R99) -/

/-- SubBytes is the S-box byte by byte (R90), and the S-box is the affine map of the inverse in GF(2^8) (R91). -/
def Obligations.SubBytesIsTheAesSbox : Prop :=
  (∀ (x : Lane) (n : Nat), n < 16 → byte (subBytes x) n = sbox (byte x n))
    ∧ sbox 0 = sboxAffine 0
    ∧ ∀ a : Byte, a ≠ 0 → ∃ v : Byte, gfMul a v = 1 ∧ sbox a = sboxAffine v

/-- ShiftRows moves bytes by R92. -/
def Obligations.ShiftRowsRotatesRowsLeft : Prop :=
  ∀ (x : Lane) (c r : Nat), c < 4 → r < 4 → byte (shiftRows x) (4 * c + r) = byte x (4 * ((c + r) % 4) + r)

/-- MixColumns is the matrix of R93 on every column, with products in GF(2^8). -/
def Obligations.MixColumnsIsTheAesMatrix : Prop :=
  (∀ a : Byte, xtime a = (a <<< 1) ^^^ (if a.getLsbD 7 = true then 0x1B else 0))
    ∧ ∀ (x : Lane) (c : Nat), c < 4 →
        let a := fun r => byte x (4 * c + r)
        byte (mixColumns x) (4 * c) = xtime (a 0) ^^^ (xtime (a 1) ^^^ a 1) ^^^ a 2 ^^^ a 3
          ∧ byte (mixColumns x) (4 * c + 1) = a 0 ^^^ xtime (a 1) ^^^ (xtime (a 2) ^^^ a 2) ^^^ a 3
          ∧ byte (mixColumns x) (4 * c + 2) = a 0 ^^^ a 1 ^^^ xtime (a 2) ^^^ (xtime (a 3) ^^^ a 3)
          ∧ byte (mixColumns x) (4 * c + 3) = (xtime (a 0) ^^^ a 0) ^^^ a 1 ^^^ a 2 ^^^ xtime (a 3)

/-- The carry-less product, bit by bit, with the corner cases and the example of R95. -/
def Obligations.ClmulIsThePolynomialProduct : Prop :=
  (∀ (a b : Half) (t : Nat), t < 128 →
      (clmul a b).getLsbD t
        = ((List.range 64).map fun i => decide (i ≤ t) && a.getLsbD i && b.getLsbD (t - i)).foldl Bool.xor false)
    ∧ (∀ a : Half, clmul a 0 = 0) ∧ (∀ b : Half, clmul 0 b = 0) ∧ (∀ b : Half, clmul 1 b = b.setWidth 128)
    ∧ (∀ a b : Half, (clmul a b).getLsbD 127 = false) ∧ (∀ a b : Half, clmul a b = clmul b a)
    ∧ clmul 0x8000000000000000 0x8000000000000000 = 0x40000000000000000000000000000000 ∧ clmul 3 3 = 5

/-- The adder works on the two halves apart, is commutative and associative, and wraps as in the example of R96. -/
def Obligations.AddsHalvesWithoutCarry : Prop :=
  (∀ x y : Lane, (lo (add64 x y)).toNat = ((lo x).toNat + (lo y).toNat) % 2 ^ 64
      ∧ (hi (add64 x y)).toNat = ((hi x).toNat + (hi y).toNat) % 2 ^ 64)
    ∧ (∀ x y : Lane, add64 x y = add64 y x) ∧ (∀ x y z : Lane, add64 (add64 x y) z = add64 x (add64 y z))
    ∧ add64 (pair 0xFFFFFFFFFFFFFFFF 1) (pair 1 0xFFFFFFFFFFFFFFFF) = pair 0 0

/-- The padded block of R99: the bytes, the sentinel after the last one, zeros. -/
def Obligations.PaddingPutsTheSentinelAfterTheMessage : Prop :=
  ∀ (bs : List Byte) (i : Fin 4) (j : Nat), bs.length ≤ 63 → j < 16 →
    byte (pad64 bs)[i] j
      = if 16 * i.val + j < bs.length then bs.getD (16 * i.val + j) 0
        else if 16 * i.val + j = bs.length then 0x80 else 0x00

/-! ## The lane primitives (R100 to R106)

Each writes RES and the mark that RES holds a defined value; the record update says that nothing else changes. -/

/-- SUBB (R100), with its corner case and example. -/
def Obligations.SubbWritesSubBytesOfOpa : Prop :=
  (∀ s : State, s.err = .none →
      exec .subb s = .next { s with res := subBytes s.opaSeen, unspecified := s.marksOutside 0x0A0 0x0B0 })
    ∧ subBytes 0 = 0x63636363636363636363636363636363
    ∧ subBytes 0x0F0E0D0C0B0A09080706050403020100 = 0x76ABD7FE2B670130C56F6BF27B777C63

/-- SHROW (R101), with its corner case and example. -/
def Obligations.ShrowWritesShiftRowsOfOpa : Prop :=
  (∀ s : State, s.err = .none →
      exec .shrow s = .next { s with res := shiftRows s.opaSeen, unspecified := s.marksOutside 0x0A0 0x0B0 })
    ∧ (∀ x : Lane, (∀ n, n < 16 → byte x n = byte x 0) → shiftRows x = x)
    ∧ shiftRows 0x0F0E0D0C0B0A09080706050403020100 = 0x0B06010C07020D08030E09040F0A0500

/-- MIXC (R102), with its corner cases and example. -/
def Obligations.MixcWritesMixColumnsOfOpa : Prop :=
  (∀ s : State, s.err = .none →
      exec .mixc s = .next { s with res := mixColumns s.opaSeen, unspecified := s.marksOutside 0x0A0 0x0B0 })
    ∧ mixColumns 0 = 0
    ∧ (∀ (x : Lane) (c : Nat), c < 4 → (∀ r, r < 4 → byte x (4 * c + r) = byte x (4 * c)) →
        ∀ r, r < 4 → byte (mixColumns x) (4 * c + r) = byte x (4 * c + r))
    ∧ mixColumns 0x000000000000000000000000455313DB = 0x000000000000000000000000BCA14D8E

/-- AESR (R103) computes the AES round (R94), with their corner case and example. -/
def Obligations.AesrWritesTheAesRound : Prop :=
  (∀ s : State, s.err = .none →
      exec .aesr s
        = .next { s with
                    res := mixColumns (shiftRows (subBytes s.opaSeen)) ^^^ s.opbSeen
                    unspecified := s.marksOutside 0x0A0 0x0B0 })
    ∧ aes 0 0 = 0x63636363636363636363636363636363
    ∧ aes 0x7B5B54657374566563746F725D53475D 0x48692853686179295B477565726F6E5D = 0xA8311C2F9FDBA3C58B104B58DED7E595

/-- CLMUL (R104): the halves the selectors name, with its corner cases (those of R95) and example. -/
def Obligations.ClmulWritesTheSelectedProduct : Prop :=
  (∀ (s : State) (sa sb : Bool), s.err = .none →
      exec (.clmul sa sb) s
        = .next { s with
                    res := clmul (if sa = true then hi s.opaSeen else lo s.opaSeen)
                      (if sb = true then hi s.opbSeen else lo s.opbSeen)
                    unspecified := s.marksOutside 0x0A0 0x0B0 })
    ∧ (∀ v : Half, clmul 0 v = 0 ∧ clmul v 0 = 0 ∧ clmul 1 v = v.setWidth 128)
    ∧ (∀ a b : Half, (clmul a b).getLsbD 127 = false ∧ clmul a b = clmul b a)
    ∧ clmul 0x8000000000000000 0x8000000000000000 = 0x40000000000000000000000000000000
    ∧ clmul 0xDEADBEEFCAFEBABE 0x0123456789ABCDEF = 0x00C42FDE8B6B5592F099825FE2AF618A

/-- XOR (R105). -/
def Obligations.XorWritesTheBitwiseXor : Prop :=
  (∀ s : State, s.err = .none →
      exec .xor s = .next { s with res := s.opaSeen ^^^ s.opbSeen, unspecified := s.marksOutside 0x0A0 0x0B0 })
    ∧ ∀ s : State, s.err = .none → s.opaSeen = s.opbSeen →
        exec .xor s = .next { s with res := 0, unspecified := s.marksOutside 0x0A0 0x0B0 }

/-- ADD64 (R106), with its corner case. -/
def Obligations.Add64WritesTheLanewiseSum : Prop :=
  (∀ s : State, s.err = .none →
      exec .add64 s
        = .next { s with
                    res := pair (lo s.opaSeen + lo s.opbSeen) (hi s.opaSeen + hi s.opbSeen)
                    unspecified := s.marksOutside 0x0A0 0x0B0 })
    ∧ add64 (pair 0x8000000000000000 0x7FFFFFFFFFFFFFFF) (pair 0x8000000000000000 1) = pair 0 0x8000000000000000

/-! ## The short kernel (41_short_kernel.md) -/

/-- SHORT n, in any phase: ACC[0..3] and DIGEST from the message bytes, the length and DOMAIN; every other lane register and
field stays (R120, R125). -/
def Obligations.ShortHashesTheMessage : Prop :=
  ∀ (s : State) (n : Nat), s.err = .none → n ≤ 63 →
    ∃ t, exec (.short n) s = .next t
      ∧ (let x := shortState Config.params (s.mbufBytes 0 n) (BitVec.ofNat 64 n) s.domain
         (∀ i, i < 4 → t.acc[laneIx i] = x[quadIx i]) ∧ t.digest = reduceLanes Config.params x)
      ∧ (∀ i, 4 ≤ i → i < 32 → t.acc[laneIx i] = s.acc[laneIx i])
      ∧ (∀ a, a ∈ t.unspecified ↔ a ∈ s.unspecified ∧ ¬ (0x400 ≤ a ∧ a < 0x440) ∧ ¬ (0x060 ≤ a ∧ a < 0x080))
      ∧ t = { s with acc := t.acc, digest := t.digest, phase := .done, unspecified := t.unspecified }

/-- The short kernel's steps 1 to 5, lane by lane: the frozen table, metadata and whitened padded data XORed in (R121, R123),
ten rounds of AES, feed forward on odd rounds and rotation (R124), and the XOR of the state after step 3 (R125). -/
def Obligations.ShortKernelFollowsItsSteps : Prop :=
  ∀ (cfg : Params) (msg : List Byte) (len dom : Half),
    let d : Quad := Vector.ofFn fun i => aes (pad64 msg)[i] (pair cfg.w0 cfg.w1)
    let m : Quad := #v[pair (dom ^^^ len) cfg.phi, pair len dom, pair cfg.phi len, pair dom cfg.phi]
    let save : Quad := Vector.ofFn fun i => cfg.shortInit[i] ^^^ m[i] ^^^ d[i]
    let round := quadRound cfg (Vector.ofFn fun i : Fin 4 => cfg.laneOffset[laneIx i])
    let out := round (round (round (round (round (round (round (round (round (round (save, d) 0) 1) 2) 3) 4) 5) 6) 7) 8) 9
    (∀ i, i < 4 → (shortState cfg msg len dom)[quadIx i] = out.1[quadIx i] ^^^ save[quadIx i])
      ∧ ∀ (off : Vector Half 4) (acc e : Quad) (r : Fin 10) (i : Nat), i < 4 →
          let next := fun j => aes acc[quadIx j] (add64 (add64 e[quadIx j] cfg.rk[r]) (pair off[quadIx j] off[quadIx j]))
          (quadRound cfg off (acc, e) r).1[quadIx i] = next ((i + 1) % 4)
            ∧ (quadRound cfg off (acc, e) r).2[quadIx i]
                = if r.val % 2 = 1 then e[quadIx i] ^^^ next ((i + 1) % 4) else e[quadIx i]

/-- SHORT depends on nothing but ERR, DOMAIN and the message bytes (R120, vector V49). -/
def Obligations.ShortIgnoresAllOtherState : Prop :=
  ∀ (s u : State) (n : Nat), s.err = .none → u.err = .none → n ≤ 63 → s.domain = u.domain →
    (∀ j, j < n → s.mbufByte j = u.mbufByte j) →
    ∃ t v, exec (.short n) s = .next t ∧ exec (.short n) u = .next v ∧ t.digest = v.digest
      ∧ ∀ i, i < 4 → t.acc[laneIx i] = v.acc[laneIx i]

/-! ## Bulk initialisation (42_bulk_init.md) -/

/-- INIT k, in any phase: every lane register by the fill, the seed and, when `k = 1`, the key (R136 to R138), the counters
and KEYV (R139), and nothing else (R135). -/
def Obligations.InitFillsSeedsAndKeysEveryLane : Prop :=
  ∀ (s : State) (k : Bool), s.err = .none →
    ∃ t, exec (.init k) s = .next t
      ∧ (∀ g e, (hg : g < 8) → (he : e < 4) →
          let p := Config.params
          let base := p.c[g]
          let seed := if s.seed ≠ 0 then s.seed else p.c[5]
          let filled := pair (base + BitVec.ofNat 64 (2 * e)) (base + BitVec.ofNat 64 (2 * e + 1))
          let seeded := aes filled (pair seed seed)
          let keys : Quad := #v[s.k0Seen, s.k1Seen, s.k0Seen ^^^ pair p.phi p.phi, s.k1Seen ^^^ pair p.phi p.phi]
          let off := p.laneOffset[laneIx g]
          t.acc[laneIx (4 * g + e)]
            = if k = true then aes (aes seeded (add64 keys[e] (pair off off))) keys[e] else seeded)
      ∧ (∀ a, a ∈ t.unspecified ↔ a ∈ s.unspecified ∧ ¬ (0x400 ≤ a ∧ a < 0x600))
      ∧ t = { s with acc := t.acc, keyv := k, len := 0, blk := 0, phase := .absorb, unspecified := t.unspecified }

/-- With `k = 0`, and in an unkeyed hash, the content of KEY has no effect on anything: two states that differ in KEY alone
go on differing in KEY alone (R140 (d), R175). -/
def Obligations.KeyHasNoEffectOnAnUnkeyedHash : Prop :=
  ∀ (i : Instr) (s : State) (k : BitVec 256), s.keyv = false → i ≠ .init true → i ≠ .sreset →
    exec i (s.withKey k) = mapNext (fun t => t.withKey k) (exec i s)

/-! ## Bulk compression (43_bulk_compress.md) -/

/-- COMPRESS in ABSORB: every lane register by steps 1 to 6 (R146 to R153) and the counters (R154), and nothing else
(R145). The rounds and the moves of lanes are spelled out in the next two statements. -/
def Obligations.CompressAbsorbsOneBlock : Prop :=
  ∀ s : State, s.err = .none → s.phase = .absorb →
    ∃ t, exec .compress s = .next t
      ∧ (let p := Config.params
         let d : Bulk := Vector.ofFn fun i => aes (s.memRead (16 * i) 16) (pair p.w0 p.w1)
         let one := bulkRound p 0 s.blk
         let two := bulkRound p 4 s.blk
         let mid := one (one (one (one (one (s.accSeen, d) 0) 1) 2) 3) 4
         let out := two (two (two (two (two (butterflyPairs (butterflyHalves (rotateElems mid.1)), mid.2) 5) 6) 7) 8) 9
         ∀ i, i < 32 → t.acc[laneIx i] = (rotateElems out.1)[laneIx i] ^^^ s.accSeen[laneIx i])
      ∧ (∀ a, a ∈ t.unspecified ↔ a ∈ s.unspecified ∧ ¬ (0x400 ≤ a ∧ a < 0x600))
      ∧ t = { s with acc := t.acc, blk := s.blk + 1, len := s.len + 512, unspecified := t.unspecified }

/-- One round of either phase, lane by lane: AES with the data word `shift` lane groups on, the feedback of stride 3, the
lane rotation (R148, R152). -/
def Obligations.BulkRoundFollowsItsSubsteps : Prop :=
  ∀ (cfg : Params) (shift : Fin 8) (b : Half) (acc d : Bulk) (r : Fin 10) (g e : Nat), g < 8 → e < 4 →
    let next := fun (g e : Nat) =>
      let off := cfg.laneOffset[laneIx (4 * g + e)]
      aes acc[laneIx (4 * g + e)]
        (add64 (add64 (add64 d[laneIx (4 * ((g + shift.val) % 8) + e)] cfg.rk[r]) (pair off off)) (pair b b))
    (bulkRound cfg shift b (acc, d) r).1[laneIx (4 * g + e)] = next ((g + 1) % 8) e
      ∧ (bulkRound cfg shift b (acc, d) r).2[laneIx (4 * g + e)] = d[laneIx (4 * g + e)] ^^^ next ((g + 3) % 8) e

/-- The element rotation (R149) and the two butterflies (R150, R151), lane by lane. -/
def Obligations.BulkMixingFollowsItsFormulas : Prop :=
  ∀ (acc : Bulk) (e : Nat), e < 4 →
    (∀ g, g < 8 → (rotateElems acc)[laneIx (4 * g + e)] = acc[laneIx (4 * g + (e + 1) % 4)])
      ∧ (∀ i, i < 4 →
          (butterflyHalves acc)[laneIx (4 * i + e)] = acc[laneIx (4 * i + e)] ^^^ acc[laneIx (4 * (i + 4) + e)]
            ∧ (butterflyHalves acc)[laneIx (4 * (i + 4) + e)]
                = add64 acc[laneIx (4 * (i + 4) + e)] acc[laneIx (4 * i + e)])
      ∧ ∀ p q, (p, q) ∈ [(0, 2), (1, 3), (4, 6), (5, 7)] →
          (butterflyPairs acc)[laneIx (4 * p + e)] = acc[laneIx (4 * p + e)] ^^^ acc[laneIx (4 * q + e)]
            ∧ (butterflyPairs acc)[laneIx (4 * q + e)] = add64 acc[laneIx (4 * q + e)] acc[laneIx (4 * p + e)]

/-- Purity (R155): what COMPRESS does to the lane registers and the block index is a function of the lane registers, the block
and the block index; two states that agree on these may differ in everything else (DOMAIN, SEED, KEY, KEYV, LEN, DPAD, ...). -/
def Obligations.CompressReadsOnlyLanesBlockAndIndex : Prop :=
  ∀ s u : State, s.err = .none → u.err = .none → s.phase = .absorb → u.phase = .absorb → s.accSeen = u.accSeen →
    (∀ k, k < 512 → s.mbufByte k = u.mbufByte k) → s.blk = u.blk →
    ∃ t v, exec .compress s = .next t ∧ exec .compress u = .next v ∧ t.acc = v.acc ∧ t.blk = v.blk

/-! ## Finalisation (44_finalize.md, 45_reduce.md) -/

/-- TAIL n in ABSORB: each full chunk goes into its four lane registers (R161 to R163), the rest is padded and whitened into
DPAD and LEN counts `n` (R164); every other lane register and field stays (R160). -/
def Obligations.TailAbsorbsChunksAndPadsTheRest : Prop :=
  ∀ (s : State) (n : Nat), s.err = .none → s.phase = .absorb → n ≤ 511 →
    ∃ t, exec (.tail n) s = .next t
      ∧ (let p := Config.params
         (∀ c i, c < n / 64 → i < 4 →
            let d : Quad := Vector.ofFn fun j => aes (s.memRead (64 * c + 16 * j) 16) (pair p.w0 p.w1)
            let acc : Quad := Vector.ofFn fun j => s.accSeen[laneIx (4 * c + j)]
            let off : Vector Half 4 := Vector.ofFn fun j => p.laneOffset[laneIx (4 * c + j)]
            t.acc[laneIx (4 * c + i)] = (tenRounds.foldl (quadRound p off) (acc, d)).1[quadIx i] ^^^ acc[quadIx i])
          ∧ (∀ i : Fin 4, t.dpad[i] = aes (pad64 (s.mbufBytes (64 * (n / 64)) (n % 64)))[i] (pair p.w0 p.w1)))
      ∧ (∀ i, 4 * (n / 64) ≤ i → i < 32 → t.acc[laneIx i] = s.acc[laneIx i])
      ∧ (∀ a, a ∈ t.unspecified
          ↔ a ∈ s.unspecified ∧ ¬ (0x400 ≤ a ∧ a < 0x400 + 64 * (n / 64)) ∧ ¬ (0x100 ≤ a ∧ a < 0x140))
      ∧ t = { s with acc := t.acc, dpad := t.dpad, len := s.len + BitVec.ofNat 64 n, phase := .tailed,
                     unspecified := t.unspecified }

/-- MERGE in TAILED: the three levels of the tree-merge, with the registers that do not survive a level keeping their values
(R165, R166). -/
def Obligations.MergeFoldsThirtyTwoLanesToFour : Prop :=
  ∀ s : State, s.err = .none → s.phase = .tailed →
    ∃ t, exec .merge s = .next t
      ∧ (let p := Config.params
         let fold := fun (m : Half) (x y : Lane) => aes (aes x (y ^^^ pair m m)) (aes x (y ^^^ pair m m) ^^^ pair m m)
         let one := fun i => fold p.c[5] s.accSeen[laneIx i] s.accSeen[laneIx (i + 16)]
         let two := fun i => fold p.c[6] (one i) (one (i + 8))
         let three := fun i => fold p.c[7] (two i) (two (i + 4))
         (∀ i, i < 4 → t.acc[laneIx i] = three i) ∧ (∀ i, 4 ≤ i → i < 8 → t.acc[laneIx i] = two i)
          ∧ (∀ i, 8 ≤ i → i < 16 → t.acc[laneIx i] = one i))
      ∧ (∀ i, 16 ≤ i → i < 32 → t.acc[laneIx i] = s.acc[laneIx i])
      ∧ (∀ a, a ∈ t.unspecified ↔ a ∈ s.unspecified ∧ ¬ (0x400 ≤ a ∧ a < 0x500))
      ∧ t = { s with acc := t.acc, phase := .merged, unspecified := t.unspecified }

/-- HARDEN in MERGED: the CLMUL hardening of ACC[0..3], with the worked example (R167, R168). -/
def Obligations.HardenMixesFourLanesWithClmul : Prop :=
  (∀ s : State, s.err = .none → s.phase = .merged →
    ∃ t, exec .harden s = .next t
      ∧ (∀ i, i < 4 →
          let x := s.accSeen[laneIx i]
          let cl1 := clmul (lo x) Config.params.k1 ^^^ clmul (hi x) Config.params.k2
          let mid := aes x cl1
          let cl2 := clmul (lo mid) (hi mid)
          t.acc[laneIx i] = aes x (cl1 ^^^ cl2))
      ∧ (∀ i, 4 ≤ i → i < 32 → t.acc[laneIx i] = s.acc[laneIx i])
      ∧ (∀ a, a ∈ t.unspecified ↔ a ∈ s.unspecified ∧ ¬ (0x400 ≤ a ∧ a < 0x440))
      ∧ t = { s with acc := t.acc, phase := .hardened, unspecified := t.unspecified })
    ∧ ∀ cfg : Params, cfg.k1 = 0x87 → cfg.k2 = 0xC200000000000001 →
        clmul (lo 1) cfg.k1 ^^^ clmul (hi 1) cfg.k2 = 0x87 ∧ aes 1 0x87 = 0x636363636363636363636363427C7CDA
          ∧ clmul 0x63636363427C7CDA 0x6363636363636363 = 0x14051405180E1A3288998899849286AE
          ∧ hardenLane cfg 1 = 0x776677667B6D7951EBFAEBFAC6EEFA74

/-- FBLOCK in HARDENED: the save before the metadata and the data go in, ten rounds, the feed-forward of the save (R169 to
R173); DPAD is worked on in a copy. -/
def Obligations.FblockCommitsLengthAndDomain : Prop :=
  ∀ s : State, s.err = .none → s.phase = .hardened →
    ∃ t, exec .fblock s = .next t
      ∧ (let p := Config.params
         let acc : Quad := Vector.ofFn fun i => s.accSeen[laneIx i]
         let m : Quad := #v[pair (s.domain ^^^ s.len) p.phi, pair s.len s.domain, pair p.phi s.len, pair s.domain p.phi]
         let start : Quad := Vector.ofFn fun i => acc[i] ^^^ m[i] ^^^ s.dpadSeen[i]
         let round := finalRound p
         let out :=
           round (round (round (round (round (round (round (round (round (round (start, s.dpadSeen) 0) 1) 2) 3) 4) 5) 6) 7) 8) 9
         ∀ i, i < 4 → t.acc[laneIx i] = out.1[quadIx i] ^^^ acc[quadIx i])
      ∧ (∀ i, 4 ≤ i → i < 32 → t.acc[laneIx i] = s.acc[laneIx i])
      ∧ (∀ a, a ∈ t.unspecified ↔ a ∈ s.unspecified ∧ ¬ (0x400 ≤ a ∧ a < 0x440))
      ∧ t = { s with acc := t.acc, phase := .committed, unspecified := t.unspecified }

/-- One round of the final block, lane by lane: AES without lane offset, the rotation, then on odd rounds the feed-forward,
which is the cross pattern of the short kernel on the lanes before the rotation (R172, 90_conflicts.md C3). -/
def Obligations.FinalRoundFollowsItsSubsteps : Prop :=
  ∀ (cfg : Params) (acc d : Quad) (r : Fin 10) (i : Nat), i < 4 →
    let next := fun j => aes acc[quadIx j] (add64 d[quadIx j] cfg.rk[r])
    (finalRound cfg (acc, d) r).1[quadIx i] = next ((i + 1) % 4)
      ∧ (finalRound cfg (acc, d) r).2[quadIx i]
          = if r.val % 2 = 1 then d[quadIx i] ^^^ (finalRound cfg (acc, d) r).1[quadIx i] else d[quadIx i]

/-- REKEY in COMMITTED: with KEYV = 0 only the phase advances; with KEYV = 1 each of the four lanes goes through four AES
rounds under its column of the patterns of R175 (R174). -/
def Obligations.RekeyFiresExactlyWhenKeyed : Prop :=
  ∀ s : State, s.err = .none → s.phase = .committed →
    (s.keyv = false → exec .rekey s = .next { s with phase := .rekeyed })
      ∧ (s.keyv = true →
          ∃ t, exec .rekey s = .next t
            ∧ (let k0 := s.k0Seen
               let k1 := s.k1Seen
               t.acc[laneIx 0] = aes (aes (aes (aes s.accSeen[laneIx 0] k0) k1) k0) k0
                ∧ t.acc[laneIx 1] = aes (aes (aes (aes s.accSeen[laneIx 1] k1) k0) k1) k0
                ∧ t.acc[laneIx 2] = aes (aes (aes (aes s.accSeen[laneIx 2] k1) k0) k0) k1
                ∧ t.acc[laneIx 3] = aes (aes (aes (aes s.accSeen[laneIx 3] k0) k1) k1) k1)
            ∧ (∀ i, 4 ≤ i → i < 32 → t.acc[laneIx i] = s.acc[laneIx i])
            ∧ (∀ a, a ∈ t.unspecified ↔ a ∈ s.unspecified ∧ ¬ (0x400 ≤ a ∧ a < 0x440))
            ∧ t = { s with acc := t.acc, phase := .rekeyed, unspecified := t.unspecified })

/-- REDUCE in REKEYED: the five rounds, lane by lane, and the digest from the first two lanes (R185 to R191). -/
def Obligations.ReduceWritesTheDigest : Prop :=
  ∀ s : State, s.err = .none → s.phase = .rekeyed →
    ∃ t, exec .reduce s = .next t
      ∧ (let p := Config.params
         let x := fun i => s.accSeen[laneIx i]
         let bias : Quad := #v[0, pair p.c[7] p.c[7], pair p.c[6] p.c[6], pair p.c[5] p.c[5]]
         let a := fun i => aes (x i) (x i)
         let b := fun i => aes (a i) (a ((i + 2) % 4))
         let c := fun i => aes (b i) (b (Nat.xor i 1) ^^^ bias[quadIx i])
         let fd := fun i => aes (c i) (c ((i + 2) % 4))
         let e := fun i => aes (fd i) (fd (Nat.xor i 1) ^^^ bias[quadIx i])
         t.digest.extractLsb' 0 128 = e 0 ∧ t.digest.extractLsb' 128 128 = e 1)
      ∧ t = { s with digest := t.digest, phase := .done, unspecified := s.marksOutside 0x060 0x080 }

/-- FINAL n is the six stages performed in order with nothing between them, and a refused FINAL records its code and has none of
their effects (R177, R178). -/
def Obligations.FinalIsTheSixStagesInOrder : Prop :=
  (∀ (s : State) (n : Nat), s.err = .none → s.phase = .absorb → n ≤ 511 →
      ∃ t₁ t₂ t₃ t₄ t₅ t₆, exec (.tail n) s = .next t₁ ∧ exec .merge t₁ = .next t₂ ∧ exec .harden t₂ = .next t₃
        ∧ exec .fblock t₃ = .next t₄ ∧ exec .rekey t₄ = .next t₅ ∧ exec .reduce t₅ = .next t₆
        ∧ exec (.final n) s = .next t₆ ∧ t₆.phase = .done)
    ∧ ∀ (s : State) (n : Nat), s.phase ≠ .absorb ∨ 511 < n →
        exec (.final n) s
          = .next { s with
                      err := if s.err ≠ .none then s.err else if s.phase ≠ .absorb then .state else .arg }

/-! ## The window (20_memory.md) -/

/-- Which accesses are refused, and with what: a refused read returns 0, a refused write changes nothing, both record BUS; an
access that is not refused never raises an error by itself (R51, R57, R58). A read that is not refused changes nothing but the
word returned, which is, wherever that word holds a defined value (in the model's form of R40: log 1), the one that R52 and R53
place at the address (R60); what it is elsewhere stands in UnwrittenStorageReadsAsAFreeDraw. -/
def Obligations.RefusedAccessesRecordBus : Prop :=
  ∀ (s : State) (rest : List HostAccess) (width : Nat) (a : BitVec 12) (w : Word),
    (s.pending = .read width a :: rest → readRefused width a.toNat →
        step s = .next { s.performing rest with rdata := 0, err := if s.err = .none then .bus else s.err })
      ∧ (s.pending = .read width a :: rest → ¬ readRefused width a.toNat →
          ∃ v, step s = .next { s.performing rest with rdata := v } ∧ (s.definedAt a.toNat → v = s.mapWord a.toNat))
      ∧ (s.pending = .write width a w :: rest → writeRefused width a.toNat →
          step s = .next { s.performing rest with err := if s.err = .none then .bus else s.err })
      ∧ (s.pending = .write width a w :: rest → ¬ writeRefused width a.toNat → a ≠ 0x000 →
          ∃ t, step s = .next t ∧ t.err = s.err)

/-- A read of a word that nothing has written is the free draw of the access, each byte of `MBUF` by itself (R40). That the draw is
`Config.freeByte` at the number of the access and the byte's address is the model's choice (log 2). -/
def Obligations.UnwrittenStorageReadsAsAFreeDraw : Prop :=
  ∀ (s : State) (rest : List HostAccess) (a : BitVec 12), s.pending = .read 32 a :: rest → ¬ readRefused 32 a.toNat →
    ∃ v, step s = .next { s.performing rest with rdata := v }
      ∧ ((0x060 ≤ a.toNat ∧ a.toNat < 0x200) ∨ 0x400 ≤ a.toNat → a.toNat ∈ s.unspecified →
          ∀ j, j < 4 → v.extractLsb' (8 * j) 8 = Config.freeByte (s.draw + 1) (a.toNat + j))
      ∧ (0x200 ≤ a.toNat → a.toNat < 0x400 → ∀ j, j < 4 → ¬ s.mbufWritten (a.toNat - 0x200 + j) →
          v.extractLsb' (8 * j) 8 = Config.freeByte (s.draw + 1) (a.toNat + j))

/-- Stored words. As transactions: a write that is not refused and not of `CMD` puts its word at its address of R52 (R53, R60),
leaves every other word of the window, `KEY` among them, and every field that is no part of the window; the eight words of KEY are
written at `0x040 + 4k`, its bytes least significant first (R29, R56). That a written word is no longer marked is the model's form
of R40 (log 1). As functions of the state: a word stored at a readable register is what a read of it finds, and a read of any other
register word finds what it found before (R61). -/
def Obligations.AStoredWordReadsBackAndNoOtherMoves : Prop :=
  (∀ (s : State) (a : Nat) (w : Word) (r : Reg) (k : Nat), writeTarget 32 a = some (r, k) → r ≠ .cmd →
      (readTarget 32 a = some (r, k) → (s.writeReg r k w).readReg r k = w)
        ∧ ∀ (b : Nat) (r' : Reg) (k' : Nat), b ≠ a → readTarget 32 b = some (r', k') →
            (s.writeReg r k w).readReg r' k' = s.readReg r' k')
    ∧ (∀ (s : State) (rest : List HostAccess) (a : BitVec 12) (w : Word), s.pending = .write 32 a w :: rest →
        ¬ writeRefused 32 a.toNat → a ≠ 0x000 →
        ∃ t, step s = .next t ∧ t.mapWord a.toNat = w
          ∧ (∀ b, b % 4 = 0 → b ≠ a.toNat → t.mapWord b = (s.performing rest).mapWord b)
          ∧ (takesMarkOff a.toNat → t.unspecified = s.marksOutside a.toNat (a.toNat + 4))
          ∧ (¬ takesMarkOff a.toNat → t.unspecified = s.unspecified)
          ∧ (¬ (0x040 ≤ a.toNat ∧ a.toNat < 0x060) → t.key = s.key)
          ∧ t = { s.performing rest with
                    domain := t.domain, seed := t.seed, len := t.len, blk := t.blk, key := t.key, opa := t.opa, opb := t.opb
                    dpad := t.dpad, mbuf := t.mbuf, acc := t.acc, unspecified := t.unspecified })
    ∧ ∀ (s : State) (rest : List HostAccess) (k : Nat) (w : Word), k < 8 →
        s.pending = .write 32 (BitVec.ofNat 12 (0x040 + 4 * k)) w :: rest →
        ∃ v, step s = .next { s.performing rest with
                                key := v, unspecified := s.marksOutside (0x040 + 4 * k) (0x044 + 4 * k) }
          ∧ wordOf v k = w ∧ (∀ j, j < 8 → j ≠ k → wordOf v j = wordOf s.key j)
          ∧ ∀ j, j < 4 → v.extractLsb' (8 * (4 * k + j)) 8 = w.extractLsb' (8 * j) 8

/-- MBUF bytes and words (R55): a word write of the host stores its four bytes and changes no other byte, a word read returns
them in the same positions, and the engine's own read is the little-endian sum. -/
def Obligations.MbufWordsAreLittleEndianBytes : Prop :=
  (∀ (s : State) (rest : List HostAccess) (w : Nat) (v : Word), w < 128 →
      s.pending = .write 32 (BitVec.ofNat 12 (0x200 + 4 * w)) v :: rest →
      ∃ t, step s = .next t ∧ t = { s.performing rest with mbuf := t.mbuf }
        ∧ (∀ j, j < 4 → t.mbufByte (4 * w + j) = v.extractLsb' (8 * j) 8)
        ∧ ∀ b, ¬ (0x200 + 4 * w ≤ b ∧ b < 0x200 + 4 * w + 4) → Memory.find t.mbuf b = Memory.find s.mbuf b)
    ∧ (∀ (s : State) (rest : List HostAccess) (w : Nat), w < 128 →
        s.pending = .read 32 (BitVec.ofNat 12 (0x200 + 4 * w)) :: rest →
        ∃ v, step s = .next { s.performing rest with rdata := v }
          ∧ ∀ j, j < 4 → v.extractLsb' (8 * j) 8 = (s.performing rest).mbufByte (4 * w + j))
    ∧ ∀ (s : State) (a n : Nat),
        (s.memRead a n).toNat = ∑ j ∈ Finset.range n, (s.mbufByte (a + j)).toNat * 2 ^ (8 * j)

/-- The STATUS word and its read (R35, with the codes of R33 and R34). -/
def Obligations.StatusShowsPhaseKeyvAndErr : Prop :=
  (∀ s : State,
      s.status.extractLsb' 0 3 = s.phase.code ∧ s.status.getLsbD 3 = s.keyv ∧ s.status.extractLsb' 4 4 = s.err.code
        ∧ s.status.getLsbD 8 = false ∧ s.status.extractLsb' 9 23 = 0)
    ∧ (∀ (s : State) (rest : List HostAccess), s.pending = .read 32 0x004 :: rest →
        step s = .next { s.performing rest with rdata := s.status })
    ∧ [Phase.idle, .absorb, .tailed, .merged, .hardened, .committed, .rekeyed, .done].map Phase.code = [0, 1, 2, 3, 4, 5, 6, 7]
    ∧ [ErrCode.none, .illegal, .state, .arg, .bus].map ErrCode.code = [0, 1, 2, 3, 4]

/-! ## What no command does, and what two states cannot show -/

/-- The column 'Written by' of R20: which commands may change each piece of state. Every byte of MBUF reads as before after
any command but SRESET. -/
def Obligations.CommandsWriteOnlyTheirRegisters : Prop :=
  ∀ (i : Instr) (s t : State), i ≠ .sreset → exec i s = .next t →
    (∀ a, Memory.find t.mbuf a = Memory.find s.mbuf a) ∧ t.opa = s.opa ∧ t.opb = s.opb ∧ t.domain = s.domain ∧ t.seed = s.seed
      ∧ t.key = s.key ∧ t.pending = s.pending ∧ t.draw = s.draw ∧ t.rdata = s.rdata
      ∧ (t.res ≠ s.res → i = .subb ∨ i = .shrow ∨ i = .mixc ∨ i = .aesr ∨ (∃ a b, i = .clmul a b) ∨ i = .xor ∨ i = .add64)
      ∧ (t.digest ≠ s.digest → i = .reduce ∨ (∃ n, i = .final n) ∨ ∃ n, i = .short n)
      ∧ (t.dpad ≠ s.dpad → (∃ n, i = .tail n) ∨ ∃ n, i = .final n)
      ∧ (t.keyv ≠ s.keyv → ∃ k, i = .init k)
      ∧ (t.len ≠ s.len → (∃ k, i = .init k) ∨ i = .compress ∨ (∃ n, i = .tail n) ∨ ∃ n, i = .final n)
      ∧ (t.blk ≠ s.blk → (∃ k, i = .init k) ∨ i = .compress)
      ∧ (t.acc ≠ s.acc → (∃ k, i = .init k) ∨ i = .compress ∨ (∃ n, i = .tail n) ∨ i = .merge ∨ i = .harden ∨ i = .fblock
          ∨ i = .rekey ∨ (∃ n, i = .final n) ∨ ∃ n, i = .short n)

/-- The host cannot read KEY (R29): what a read transaction returns and does is the same whatever KEY holds. -/
def Obligations.TheHostCannotReadTheKey : Prop :=
  ∀ (s : State) (k : BitVec 256) (width a : Nat),
    (s.withKey k).hostRead width a = (s.hostRead width a).withKey k ∧ ((s.withKey k).hostRead width a).rdata = (s.hostRead width a).rdata

/-- Determinism (R266): the engine's results depend on the free draws only through a read of unspecified storage; where every
register word and every byte of MBUF has been written, no command depends on them. -/
def Obligations.FullyWrittenStateIsDeterministic : Prop :=
  ∀ (i : Instr) (s : State) (d : Nat), s.unspecified = [] → (∀ k, k < 512 → (Memory.find s.mbuf (0x200 + k)).isSome = true) →
    exec i { s with draw := d } = mapNext (fun t => { t with draw := d }) (exec i s)

/-! ## Reset and invariants (10_state.md R39, R40) -/

/-- The state after reset: the values R39 gives, and marked as unspecified exactly the register words it leaves so (model's
representation of 'unspecified': log 1, log 3). -/
def Obligations.ResetLeavesWhatTheTableSays : Prop :=
  State.reset.phase = .idle ∧ State.reset.err = .none ∧ State.reset.keyv = false ∧ State.reset.domain = 0
    ∧ State.reset.seed = 0 ∧ State.reset.len = 0 ∧ State.reset.blk = 0 ∧ State.reset.status = 0 ∧ State.reset.mbuf = []
    ∧ ∀ a, a ∈ State.reset.unspecified
        ↔ a % 4 = 0 ∧ ((0x040 ≤ a ∧ a < 0x0B0) ∨ (0x100 ≤ a ∧ a < 0x140) ∨ (0x400 ≤ a ∧ a < 0x600))

/-- The storage is in canonical form at reset. -/
def Obligations.ResetStorageIsCanonical : Prop := State.reset.canonical = true

/-- Every step keeps the canonical form of the storage, from every state that has it. -/
def Obligations.StepKeepsStorageCanonical : Prop :=
  ∀ s t : State, s.canonical = true → step s = .next t → t.canonical = true

/-- At reset no hash is in progress, so nothing need be written yet. -/
def Obligations.ResetIsWrittenBeforeRead : Prop := State.reset.writtenBeforeRead

/-- 'Every kernel command writes what it later reads' (R40), as an invariant that every step keeps from every state that has
it, whatever the host does. -/
def Obligations.StepKeepsWrittenBeforeRead : Prop :=
  ∀ s t : State, s.writtenBeforeRead → step s = .next t → t.writtenBeforeRead

/-- What the invariant is for: while a hash is in progress the lane registers, from TAIL on DPAD, and in DONE the digest, are read
as they are held, whatever the free draws are. For the rest of the storage the host must have written it: where it has set up
what R262 asks before a command (the bytes of MBUF it reads, KEY for a keyed hash, OPA and OPB), no result of the command
depends on a free draw. -/
def Obligations.AHashInProgressReadsNoFreeDraw : Prop :=
  (∀ s : State, s.writtenBeforeRead →
      (s.phase.inProgress = true → s.accSeen = s.acc) ∧ (s.phase.afterTail = true → s.dpadSeen = s.dpad)
        ∧ (s.phase = .done → ∀ k, k < 8 → s.readReg .digest k = wordOf s.digest k))
    ∧ ∀ (i : Instr) (s : State) (d : Nat), s.writtenBeforeRead → s.setUpFor i →
        exec i { s with draw := d } = mapNext (fun t => { t with draw := d }) (exec i s)
end

