-- ==== Sys2Proof/Laws/Datapath.lean ====
section
/-!
SUPPORT. What each function of the datapath does, once: bytes of a lane built from bytes, halves of a pair, words of a
register.
-/

namespace Sys2Proof.Machine

/-- A little-endian value fits its bytes. -/
theorem leValue_lt (bs : List Byte) : leValue bs < 256 ^ bs.length := by
  induction bs with
  | nil => simp [leValue]
  | cons b bs ih =>
    have hb : b.toNat < 256 := b.isLt
    simp only [leValue, List.length_cons, Nat.pow_succ]
    omega

/-- Byte `n` of a little-endian value is byte `n` of the string. -/
theorem leValue_byte (bs : List Byte) (n : Nat) : leValue bs / 256 ^ n % 256 = (bs.getD n 0).toNat := by
  induction bs generalizing n with
  | nil => simp [leValue]
  | cons b bs ih =>
    have hb : b.toNat < 256 := b.isLt
    cases n with
    | zero => simp only [leValue, Nat.pow_zero, Nat.div_one, List.getD_cons_zero]; omega
    | succ n =>
      rw [List.getD_cons_succ, ← ih n, Nat.pow_succ, Nat.mul_comm, ← Nat.div_div_eq_div_mul]
      have h : leValue (b :: bs) / 256 = leValue bs := by simp only [leValue]; omega
      rw [h]

/-- Byte `n` of the lane formed from 16 bytes is the byte at index `n` (20_memory.md R54). -/
theorem byte_leLane (bs : List Byte) (h : bs.length ≤ 16) (n : Nat) : byte (leLane bs) n = bs.getD n 0 := by
  have hlt : leValue bs < 2 ^ 128 := by
    have h1 := leValue_lt bs
    have h2 : 256 ^ bs.length ≤ 256 ^ 16 := Nat.pow_le_pow_right (by decide) h
    have h3 : (256 : Nat) ^ 16 = 2 ^ 128 := by decide
    omega
  apply BitVec.eq_of_toNat_eq
  rw [← leValue_byte]
  simp only [byte, leLane, BitVec.extractLsb'_toNat, BitVec.toNat_ofNat, Nat.mod_eq_of_lt hlt, Nat.shiftRight_eq_div_pow]
  rw [show (256 : Nat) ^ n = 2 ^ (8 * n) by rw [Nat.pow_mul]]

/-- Byte `n` of `laneOfBytes f` is `f n`. -/
theorem byte_laneOfBytes (f : Fin 16 → Byte) (n : Fin 16) : byte (laneOfBytes f) n = f n := by
  rw [laneOfBytes, byte_leLane _ (by rw [List.length_ofFn]), List.getD_eq_getElem _ _ (by rw [List.length_ofFn]; exact n.isLt),
    List.getElem_ofFn]

/-- Two lanes with the same sixteen bytes are equal. -/
theorem lane_ext (x y : Lane) (h : ∀ n : Fin 16, byte x n = byte y n) : x = y := by
  apply BitVec.eq_of_getLsbD_eq
  intro i hi
  have h' := congrArg (fun b : Byte => b.getLsbD (i % 8)) (h ⟨i / 8, by omega⟩)
  simp only [byte, BitVec.getLsbD_extractLsb'] at h'
  have e : 8 * (i / 8) + i % 8 = i := by omega
  have l : i % 8 < 8 := Nat.mod_lt _ (by decide)
  simpa [e, l] using h'

/-- A bit of a pair: of the first member below 64, of the second from there (00_scope.md R13). -/
theorem getLsbD_pair (a b : Half) (i : Nat) :
    (pair a b).getLsbD i = if i < 64 then a.getLsbD i else b.getLsbD (i - 64) :=
  (BitVec.getLsbD_append (x := b) (y := a) (i := i)).trans (by simp)

@[simp] theorem lo_pair (a b : Half) : lo (pair a b) = a := by
  apply BitVec.eq_of_getLsbD_eq
  intro i h
  simp only [lo, BitVec.getLsbD_extractLsb', getLsbD_pair, h, decide_true, Bool.true_and, Nat.zero_add, if_true]

@[simp] theorem hi_pair (a b : Half) : hi (pair a b) = b := by
  apply BitVec.eq_of_getLsbD_eq
  intro i h
  have e : ¬ 64 + i < 64 := by omega
  simp only [hi, BitVec.getLsbD_extractLsb', getLsbD_pair, h, decide_true, Bool.true_and, e, if_false,
    Nat.add_sub_cancel_left]

/-- A lane is the pair of its halves (R12, R13). -/
@[simp] theorem pair_lo_hi (x : Lane) : pair (lo x) (hi x) = x := by
  apply BitVec.eq_of_getLsbD_eq
  intro i h
  simp only [getLsbD_pair, lo, hi, BitVec.getLsbD_extractLsb']
  split
  · simp_all
  · have l : i - 64 < 64 := by omega
    have e : 64 + (i - 64) = i := by omega
    simp only [l, e, decide_true, Bool.true_and]

/-- The four words of a lane, side by side, are the lane (20_memory.md R53). -/
theorem words_append (x : Lane) : wordOf x 3 ++ wordOf x 2 ++ wordOf x 1 ++ wordOf x 0 = x := by
  apply BitVec.eq_of_getLsbD_eq
  intro i h
  simp only [BitVec.getLsbD_append, wordOf, BitVec.getLsbD_extractLsb']
  split
  · simp_all
  · split
    · have : 32 + (i - 32) = i := by omega
      simp_all
    · split
      · have : 64 + (i - 32 - 32) = i := by omega
        simp_all
      · have e : 96 + (i - 32 - 32 - 32) = i := by omega
        have l : i - 32 - 32 - 32 < 32 := by omega
        simp_all

/-- A bit of a register with one word replaced (20_memory.md R53). -/
theorem getLsbD_putWord {m : Nat} (x : BitVec m) (k : Nat) (w : Word) (i : Nat) (hi : i < m) :
    (putWord x k w).getLsbD i
      = if 32 * k ≤ i ∧ i < 32 * k + 32 then w.getLsbD (i - 32 * k) else x.getLsbD i := by
  have ones : ∀ j, (0xFFFFFFFF#32).getLsbD j = decide (j < 32) := by
    intro j
    rw [show (0xFFFFFFFF#32) = BitVec.allOnes 32 by decide, BitVec.getLsbD_allOnes]
  simp only [putWord, BitVec.getLsbD_or, BitVec.getLsbD_and, BitVec.getLsbD_not, BitVec.getLsbD_shiftLeft,
    BitVec.getLsbD_setWidth, ones, hi]
  by_cases h : 32 * k ≤ i
  · have l : i - 32 * k < m := by omega
    by_cases h2 : i - 32 * k < 32
    · have : i < 32 * k + 32 := by omega
      simp [h, h2, l, Nat.not_lt.mpr h, this]
    · have : ¬ i < 32 * k + 32 := by omega
      have z : w.getLsbD (i - 32 * k) = false := BitVec.getLsbD_of_ge _ _ (by omega)
      simp [h, h2, this, z]
  · have : i < 32 * k := by omega
    simp [this, h]

/-- The word just stored is read back (20_memory.md R53). -/
theorem wordOf_putWord_same {m : Nat} (x : BitVec m) (k : Nat) (w : Word) (h : 32 * k + 32 ≤ m) :
    wordOf (putWord x k w) k = w := by
  apply BitVec.eq_of_getLsbD_eq
  intro i hi
  rw [wordOf, BitVec.getLsbD_extractLsb']
  simp only [hi, decide_true, Bool.true_and]
  rw [getLsbD_putWord _ _ _ _ (by omega), if_pos (by omega)]
  congr 1; omega

/-- The other words are left (20_memory.md R53). -/
theorem wordOf_putWord_other {m : Nat} (x : BitVec m) (j k : Nat) (w : Word) (hj : 32 * j + 32 ≤ m) (h : j ≠ k) :
    wordOf (putWord x k w) j = wordOf x j := by
  apply BitVec.eq_of_getLsbD_eq
  intro i hi
  simp only [wordOf, BitVec.getLsbD_extractLsb', hi, decide_true, Bool.true_and]
  rw [getLsbD_putWord _ _ _ _ (by omega), if_neg (by omega)]

end Sys2Proof.Machine
end

