-- ==== Sys2Proof/Laws/Mem.lean ====
section
/-!
SUPPORT. The byte storage of `MBUF`: reading after a store, and that every store keeps the canonical form.
-/

namespace Sys2Proof.Machine

/-- A byte reads as stored, every other byte as before. -/
theorem Memory.find_put (m : Memory) (a b : Nat) (v : Byte) :
    Memory.find (Memory.put m a v) b = if b = a then some v else Memory.find m b := by
  induction m with
  | nil => simp only [Memory.put, Memory.find, eq_comm]
  | cons c m ih =>
    obtain ⟨x, w⟩ := c
    simp only [Memory.put]
    split
    · simp only [Memory.find, eq_comm (a := a)]
    · split
      · subst_vars
        simp only [Memory.find, eq_comm (a := x)]
        split <;> rfl
      · simp only [Memory.find, ih]
        by_cases h : x = b
        · rw [if_pos h, if_pos h, if_neg (by omega)]
        · rw [if_neg h, if_neg h]

/-- The addresses after a store are those before and the stored one. -/
theorem Memory.mem_put (m : Memory) (a : Nat) (v : Byte) (c : Host.Cell) (h : c ∈ Memory.put m a v) :
    c = (a, v) ∨ c ∈ m := by
  induction m with
  | nil => simp_all [Memory.put]
  | cons d m ih =>
    obtain ⟨x, w⟩ := d
    simp only [Memory.put] at h
    split at h
    · simpa using h
    · split at h
      · rcases List.mem_cons.mp h with h | h
        · exact .inl h
        · exact .inr (List.mem_cons_of_mem _ h)
      · rcases List.mem_cons.mp h with h | h
        · exact .inr (h ▸ List.mem_cons_self ..)
        · rcases ih h with h | h
          · exact .inl h
          · exact .inr (List.mem_cons_of_mem _ h)

/-- The canonical form, unfolded: addresses strictly rising and inside `MBUF`'s part of the window. -/
theorem Memory.wf_iff (m : Memory) :
    Memory.wf m = true ↔ m.Pairwise (fun x y => x.1 < y.1) ∧ ∀ c ∈ m, 0x200 ≤ c.1 ∧ c.1 < 0x400 := by
  simp only [Memory.wf, Bool.and_eq_true, decide_eq_true_eq, List.all_eq_true]

/-- A store inside `MBUF`'s part of the window keeps the canonical form. -/
theorem Memory.put_wf (m : Memory) (a : Nat) (v : Byte) (ha : 0x200 ≤ a ∧ a < 0x400) (h : Memory.wf m = true) :
    Memory.wf (Memory.put m a v) = true := by
  rw [Memory.wf_iff] at h ⊢
  obtain ⟨hp, hr⟩ := h
  refine ⟨?_, fun c hc => ?_⟩
  · induction m with
    | nil => simp [Memory.put]
    | cons d m ih =>
      obtain ⟨x, w⟩ := d
      obtain ⟨hx, hm⟩ := List.pairwise_cons.mp hp
      simp only [Memory.put]
      split
      · refine List.pairwise_cons.mpr ⟨fun c hc => ?_, hp⟩
        rcases List.mem_cons.mp hc with rfl | hc
        · assumption
        · have := hx c hc
          dsimp only at this ⊢
          omega
      · split
        · subst_vars
          exact List.pairwise_cons.mpr ⟨hx, hm⟩
        · refine List.pairwise_cons.mpr ⟨fun c hc => ?_, ih hm fun c hc => hr c (List.mem_cons_of_mem _ hc)⟩
          rcases Memory.mem_put m a v c hc with rfl | hc
          · dsimp only; omega
          · exact hx c hc
  · rcases Memory.mem_put m a v c hc with rfl | hc
    · exact ha
    · exact hr c hc

/-- A word of the host keeps the canonical form (20_memory.md R55). -/
theorem Memory.putWord_wf (m : Memory) (a : Nat) (v : Word) (ha : 0x200 ≤ a ∧ a + 4 ≤ 0x400) (h : Memory.wf m = true) :
    Memory.wf (Memory.putWord m a v) = true := by
  simp only [Memory.putWord, List.range, List.range.loop, List.foldl]
  exact Memory.put_wf _ _ _ (by omega) (Memory.put_wf _ _ _ (by omega) (Memory.put_wf _ _ _ (by omega)
    (Memory.put_wf _ _ _ (by omega) h)))

/-- The bytes after a word of the host: its four bytes, least significant first, and the others as before (R55). -/
theorem Memory.find_putWord (m : Memory) (a b : Nat) (v : Word) :
    Memory.find (Memory.putWord m a v) b
      = if a ≤ b ∧ b < a + 4 then some (v.extractLsb' (8 * (b - a)) 8) else Memory.find m b := by
  simp only [Memory.putWord, List.range, List.range.loop, List.foldl, Memory.find_put]
  by_cases h : a ≤ b ∧ b < a + 4
  · rw [if_pos h]
    have : b = a + 3 ∨ b = a + 2 ∨ b = a + 1 ∨ b = a := by omega
    rcases this with rfl | rfl | rfl | rfl <;> simp
  · rw [if_neg h, if_neg (by omega), if_neg (by omega), if_neg (by omega), if_neg (by omega)]

end Sys2Proof.Machine
end

