-- ==== Sys2Proof/Laws/State.lean ====
section
/-!
SUPPORT. One lemma per field per update of the state, so that no later proof unfolds a record update.
-/

namespace Sys2Proof.Machine

/-! ## `define` -/

@[simp] theorem State.define_acc (s : State) (a n : Nat) : (s.define a n).acc = s.acc := rfl
@[simp] theorem State.define_dpad (s : State) (a n : Nat) : (s.define a n).dpad = s.dpad := rfl
@[simp] theorem State.define_mbuf (s : State) (a n : Nat) : (s.define a n).mbuf = s.mbuf := rfl
@[simp] theorem State.define_opa (s : State) (a n : Nat) : (s.define a n).opa = s.opa := rfl
@[simp] theorem State.define_opb (s : State) (a n : Nat) : (s.define a n).opb = s.opb := rfl
@[simp] theorem State.define_res (s : State) (a n : Nat) : (s.define a n).res = s.res := rfl
@[simp] theorem State.define_domain (s : State) (a n : Nat) : (s.define a n).domain = s.domain := rfl
@[simp] theorem State.define_seed (s : State) (a n : Nat) : (s.define a n).seed = s.seed := rfl
@[simp] theorem State.define_key (s : State) (a n : Nat) : (s.define a n).key = s.key := rfl
@[simp] theorem State.define_keyv (s : State) (a n : Nat) : (s.define a n).keyv = s.keyv := rfl
@[simp] theorem State.define_len (s : State) (a n : Nat) : (s.define a n).len = s.len := rfl
@[simp] theorem State.define_blk (s : State) (a n : Nat) : (s.define a n).blk = s.blk := rfl
@[simp] theorem State.define_digest (s : State) (a n : Nat) : (s.define a n).digest = s.digest := rfl
@[simp] theorem State.define_phase (s : State) (a n : Nat) : (s.define a n).phase = s.phase := rfl
@[simp] theorem State.define_err (s : State) (a n : Nat) : (s.define a n).err = s.err := rfl
@[simp] theorem State.define_unspecified (s : State) (a n : Nat) : (s.define a n).unspecified = s.unspecified.filter fun x => decide (x < a ∨ a + 4 * n ≤ x) := rfl
@[simp] theorem State.define_pending (s : State) (a n : Nat) : (s.define a n).pending = s.pending := rfl
@[simp] theorem State.define_draw (s : State) (a n : Nat) : (s.define a n).draw = s.draw := rfl
@[simp] theorem State.define_rdata (s : State) (a n : Nat) : (s.define a n).rdata = s.rdata := rfl

/-! ## `setRes` -/

@[simp] theorem State.setRes_acc (s : State) (v : Lane) : (s.setRes v).acc = s.acc := rfl
@[simp] theorem State.setRes_dpad (s : State) (v : Lane) : (s.setRes v).dpad = s.dpad := rfl
@[simp] theorem State.setRes_mbuf (s : State) (v : Lane) : (s.setRes v).mbuf = s.mbuf := rfl
@[simp] theorem State.setRes_opa (s : State) (v : Lane) : (s.setRes v).opa = s.opa := rfl
@[simp] theorem State.setRes_opb (s : State) (v : Lane) : (s.setRes v).opb = s.opb := rfl
@[simp] theorem State.setRes_res (s : State) (v : Lane) : (s.setRes v).res = v := rfl
@[simp] theorem State.setRes_domain (s : State) (v : Lane) : (s.setRes v).domain = s.domain := rfl
@[simp] theorem State.setRes_seed (s : State) (v : Lane) : (s.setRes v).seed = s.seed := rfl
@[simp] theorem State.setRes_key (s : State) (v : Lane) : (s.setRes v).key = s.key := rfl
@[simp] theorem State.setRes_keyv (s : State) (v : Lane) : (s.setRes v).keyv = s.keyv := rfl
@[simp] theorem State.setRes_len (s : State) (v : Lane) : (s.setRes v).len = s.len := rfl
@[simp] theorem State.setRes_blk (s : State) (v : Lane) : (s.setRes v).blk = s.blk := rfl
@[simp] theorem State.setRes_digest (s : State) (v : Lane) : (s.setRes v).digest = s.digest := rfl
@[simp] theorem State.setRes_phase (s : State) (v : Lane) : (s.setRes v).phase = s.phase := rfl
@[simp] theorem State.setRes_err (s : State) (v : Lane) : (s.setRes v).err = s.err := rfl
@[simp] theorem State.setRes_unspecified (s : State) (v : Lane) : (s.setRes v).unspecified = (s.define 0x0A0 4).unspecified := rfl
@[simp] theorem State.setRes_pending (s : State) (v : Lane) : (s.setRes v).pending = s.pending := rfl
@[simp] theorem State.setRes_draw (s : State) (v : Lane) : (s.setRes v).draw = s.draw := rfl
@[simp] theorem State.setRes_rdata (s : State) (v : Lane) : (s.setRes v).rdata = s.rdata := rfl

/-! ## `setDigest` -/

@[simp] theorem State.setDigest_acc (s : State) (v : BitVec 256) : (s.setDigest v).acc = s.acc := rfl
@[simp] theorem State.setDigest_dpad (s : State) (v : BitVec 256) : (s.setDigest v).dpad = s.dpad := rfl
@[simp] theorem State.setDigest_mbuf (s : State) (v : BitVec 256) : (s.setDigest v).mbuf = s.mbuf := rfl
@[simp] theorem State.setDigest_opa (s : State) (v : BitVec 256) : (s.setDigest v).opa = s.opa := rfl
@[simp] theorem State.setDigest_opb (s : State) (v : BitVec 256) : (s.setDigest v).opb = s.opb := rfl
@[simp] theorem State.setDigest_res (s : State) (v : BitVec 256) : (s.setDigest v).res = s.res := rfl
@[simp] theorem State.setDigest_domain (s : State) (v : BitVec 256) : (s.setDigest v).domain = s.domain := rfl
@[simp] theorem State.setDigest_seed (s : State) (v : BitVec 256) : (s.setDigest v).seed = s.seed := rfl
@[simp] theorem State.setDigest_key (s : State) (v : BitVec 256) : (s.setDigest v).key = s.key := rfl
@[simp] theorem State.setDigest_keyv (s : State) (v : BitVec 256) : (s.setDigest v).keyv = s.keyv := rfl
@[simp] theorem State.setDigest_len (s : State) (v : BitVec 256) : (s.setDigest v).len = s.len := rfl
@[simp] theorem State.setDigest_blk (s : State) (v : BitVec 256) : (s.setDigest v).blk = s.blk := rfl
@[simp] theorem State.setDigest_digest (s : State) (v : BitVec 256) : (s.setDigest v).digest = v := rfl
@[simp] theorem State.setDigest_phase (s : State) (v : BitVec 256) : (s.setDigest v).phase = s.phase := rfl
@[simp] theorem State.setDigest_err (s : State) (v : BitVec 256) : (s.setDigest v).err = s.err := rfl
@[simp] theorem State.setDigest_unspecified (s : State) (v : BitVec 256) : (s.setDigest v).unspecified = (s.define 0x060 8).unspecified := rfl
@[simp] theorem State.setDigest_pending (s : State) (v : BitVec 256) : (s.setDigest v).pending = s.pending := rfl
@[simp] theorem State.setDigest_draw (s : State) (v : BitVec 256) : (s.setDigest v).draw = s.draw := rfl
@[simp] theorem State.setDigest_rdata (s : State) (v : BitVec 256) : (s.setDigest v).rdata = s.rdata := rfl

/-! ## `setDpad` -/

@[simp] theorem State.setDpad_acc (s : State) (v : Quad) : (s.setDpad v).acc = s.acc := rfl
@[simp] theorem State.setDpad_dpad (s : State) (v : Quad) : (s.setDpad v).dpad = v := rfl
@[simp] theorem State.setDpad_mbuf (s : State) (v : Quad) : (s.setDpad v).mbuf = s.mbuf := rfl
@[simp] theorem State.setDpad_opa (s : State) (v : Quad) : (s.setDpad v).opa = s.opa := rfl
@[simp] theorem State.setDpad_opb (s : State) (v : Quad) : (s.setDpad v).opb = s.opb := rfl
@[simp] theorem State.setDpad_res (s : State) (v : Quad) : (s.setDpad v).res = s.res := rfl
@[simp] theorem State.setDpad_domain (s : State) (v : Quad) : (s.setDpad v).domain = s.domain := rfl
@[simp] theorem State.setDpad_seed (s : State) (v : Quad) : (s.setDpad v).seed = s.seed := rfl
@[simp] theorem State.setDpad_key (s : State) (v : Quad) : (s.setDpad v).key = s.key := rfl
@[simp] theorem State.setDpad_keyv (s : State) (v : Quad) : (s.setDpad v).keyv = s.keyv := rfl
@[simp] theorem State.setDpad_len (s : State) (v : Quad) : (s.setDpad v).len = s.len := rfl
@[simp] theorem State.setDpad_blk (s : State) (v : Quad) : (s.setDpad v).blk = s.blk := rfl
@[simp] theorem State.setDpad_digest (s : State) (v : Quad) : (s.setDpad v).digest = s.digest := rfl
@[simp] theorem State.setDpad_phase (s : State) (v : Quad) : (s.setDpad v).phase = s.phase := rfl
@[simp] theorem State.setDpad_err (s : State) (v : Quad) : (s.setDpad v).err = s.err := rfl
@[simp] theorem State.setDpad_unspecified (s : State) (v : Quad) : (s.setDpad v).unspecified = (s.define 0x100 16).unspecified := rfl
@[simp] theorem State.setDpad_pending (s : State) (v : Quad) : (s.setDpad v).pending = s.pending := rfl
@[simp] theorem State.setDpad_draw (s : State) (v : Quad) : (s.setDpad v).draw = s.draw := rfl
@[simp] theorem State.setDpad_rdata (s : State) (v : Quad) : (s.setDpad v).rdata = s.rdata := rfl

/-! ## `setAcc` -/

@[simp] theorem State.setAcc_acc (s : State) (count : Nat) (v : Bulk) : (s.setAcc count v).acc = Vector.ofFn fun i => if i.val < count then v[i] else s.acc[i] := rfl
@[simp] theorem State.setAcc_dpad (s : State) (count : Nat) (v : Bulk) : (s.setAcc count v).dpad = s.dpad := rfl
@[simp] theorem State.setAcc_mbuf (s : State) (count : Nat) (v : Bulk) : (s.setAcc count v).mbuf = s.mbuf := rfl
@[simp] theorem State.setAcc_opa (s : State) (count : Nat) (v : Bulk) : (s.setAcc count v).opa = s.opa := rfl
@[simp] theorem State.setAcc_opb (s : State) (count : Nat) (v : Bulk) : (s.setAcc count v).opb = s.opb := rfl
@[simp] theorem State.setAcc_res (s : State) (count : Nat) (v : Bulk) : (s.setAcc count v).res = s.res := rfl
@[simp] theorem State.setAcc_domain (s : State) (count : Nat) (v : Bulk) : (s.setAcc count v).domain = s.domain := rfl
@[simp] theorem State.setAcc_seed (s : State) (count : Nat) (v : Bulk) : (s.setAcc count v).seed = s.seed := rfl
@[simp] theorem State.setAcc_key (s : State) (count : Nat) (v : Bulk) : (s.setAcc count v).key = s.key := rfl
@[simp] theorem State.setAcc_keyv (s : State) (count : Nat) (v : Bulk) : (s.setAcc count v).keyv = s.keyv := rfl
@[simp] theorem State.setAcc_len (s : State) (count : Nat) (v : Bulk) : (s.setAcc count v).len = s.len := rfl
@[simp] theorem State.setAcc_blk (s : State) (count : Nat) (v : Bulk) : (s.setAcc count v).blk = s.blk := rfl
@[simp] theorem State.setAcc_digest (s : State) (count : Nat) (v : Bulk) : (s.setAcc count v).digest = s.digest := rfl
@[simp] theorem State.setAcc_phase (s : State) (count : Nat) (v : Bulk) : (s.setAcc count v).phase = s.phase := rfl
@[simp] theorem State.setAcc_err (s : State) (count : Nat) (v : Bulk) : (s.setAcc count v).err = s.err := rfl
@[simp] theorem State.setAcc_unspecified (s : State) (count : Nat) (v : Bulk) : (s.setAcc count v).unspecified = (s.define 0x400 (4 * count)).unspecified := rfl
@[simp] theorem State.setAcc_pending (s : State) (count : Nat) (v : Bulk) : (s.setAcc count v).pending = s.pending := rfl
@[simp] theorem State.setAcc_draw (s : State) (count : Nat) (v : Bulk) : (s.setAcc count v).draw = s.draw := rfl
@[simp] theorem State.setAcc_rdata (s : State) (count : Nat) (v : Bulk) : (s.setAcc count v).rdata = s.rdata := rfl

/-! ## `setQuad` -/

@[simp] theorem State.setQuad_acc (s : State) (q : Quad) : (s.setQuad q).acc = (s.setAcc 4 (withFirstQuad s.acc q)).acc := rfl
@[simp] theorem State.setQuad_dpad (s : State) (q : Quad) : (s.setQuad q).dpad = s.dpad := rfl
@[simp] theorem State.setQuad_mbuf (s : State) (q : Quad) : (s.setQuad q).mbuf = s.mbuf := rfl
@[simp] theorem State.setQuad_opa (s : State) (q : Quad) : (s.setQuad q).opa = s.opa := rfl
@[simp] theorem State.setQuad_opb (s : State) (q : Quad) : (s.setQuad q).opb = s.opb := rfl
@[simp] theorem State.setQuad_res (s : State) (q : Quad) : (s.setQuad q).res = s.res := rfl
@[simp] theorem State.setQuad_domain (s : State) (q : Quad) : (s.setQuad q).domain = s.domain := rfl
@[simp] theorem State.setQuad_seed (s : State) (q : Quad) : (s.setQuad q).seed = s.seed := rfl
@[simp] theorem State.setQuad_key (s : State) (q : Quad) : (s.setQuad q).key = s.key := rfl
@[simp] theorem State.setQuad_keyv (s : State) (q : Quad) : (s.setQuad q).keyv = s.keyv := rfl
@[simp] theorem State.setQuad_len (s : State) (q : Quad) : (s.setQuad q).len = s.len := rfl
@[simp] theorem State.setQuad_blk (s : State) (q : Quad) : (s.setQuad q).blk = s.blk := rfl
@[simp] theorem State.setQuad_digest (s : State) (q : Quad) : (s.setQuad q).digest = s.digest := rfl
@[simp] theorem State.setQuad_phase (s : State) (q : Quad) : (s.setQuad q).phase = s.phase := rfl
@[simp] theorem State.setQuad_err (s : State) (q : Quad) : (s.setQuad q).err = s.err := rfl
@[simp] theorem State.setQuad_unspecified (s : State) (q : Quad) : (s.setQuad q).unspecified = (s.define 0x400 16).unspecified := rfl
@[simp] theorem State.setQuad_pending (s : State) (q : Quad) : (s.setQuad q).pending = s.pending := rfl
@[simp] theorem State.setQuad_draw (s : State) (q : Quad) : (s.setQuad q).draw = s.draw := rfl
@[simp] theorem State.setQuad_rdata (s : State) (q : Quad) : (s.setQuad q).rdata = s.rdata := rfl

/-! ## `clearErr` -/

@[simp] theorem State.clearErr_acc (s : State) : (s.clearErr).acc = s.acc := rfl
@[simp] theorem State.clearErr_dpad (s : State) : (s.clearErr).dpad = s.dpad := rfl
@[simp] theorem State.clearErr_mbuf (s : State) : (s.clearErr).mbuf = s.mbuf := rfl
@[simp] theorem State.clearErr_opa (s : State) : (s.clearErr).opa = s.opa := rfl
@[simp] theorem State.clearErr_opb (s : State) : (s.clearErr).opb = s.opb := rfl
@[simp] theorem State.clearErr_res (s : State) : (s.clearErr).res = s.res := rfl
@[simp] theorem State.clearErr_domain (s : State) : (s.clearErr).domain = s.domain := rfl
@[simp] theorem State.clearErr_seed (s : State) : (s.clearErr).seed = s.seed := rfl
@[simp] theorem State.clearErr_key (s : State) : (s.clearErr).key = s.key := rfl
@[simp] theorem State.clearErr_keyv (s : State) : (s.clearErr).keyv = s.keyv := rfl
@[simp] theorem State.clearErr_len (s : State) : (s.clearErr).len = s.len := rfl
@[simp] theorem State.clearErr_blk (s : State) : (s.clearErr).blk = s.blk := rfl
@[simp] theorem State.clearErr_digest (s : State) : (s.clearErr).digest = s.digest := rfl
@[simp] theorem State.clearErr_phase (s : State) : (s.clearErr).phase = s.phase := rfl
@[simp] theorem State.clearErr_err (s : State) : (s.clearErr).err = .none := rfl
@[simp] theorem State.clearErr_unspecified (s : State) : (s.clearErr).unspecified = s.unspecified := rfl
@[simp] theorem State.clearErr_pending (s : State) : (s.clearErr).pending = s.pending := rfl
@[simp] theorem State.clearErr_draw (s : State) : (s.clearErr).draw = s.draw := rfl
@[simp] theorem State.clearErr_rdata (s : State) : (s.clearErr).rdata = s.rdata := rfl

/-! ## `raise` -/

@[simp] theorem State.raise_acc (s : State) (e : ErrCode) : (s.raise e).acc = s.acc := by
  unfold State.raise; split <;> rfl
@[simp] theorem State.raise_dpad (s : State) (e : ErrCode) : (s.raise e).dpad = s.dpad := by
  unfold State.raise; split <;> rfl
@[simp] theorem State.raise_mbuf (s : State) (e : ErrCode) : (s.raise e).mbuf = s.mbuf := by
  unfold State.raise; split <;> rfl
@[simp] theorem State.raise_opa (s : State) (e : ErrCode) : (s.raise e).opa = s.opa := by
  unfold State.raise; split <;> rfl
@[simp] theorem State.raise_opb (s : State) (e : ErrCode) : (s.raise e).opb = s.opb := by
  unfold State.raise; split <;> rfl
@[simp] theorem State.raise_res (s : State) (e : ErrCode) : (s.raise e).res = s.res := by
  unfold State.raise; split <;> rfl
@[simp] theorem State.raise_domain (s : State) (e : ErrCode) : (s.raise e).domain = s.domain := by
  unfold State.raise; split <;> rfl
@[simp] theorem State.raise_seed (s : State) (e : ErrCode) : (s.raise e).seed = s.seed := by
  unfold State.raise; split <;> rfl
@[simp] theorem State.raise_key (s : State) (e : ErrCode) : (s.raise e).key = s.key := by
  unfold State.raise; split <;> rfl
@[simp] theorem State.raise_keyv (s : State) (e : ErrCode) : (s.raise e).keyv = s.keyv := by
  unfold State.raise; split <;> rfl
@[simp] theorem State.raise_len (s : State) (e : ErrCode) : (s.raise e).len = s.len := by
  unfold State.raise; split <;> rfl
@[simp] theorem State.raise_blk (s : State) (e : ErrCode) : (s.raise e).blk = s.blk := by
  unfold State.raise; split <;> rfl
@[simp] theorem State.raise_digest (s : State) (e : ErrCode) : (s.raise e).digest = s.digest := by
  unfold State.raise; split <;> rfl
@[simp] theorem State.raise_phase (s : State) (e : ErrCode) : (s.raise e).phase = s.phase := by
  unfold State.raise; split <;> rfl
theorem State.raise_err (s : State) (e : ErrCode) : (s.raise e).err = if s.err = .none then e else s.err := by
  unfold State.raise; split <;> rfl
@[simp] theorem State.raise_unspecified (s : State) (e : ErrCode) : (s.raise e).unspecified = s.unspecified := by
  unfold State.raise; split <;> rfl
@[simp] theorem State.raise_pending (s : State) (e : ErrCode) : (s.raise e).pending = s.pending := by
  unfold State.raise; split <;> rfl
@[simp] theorem State.raise_draw (s : State) (e : ErrCode) : (s.raise e).draw = s.draw := by
  unfold State.raise; split <;> rfl
@[simp] theorem State.raise_rdata (s : State) (e : ErrCode) : (s.raise e).rdata = s.rdata := by
  unfold State.raise; split <;> rfl

/-! ## `resetEngine` -/

@[simp] theorem State.resetEngine_acc (s : State) : s.resetEngine.acc = State.reset.acc := rfl
@[simp] theorem State.resetEngine_dpad (s : State) : s.resetEngine.dpad = State.reset.dpad := rfl
@[simp] theorem State.resetEngine_mbuf (s : State) : s.resetEngine.mbuf = State.reset.mbuf := rfl
@[simp] theorem State.resetEngine_opa (s : State) : s.resetEngine.opa = State.reset.opa := rfl
@[simp] theorem State.resetEngine_opb (s : State) : s.resetEngine.opb = State.reset.opb := rfl
@[simp] theorem State.resetEngine_res (s : State) : s.resetEngine.res = State.reset.res := rfl
@[simp] theorem State.resetEngine_domain (s : State) : s.resetEngine.domain = State.reset.domain := rfl
@[simp] theorem State.resetEngine_seed (s : State) : s.resetEngine.seed = State.reset.seed := rfl
@[simp] theorem State.resetEngine_key (s : State) : s.resetEngine.key = State.reset.key := rfl
@[simp] theorem State.resetEngine_keyv (s : State) : s.resetEngine.keyv = State.reset.keyv := rfl
@[simp] theorem State.resetEngine_len (s : State) : s.resetEngine.len = State.reset.len := rfl
@[simp] theorem State.resetEngine_blk (s : State) : s.resetEngine.blk = State.reset.blk := rfl
@[simp] theorem State.resetEngine_digest (s : State) : s.resetEngine.digest = State.reset.digest := rfl
@[simp] theorem State.resetEngine_phase (s : State) : s.resetEngine.phase = State.reset.phase := rfl
@[simp] theorem State.resetEngine_err (s : State) : s.resetEngine.err = State.reset.err := rfl
@[simp] theorem State.resetEngine_unspecified (s : State) : s.resetEngine.unspecified = State.reset.unspecified := rfl
@[simp] theorem State.resetEngine_pending (s : State) : s.resetEngine.pending = s.pending := rfl
@[simp] theorem State.resetEngine_draw (s : State) : s.resetEngine.draw = s.draw := rfl
@[simp] theorem State.resetEngine_rdata (s : State) : s.resetEngine.rdata = s.rdata := rfl

end Sys2Proof.Machine
end

