-- ==== Sys2Proof/Laws/Ops.lean ====
section
/-!
SUPPORT. For each shared operation, once, everything it can do: the frame of a command, refusing, marking words as defined,
reading registers, the host's transactions, the next access.
-/

namespace Sys2Proof.Machine

/-! ## The frame of a command (30_encoding.md R76) -/

/-- A command that is accepted is performed, and its phase is written. -/
theorem command_runs (i : Instr) (s : State) (e : State → State) (hg : s.err = .none ∨ runsUnderError i = true)
    (hp : legalIn i s.phase = true) (hn : lengthInRange i = true) :
    command i s e = .next { e s with phase := phaseAfter i s.phase } := by
  have : ¬ (s.err ≠ .none ∧ runsUnderError i = false) := by
    rintro ⟨h1, h2⟩
    rcases hg with h | h <;> simp_all
  simp only [command, this, hp, hn, if_false, Bool.true_eq_false]

/-- Everything a command can come to: ignored while ERR is set, refused for its phase, refused for its length, performed. -/
theorem command_cases (i : Instr) (s : State) (e : State → State) :
    (s.err ≠ .none ∧ runsUnderError i = false ∧ command i s e = .next s)
      ∨ ((s.err = .none ∨ runsUnderError i = true) ∧ legalIn i s.phase = false ∧ command i s e = .next (s.raise .state))
      ∨ ((s.err = .none ∨ runsUnderError i = true) ∧ legalIn i s.phase = true ∧ lengthInRange i = false
          ∧ command i s e = .next (s.raise .arg))
      ∨ ((s.err = .none ∨ runsUnderError i = true) ∧ legalIn i s.phase = true ∧ lengthInRange i = true
          ∧ command i s e = .next { e s with phase := phaseAfter i s.phase }) := by
  by_cases hg : s.err ≠ .none ∧ runsUnderError i = false
  · exact .inl ⟨hg.1, hg.2, by simp only [command, if_pos hg]⟩
  · have hg' : s.err = .none ∨ runsUnderError i = true := by
      by_cases h : s.err = .none
      · exact .inl h
      · exact .inr (by simpa using fun h' => hg ⟨h, h'⟩)
    refine .inr ?_
    cases hp : legalIn i s.phase with
    | false => exact .inl ⟨hg', rfl, by simp only [command, if_neg hg, hp, if_true]⟩
    | true =>
      cases hn : lengthInRange i with
      | false =>
        exact .inr (.inl ⟨hg', rfl, rfl, by simp only [command, if_neg hg, hp, hn, if_true, if_false, Bool.true_eq_false]⟩)
      | true => exact .inr (.inr ⟨hg', rfl, rfl, command_runs i s e hg' hp hn⟩)

/-- A command always answers a next state: the engine has no traps (60_exceptions.md R240). -/
theorem command_total (i : Instr) (s : State) (e : State → State) : ∃ t, command i s e = .next t := by
  rcases command_cases i s e with ⟨_, _, h⟩ | ⟨_, _, h⟩ | ⟨_, _, _, h⟩ | ⟨_, _, _, h⟩ <;> exact ⟨_, h⟩

/-- A refusal while ERR is set changes nothing (60_exceptions.md R242). -/
theorem State.raise_of_err {s : State} (h : s.err ≠ .none) (e : ErrCode) : s.raise e = s := by
  simp only [State.raise, if_neg h]

/-- A refusal while ERR is 0 records its code and changes nothing else (60_exceptions.md R240). -/
theorem State.raise_of_none {s : State} (h : s.err = .none) (e : ErrCode) : s.raise e = { s with err := e } := by
  simp only [State.raise, if_pos h]

/-! ## Marks of unspecified words (10_state.md R40) -/

/-- After words are written they are marked no more, and no other mark changes. -/
theorem State.mem_define (s : State) (a n x : Nat) :
    x ∈ (s.define a n).unspecified ↔ x ∈ s.unspecified ∧ ¬ (a ≤ x ∧ x < a + 4 * n) := by
  simp only [State.define_unspecified, List.mem_filter, decide_eq_true_eq]
  constructor
  · rintro ⟨h, h'⟩; exact ⟨h, by omega⟩
  · rintro ⟨h, h'⟩; exact ⟨h, by omega⟩

/-- Marks only go away by a write. -/
theorem State.define_sublist (s : State) (a n : Nat) : (s.define a n).unspecified.Sublist s.unspecified := by
  rw [State.define_unspecified]; exact List.filter_sublist

/-! ## Reading registers -/

/-- A word that is not marked reads as held. -/
theorem State.seenWord_of_defined (s : State) (a : Nat) (w : Word) (h : a ∉ s.unspecified) : s.seenWord a w = w := by
  simp only [State.seenWord, if_neg h]

/-- A word that is marked reads as the free draw of the access. -/
theorem State.seenWord_of_unspecified (s : State) (a : Nat) (w : Word) (h : a ∈ s.unspecified) :
    s.seenWord a w = s.freeWord a := by
  simp only [State.seenWord, if_pos h]

/-- A 128-bit register with no marked word reads as held. -/
theorem State.seenLane_of_defined (s : State) (a : Nat) (x : Lane)
    (h : ∀ y ∈ s.unspecified, ¬ (a ≤ y ∧ y < a + 16)) : s.seenLane a x = x := by
  have free : ∀ k, k < 4 → a + 4 * k ∉ s.unspecified := fun k hk hm => h _ hm (by omega)
  simp only [State.seenLane, State.seenWord_of_defined s _ _ (free 3 (by decide)),
    State.seenWord_of_defined s _ _ (free 2 (by decide)), State.seenWord_of_defined s _ _ (free 1 (by decide)),
    State.seenWord_of_defined s a _ (by simpa using free 0 (by decide))]
  exact words_append x

/-- What a read of `ACC[i]` finds. -/
theorem State.accSeen_get (s : State) (i : Fin 32) : s.accSeen[i] = s.seenLane (0x400 + 16 * i) s.acc[i] := by
  simp only [State.accSeen, Fin.getElem_fin, Vector.getElem_ofFn]

/-- What a read of `DPAD[i]` finds. -/
theorem State.dpadSeen_get (s : State) (i : Fin 4) : s.dpadSeen[i] = s.seenLane (0x100 + 16 * i) s.dpad[i] := by
  simp only [State.dpadSeen, Fin.getElem_fin, Vector.getElem_ofFn]

/-- A write of the first `count` lane registers leaves the others. -/
theorem State.setAcc_get (s : State) (count : Nat) (v : Bulk) (i : Fin 32) :
    (s.setAcc count v).acc[i] = if i.val < count then v[i] else s.acc[i] := by
  simp only [State.setAcc_acc, Fin.getElem_fin, Vector.getElem_ofFn]

/-- A write of `ACC[0..3]` leaves the others. -/
theorem State.setQuad_get (s : State) (q : Quad) (i : Fin 32) :
    (s.setQuad q).acc[i] = if h : i.val < 4 then q[(⟨i.val, h⟩ : Fin 4)] else s.acc[i] := by
  simp only [State.setQuad_acc, State.setAcc_acc, withFirstQuad, Fin.getElem_fin, Vector.getElem_ofFn]
  split <;> simp_all

/-! ## The host's transactions (20_memory.md R60) -/

/-- A read of the host: refused, or the register's word with nothing else changed. -/
theorem State.hostRead_cases (s : State) (width a : Nat) :
    (readTarget width a = none ∧ s.hostRead width a = { s.raise .bus with rdata := 0 })
      ∨ ∃ r k, readTarget width a = some (r, k) ∧ s.hostRead width a = { s with rdata := s.readReg r k } := by
  unfold State.hostRead
  cases h : readTarget width a with
  | none => exact .inl ⟨rfl, rfl⟩
  | some p => exact .inr ⟨p.1, p.2, rfl, rfl⟩

/-- A write of the host: refused, a command word, an illegal word, or one word stored. -/
theorem State.hostWrite_cases (s : State) (width a : Nat) (w : Word) :
    (writeTarget width a = none ∧ s.hostWrite width a w = .done (s.raise .bus))
      ∨ (∃ k i, writeTarget width a = some (.cmd, k) ∧ decode w = .command i ∧ s.hostWrite width a w = .run i)
      ∨ (∃ k why, writeTarget width a = some (.cmd, k) ∧ decode w = .illegal why
          ∧ s.hostWrite width a w = .done (s.raise .illegal))
      ∨ ∃ r k, r ≠ .cmd ∧ writeTarget width a = some (r, k) ∧ s.hostWrite width a w = .done (s.writeReg r k w) := by
  unfold State.hostWrite
  cases h : writeTarget width a with
  | none => exact .inl ⟨rfl, rfl⟩
  | some p =>
    obtain ⟨r, k⟩ := p
    cases r
    case cmd =>
      cases hd : decode w with
      | command i => exact .inr (.inl ⟨k, i, rfl, rfl, rfl⟩)
      | illegal why => exact .inr (.inr (.inl ⟨k, why, rfl, rfl, rfl⟩))
    all_goals exact .inr (.inr (.inr ⟨_, k, by simp, rfl, rfl⟩))

/-- The next access: none, or the oldest pending one in the state that has performed one access more. -/
theorem State.nextAccess_cases (s : State) :
    (s.pending = [] ∧ s.nextAccess = none)
      ∨ ∃ x rest, s.pending = x :: rest ∧ s.nextAccess = some (x, { s with pending := rest, draw := s.draw + 1 }) := by
  unfold State.nextAccess
  cases h : s.pending with
  | nil => exact .inl ⟨rfl, rfl⟩
  | cons x rest => exact .inr ⟨x, rest, rfl, rfl⟩

end Sys2Proof.Machine
end

