-- ==== Sys2Proof/Laws/Exec.lean ====
section
/-!
SUPPORT. What a command and a step can do, once: every command is `command` around its own effect, and a step is one access.
-/

namespace Sys2Proof.Machine

/-- The effect each command has when it is performed (step 5 of R76), before its phase is written. -/
def effectOf : Instr → State → State
  | .nop => id
  | .clrerr => State.clearErr
  | .sreset => State.resetEngine
  | .subb => fun s => s.setRes (subBytes s.opaSeen)
  | .shrow => fun s => s.setRes (shiftRows s.opaSeen)
  | .mixc => fun s => s.setRes (mixColumns s.opaSeen)
  | .aesr => fun s => s.setRes (aes s.opaSeen s.opbSeen)
  | .clmul sa sb => fun s => s.setRes (clmul (selectHalf sa s.opaSeen) (selectHalf sb s.opbSeen))
  | .xor => fun s => s.setRes (s.opaSeen ^^^ s.opbSeen)
  | .add64 => fun s => s.setRes (add64 s.opaSeen s.opbSeen)
  | .short n => shortEffect Config.params n
  | .init k => initEffect Config.params k
  | .compress => compressEffect Config.params
  | .tail n => tailEffect Config.params n
  | .merge => mergeEffect Config.params
  | .harden => hardenEffect Config.params
  | .fblock => fblockEffect Config.params
  | .rekey => rekeyEffect
  | .reduce => reduceEffect Config.params
  | .final n => finalEffect Config.params n

/-- A meaning is the frame of R76 around the command's effect. -/
theorem exec_eq_command (i : Instr) (s : State) : exec i s = command i s (effectOf i) := by
  cases i <;> rfl

/-- Everything a command can come to: nothing (ERR set), a refusal, or its effect and its phase. -/
theorem exec_cases {i : Instr} {s t : State} (h : exec i s = .next t) :
    t = s ∨ t = s.raise .state ∨ t = s.raise .arg
      ∨ ((s.err = .none ∨ runsUnderError i = true) ∧ legalIn i s.phase = true ∧ lengthInRange i = true
          ∧ t = { effectOf i s with phase := phaseAfter i s.phase }) := by
  rw [exec_eq_command] at h
  rcases command_cases i s (effectOf i) with ⟨_, _, e⟩ | ⟨_, _, e⟩ | ⟨_, _, _, e⟩ | ⟨hg, hp, hn, e⟩ <;> rw [e] at h <;> cases h
  · exact .inl rfl
  · exact .inr (.inl rfl)
  · exact .inr (.inr (.inl rfl))
  · exact .inr (.inr (.inr ⟨hg, hp, hn, rfl⟩))

/-- A command that is accepted is performed. -/
theorem exec_runs {i : Instr} {s : State} (hg : s.err = .none ∨ runsUnderError i = true) (hp : legalIn i s.phase = true)
    (hn : lengthInRange i = true) : exec i s = .next { effectOf i s with phase := phaseAfter i s.phase } := by
  rw [exec_eq_command]; exact command_runs i s _ hg hp hn

/-- A step: the engine waits, or performs the oldest pending access, which runs a command or is done. -/
theorem step_cases {s t : State} (h : step s = .next t) :
    (s.pending = [] ∧ t = s)
      ∨ ∃ x rest, s.pending = x :: rest
          ∧ ((∃ i, ({ s with pending := rest, draw := s.draw + 1 } : State).access x = .run i
                ∧ exec i { s with pending := rest, draw := s.draw + 1 } = .next t)
              ∨ ({ s with pending := rest, draw := s.draw + 1 } : State).access x = .done t) := by
  unfold step at h
  rcases s.nextAccess_cases with ⟨hp, hn⟩ | ⟨x, rest, hp, hn⟩ <;> rw [hn] at h
  · cases h; exact .inl ⟨hp, rfl⟩
  · refine .inr ⟨x, rest, hp, ?_⟩
    dsimp only at h
    cases ha : ({ s with pending := rest, draw := s.draw + 1 } : State).access x with
    | run i => rw [ha] at h; exact .inl ⟨i, rfl, h⟩
    | done u => rw [ha] at h; cases h; exact .inr rfl

end Sys2Proof.Machine
end

