-- ==== Sys2Proof/Laws/Kernel.lean ====
section
/-!
SUPPORT. The kernels' moves of lanes, once: what stands at lane `laneIx i` of a bulk state, or `quadIx i` of a 4-lane state,
after each of them, and each write of the state as one record.
-/

namespace Sys2Proof.Machine

/-! ## Indices -/

theorem laneIx_val {i : Nat} (h : i < 32) : (laneIx i).val = i := Nat.mod_eq_of_lt h

theorem quadIx_val {i : Nat} (h : i < 4) : (quadIx i).val = i := Nat.mod_eq_of_lt h

theorem laneIx_of_val {i : Fin 32} : laneIx i.val = i := Fin.ext (Nat.mod_eq_of_lt i.isLt)

theorem quadIx_of_val {i : Fin 4} : quadIx i.val = i := Fin.ext (Nat.mod_eq_of_lt i.isLt)

/-- Element `i` of a vector given by a function. -/
theorem ofFn_get {n : Nat} {α : Type} (f : Fin n → α) (i : Fin n) : (Vector.ofFn f)[i] = f i := by
  simp only [Fin.getElem_fin, Vector.getElem_ofFn]

/-- Two bulk states with the same lanes are equal. -/
theorem bulk_ext {x y : Bulk} (h : ∀ i, i < 32 → x[laneIx i] = y[laneIx i]) : x = y := by
  apply Vector.ext
  intro i hi
  have e := h i hi
  simp only [Fin.getElem_fin, laneIx_val hi] at e
  exact e

/-- Two 4-lane states with the same lanes are equal. -/
theorem quad_ext {x y : Quad} (h : ∀ i, i < 4 → x[quadIx i] = y[quadIx i]) : x = y := by
  apply Vector.ext
  intro i hi
  have e := h i hi
  simp only [Fin.getElem_fin, quadIx_val hi] at e
  exact e

/-! ## Writes of the state as records -/

theorem State.setRes_eq (s : State) (v : Lane) :
    s.setRes v = { s with res := v, unspecified := s.marksOutside 0x0A0 0x0B0 } := rfl

theorem State.setDigest_eq (s : State) (v : BitVec 256) :
    s.setDigest v = { s with digest := v, unspecified := s.marksOutside 0x060 0x080 } := rfl

theorem State.setDpad_eq (s : State) (v : Quad) :
    s.setDpad v = { s with dpad := v, unspecified := s.marksOutside 0x100 0x140 } := rfl

theorem State.setAcc_eq (s : State) (count : Nat) (v : Bulk) :
    s.setAcc count v = { s with acc := (s.setAcc count v).acc, unspecified := (s.define 0x400 (4 * count)).unspecified } := by
  unfold State.setAcc State.define; rfl

/-- A lane register below the count takes its new value (R20, column 'Written by'). -/
theorem State.setAcc_below (s : State) (count : Nat) (v : Bulk) {i : Nat} (h : i < count) (hi : i < 32) :
    (s.setAcc count v).acc[laneIx i] = v[laneIx i] := by
  rw [State.setAcc_get, if_pos]; rwa [laneIx_val hi]

/-- A lane register from the count on stays. -/
theorem State.setAcc_above (s : State) (count : Nat) (v : Bulk) {i : Nat} (h : count ≤ i) (hi : i < 32) :
    (s.setAcc count v).acc[laneIx i] = s.acc[laneIx i] := by
  rw [State.setAcc_get, if_neg]; rw [laneIx_val hi]; omega

theorem State.setQuad_below (s : State) (q : Quad) {i : Nat} (h : i < 4) : (s.setQuad q).acc[laneIx i] = q[quadIx i] := by
  rw [State.setQuad_get, dif_pos (by rw [laneIx_val (by omega)]; exact h)]
  congr 1
  exact Fin.ext ((laneIx_val (by omega)).trans (quadIx_val h).symm)

theorem State.setQuad_above (s : State) (q : Quad) {i : Nat} (h : 4 ≤ i) (hi : i < 32) :
    (s.setQuad q).acc[laneIx i] = s.acc[laneIx i] := by
  rw [State.setQuad_get, dif_neg (by rw [laneIx_val hi]; omega)]

/-- The marks that remain when the words of the window in `[a, b)` are written. -/
theorem State.mem_marksOutside (s : State) (a b x : Nat) : x ∈ s.marksOutside a b ↔ x ∈ s.unspecified ∧ ¬ (a ≤ x ∧ x < b) := by
  simp only [State.marksOutside, List.mem_filter, decide_eq_true_eq]
  constructor <;> rintro ⟨h, e⟩ <;> exact ⟨h, by omega⟩

/-! ## Four lanes -/

theorem firstQuad_get (acc : Bulk) {i : Nat} (h : i < 4) : (firstQuad acc)[quadIx i] = acc[laneIx i] := by
  unfold firstQuad
  rw [ofFn_get]
  congr 1
  exact Fin.ext ((quadIx_val h).trans (laneIx_val (by omega)).symm)

theorem rotateQuad_get (acc : Quad) {i : Nat} (h : i < 4) : (rotateQuad acc)[quadIx i] = acc[quadIx ((i + 1) % 4)] := by
  unfold rotateQuad
  rw [ofFn_get]
  congr 1
  apply Fin.ext
  rw [Fin.val_add, quadIx_val h, quadIx_val (Nat.mod_lt _ (by decide))]
  rfl

theorem xorQuad_get (x y : Quad) {i : Nat} : (xorQuad x y)[quadIx i] = x[quadIx i] ^^^ y[quadIx i] := by
  unfold xorQuad; rw [ofFn_get]

theorem offsetsFrom_get (cfg : Params) (base : Nat) {i : Nat} (h : i < 4) :
    (offsetsFrom cfg base)[quadIx i] = cfg.laneOffset[laneIx (base + i)] := by
  unfold offsetsFrom
  rw [ofFn_get]
  exact congrArg (fun j : Fin 32 => cfg.laneOffset[j]) (congrArg (fun n => laneIx (base + n)) (quadIx_val h))

theorem quadAt_get (acc : Bulk) (base : Nat) {i : Nat} (h : i < 4) : (quadAt acc base)[quadIx i] = acc[laneIx (base + i)] := by
  unfold quadAt
  rw [ofFn_get]
  exact congrArg (fun j : Fin 32 => acc[j]) (congrArg (fun n => laneIx (base + n)) (quadIx_val h))

theorem withQuadAt_in (acc : Bulk) (base : Nat) (q : Quad) {i : Nat} (h : i < 4) (hb : base + i < 32) :
    (withQuadAt acc base q)[laneIx (base + i)] = q[quadIx i] := by
  unfold withQuadAt
  rw [ofFn_get, if_pos (by rw [laneIx_val hb]; omega)]
  exact congrArg (fun j : Fin 4 => q[j]) (congrArg quadIx (by rw [laneIx_val hb, Nat.add_sub_cancel_left]))

theorem withQuadAt_out (acc : Bulk) (base : Nat) (q : Quad) {i : Nat} (hi : i < 32) (h : i < base ∨ base + 4 ≤ i) :
    (withQuadAt acc base q)[laneIx i] = acc[laneIx i] := by
  unfold withQuadAt
  rw [ofFn_get, if_neg (by rw [laneIx_val hi]; omega)]

/-! ## The bulk state -/

theorem xorBulk_get (x y : Bulk) {i : Nat} : (xorBulk x y)[laneIx i] = x[laneIx i] ^^^ y[laneIx i] := by
  unfold xorBulk; rw [ofFn_get]

/-- `4g + e` of a bulk index `4g + e`. -/
theorem groupOf_laneIx {g e : Nat} (hg : g < 8) (he : e < 4) : (groupOf (laneIx (4 * g + e))).val = g := by
  simp only [groupOf, laneIx_val (show 4 * g + e < 32 by omega)]; omega

theorem elemOf_laneIx {g e : Nat} (hg : g < 8) (he : e < 4) : (elemOf (laneIx (4 * g + e))).val = e := by
  simp only [elemOf, laneIx_val (show 4 * g + e < 32 by omega)]; omega

theorem bulkIndex_eq (g : Fin 8) (e : Fin 4) : bulkIndex g e = laneIx (4 * g.val + e.val) :=
  Fin.ext (laneIx_val (by omega)).symm

/-- A level of the tree-merge on a register that survives it (R166). -/
theorem mergeLevel_below (count : Nat) (m : Lane) (acc : Bulk) {i : Nat} (h : i < count) (hc : count ≤ 16) :
    (mergeLevel count m acc)[laneIx i]
      = aes (aes acc[laneIx i] (acc[laneIx (i + count)] ^^^ m)) (aes acc[laneIx i] (acc[laneIx (i + count)] ^^^ m) ^^^ m) := by
  unfold mergeLevel
  rw [ofFn_get, if_pos (by rw [laneIx_val (by omega)]; exact h)]
  have e : Fin.ofNat 32 ((laneIx i).val + count) = laneIx (i + count) := congrArg (fun n => laneIx (n + count)) (laneIx_val (by omega))
  exact congrArg (fun j : Fin 32 => aes (aes acc[laneIx i] (acc[j] ^^^ m)) (aes acc[laneIx i] (acc[j] ^^^ m) ^^^ m)) e

/-- A register that does not survive a level keeps its value (R166). -/
theorem mergeLevel_above (count : Nat) (m : Lane) (acc : Bulk) {i : Nat} (h : count ≤ i) (hi : i < 32) :
    (mergeLevel count m acc)[laneIx i] = acc[laneIx i] := by
  unfold mergeLevel
  rw [ofFn_get, if_neg (by rw [laneIx_val hi]; omega)]

end Sys2Proof.Machine
end

