-- ==== Sys2Proof/Laws/PerInstr.lean ====
section
/-!
SUPPORT. Statements made per instruction. Family `encodeFields`: the three fields of a command's word (30_encoding.md R70) are
its opcode, its flags and its length immediate.
-/

namespace Sys2Proof

/-- The `op` field of three fields side by side. -/
theorem opField_append (n : BitVec 16) (f op : BitVec 8) : opField (n ++ f ++ op) = op := by
  apply BitVec.eq_of_getLsbD_eq
  intro i h
  simp only [opField, BitVec.getLsbD_extractLsb', h, decide_true, Bool.true_and, Nat.zero_add]
  exact (BitVec.getLsbD_append (x := n ++ f) (y := op)).trans (by simp [h])

/-- The flags of three fields side by side. -/
theorem flagField_append (n : BitVec 16) (f op : BitVec 8) : flagField (n ++ f ++ op) = f := by
  apply BitVec.eq_of_getLsbD_eq
  intro i h
  simp only [flagField, BitVec.getLsbD_extractLsb', h, decide_true, Bool.true_and]
  refine (BitVec.getLsbD_append (x := n ++ f) (y := op)).trans ?_
  rw [if_neg (by omega), Nat.add_sub_cancel_left]
  exact (BitVec.getLsbD_append (x := n) (y := f)).trans (by simp [h])

/-- The length immediate of three fields side by side. -/
theorem lengthField_append (n : BitVec 16) (f op : BitVec 8) : lengthField (n ++ f ++ op) = n := by
  apply BitVec.eq_of_getLsbD_eq
  intro i h
  simp only [lengthField, BitVec.getLsbD_extractLsb', h, decide_true, Bool.true_and]
  refine (BitVec.getLsbD_append (x := n ++ f) (y := op)).trans ?_
  rw [if_neg (by omega)]
  refine (BitVec.getLsbD_append (x := n) (y := f)).trans ?_
  rw [if_neg (by omega), show 16 + i - 8 - 8 = i by omega]

namespace Laws.encodeFields

/-- The word of a command holds its opcode, its flags and its length immediate, each in its field (R70). -/
def Statement (i : Instr) : Prop :=
  opField (encode i) = i.opcode ∧ flagField (encode i) = i.flags ∧ lengthField (encode i) = BitVec.ofNat 16 i.length

end Laws.encodeFields

/-- The family's statement for any command. -/
theorem encode_fields (i : Instr) : Laws.encodeFields.Statement i :=
  ⟨opField_append _ _ _, flagField_append _ _ _, lengthField_append _ _ _⟩

theorem Laws.encodeFields.nop : Laws.encodeFields.Statement .nop := encode_fields _
theorem Laws.encodeFields.clrerr : Laws.encodeFields.Statement .clrerr := encode_fields _
theorem Laws.encodeFields.sreset : Laws.encodeFields.Statement .sreset := encode_fields _
theorem Laws.encodeFields.subb : Laws.encodeFields.Statement .subb := encode_fields _
theorem Laws.encodeFields.shrow : Laws.encodeFields.Statement .shrow := encode_fields _
theorem Laws.encodeFields.mixc : Laws.encodeFields.Statement .mixc := encode_fields _
theorem Laws.encodeFields.aesr : Laws.encodeFields.Statement .aesr := encode_fields _
theorem Laws.encodeFields.clmul (sa sb : Bool) : Laws.encodeFields.Statement (.clmul sa sb) := encode_fields _
theorem Laws.encodeFields.xor : Laws.encodeFields.Statement .xor := encode_fields _
theorem Laws.encodeFields.add64 : Laws.encodeFields.Statement .add64 := encode_fields _
theorem Laws.encodeFields.short (n : Nat) : Laws.encodeFields.Statement (.short n) := encode_fields _
theorem Laws.encodeFields.init (k : Bool) : Laws.encodeFields.Statement (.init k) := encode_fields _
theorem Laws.encodeFields.compress : Laws.encodeFields.Statement .compress := encode_fields _
theorem Laws.encodeFields.tail (n : Nat) : Laws.encodeFields.Statement (.tail n) := encode_fields _
theorem Laws.encodeFields.merge : Laws.encodeFields.Statement .merge := encode_fields _
theorem Laws.encodeFields.harden : Laws.encodeFields.Statement .harden := encode_fields _
theorem Laws.encodeFields.fblock : Laws.encodeFields.Statement .fblock := encode_fields _
theorem Laws.encodeFields.rekey : Laws.encodeFields.Statement .rekey := encode_fields _
theorem Laws.encodeFields.reduce : Laws.encodeFields.Statement .reduce := encode_fields _
theorem Laws.encodeFields.final (n : Nat) : Laws.encodeFields.Statement (.final n) := encode_fields _

end Sys2Proof
end

