-- ==== Sys2Proof/Laws/Reads.lean ====
section
/-!
SUPPORT. What the state's reads depend on: storage that something has written reads as it is held, whatever the free draws are,
and what a kernel reads of `MBUF` is a function of the bytes it names.
-/

namespace Sys2Proof.Machine

/-- A 128-bit register all of whose words are defined reads as it is held (R40). -/
theorem State.seenLane_of_definedOn {s : State} {a b c : Nat} (x : Lane) (h : s.definedOn a b) (ha : a ≤ c)
    (hb : c + 16 ≤ b) : s.seenLane c x = x :=
  s.seenLane_of_defined c x fun y hy hc => h y hy ⟨by omega, by omega⟩

/-- Defined lane registers read as they are held (R40). -/
theorem State.accSeen_of_definedOn {s : State} (h : s.definedOn 0x400 0x600) : s.accSeen = s.acc := by
  apply Vector.ext
  intro i hi
  exact (s.accSeen_get ⟨i, hi⟩).trans (State.seenLane_of_definedOn _ h (by simp) (by simp; omega))

/-- A defined `DPAD` reads as it is held (R40). -/
theorem State.dpadSeen_of_definedOn {s : State} (h : s.definedOn 0x100 0x140) : s.dpadSeen = s.dpad := by
  apply Vector.ext
  intro i hi
  exact (s.dpadSeen_get ⟨i, hi⟩).trans (State.seenLane_of_definedOn _ h (by simp) (by simp; omega))

/-- A byte of `MBUF` that has been written reads as listed, in whichever access (R40). -/
theorem State.mbufByte_of_written {s u : State} {k : Nat} (h : s.mbufWritten k) (e : u.mbuf = s.mbuf) :
    u.mbufByte k = s.mbufByte k := by
  obtain ⟨v, hv⟩ := Option.isSome_iff_exists.mp h
  unfold State.mbufByte
  rw [e, hv, Option.getD_some, Option.getD_some]

/-- The bytes read are a function of those bytes (R55). -/
theorem State.mbufBytes_congr {s u : State} {a n : Nat} (h : ∀ k, k < n → s.mbufByte (a + k) = u.mbufByte (a + k)) :
    s.mbufBytes a n = u.mbufBytes a n :=
  List.map_congr_left fun j hj => h j (List.mem_range.mp hj)

/-- A data word is a function of its sixteen bytes (R55). -/
theorem State.dataWord_congr {s u : State} {a : Nat} (h : ∀ k, k < 16 → s.mbufByte (a + k) = u.mbufByte (a + k)) :
    s.dataWord a = u.dataWord a :=
  congrArg (fun bs => BitVec.ofNat (8 * 16) (leValue bs)) (State.mbufBytes_congr h)

/-- The data words of a block are a function of its 512 bytes (R146). -/
theorem blockWords_congr (cfg : Params) {s u : State} (h : ∀ k, k < 512 → s.mbufByte k = u.mbufByte k) :
    blockWords cfg s = blockWords cfg u :=
  congrArg Vector.ofFn (funext fun _ => congrArg (whiten cfg) (State.dataWord_congr fun _ _ => h _ (by omega)))

/-- The data words of a remainder chunk are a function of its 64 bytes (R162). -/
theorem chunkWords_congr (cfg : Params) {s u : State} {c : Nat}
    (h : ∀ k, k < 64 → s.mbufByte (64 * c + k) = u.mbufByte (64 * c + k)) : chunkWords cfg s c = chunkWords cfg u c :=
  congrArg Vector.ofFn (funext fun i => congrArg (whiten cfg) (State.dataWord_congr fun k _ => by
    rw [Nat.add_assoc]; exact h _ (by omega)))

/-- The lanes after the first `q` chunks are a function of the lanes before and of those chunks' bytes (R161 to R163). -/
theorem absorbChunks_congr (cfg : Params) {s u : State} {q : Nat} (ha : s.accSeen = u.accSeen)
    (h : ∀ k, k < 64 * q → s.mbufByte k = u.mbufByte k) : absorbChunks cfg s q = absorbChunks cfg u q := by
  have fold : ∀ (cs : List Nat), (∀ c ∈ cs, c < q) → ∀ acc,
      cs.foldl (absorbChunk cfg s) acc = cs.foldl (absorbChunk cfg u) acc := by
    intro cs
    induction cs with
    | nil => exact fun _ acc => (List.foldl_nil ..).trans (List.foldl_nil ..).symm
    | cons c cs ih =>
      intro hc acc
      have e : absorbChunk cfg s acc c = absorbChunk cfg u acc c :=
        congrArg (fun d => withQuadAt acc (4 * c) (quadCompress cfg (offsetsFrom cfg (4 * c)) (quadAt acc (4 * c)) d))
          (chunkWords_congr cfg fun k hk => h _ (by have := hc c List.mem_cons_self; omega))
      rw [List.foldl_cons, List.foldl_cons, e]
      exact ih (fun c' hc' => hc c' (List.mem_cons_of_mem _ hc')) _
  exact (fold _ (fun c hc => List.mem_range.mp hc) _).trans (congrArg (fun acc => (List.range q).foldl (absorbChunk cfg u) acc) ha)

/-- `K0R` and `K1R` of a defined `KEY` (R29). -/
theorem State.keySeen_of_definedOn {s : State} (h : s.definedOn 0x040 0x060) :
    s.k0Seen = s.key.extractLsb' 0 128 ∧ s.k1Seen = s.key.extractLsb' 128 128 :=
  ⟨State.seenLane_of_definedOn _ h (by omega) (by omega), State.seenLane_of_definedOn _ h (by omega) (by omega)⟩

/-- Words that hold defined values keep them when more words are written. -/
theorem State.definedOn_of_sublist {s t : State} {a b : Nat} (hs : t.unspecified.Sublist s.unspecified)
    (h : s.definedOn a b) : t.definedOn a b :=
  fun x hx => h x (hs.subset hx)

/-- Writing lane registers marks nothing. -/
theorem State.setAcc_sublist (s : State) (count : Nat) (v : Bulk) :
    (s.setAcc count v).unspecified.Sublist s.unspecified := by
  rw [State.setAcc_unspecified]; exact s.define_sublist _ _

/-- Writing the first four lane registers marks nothing. -/
theorem State.setQuad_sublist (s : State) (q : Quad) : (s.setQuad q).unspecified.Sublist s.unspecified :=
  s.setAcc_sublist 4 _

/-- TAIL marks nothing, and leaves `DPAD` defined (R160). -/
theorem tailEffect_marks (cfg : Params) (n : Nat) (s : State) :
    (tailEffect cfg n s).unspecified.Sublist s.unspecified ∧ (tailEffect cfg n s).definedOn 0x100 0x140 := by
  have e : (tailEffect cfg n s).unspecified
      = ((s.setAcc (4 * (n / 64)) (absorbChunks cfg s (n / 64))).define 0x100 16).unspecified := by
    unfold tailEffect; exact State.setDpad_unspecified _ (whitenedPad cfg (s.mbufBytes (64 * (n / 64)) (n % 64)))
  refine ⟨e ▸ (State.define_sublist _ _ _).trans (State.setAcc_sublist _ _ _), fun x hx hh => ?_⟩
  rw [e] at hx
  have := (State.mem_define _ _ _ _).mp hx
  omega

/-- REKEY marks nothing (R174). -/
theorem rekeyEffect_sublist (s : State) : (rekeyEffect s).unspecified.Sublist s.unspecified := by
  unfold rekeyEffect
  split
  · exact s.setQuad_sublist _
  · exact List.Sublist.refl _

end Sys2Proof.Machine
end

