-- ==== Sys2Proof/Machine/Script.lean ====
section
/-!
DEFINITION. The script notation for host programs (30_encoding.md R77, R78): each line and each pseudo-instruction as the
accesses it stands for.
-/

namespace Sys2Proof.Machine

/-- `WR a, w` (R77). -/
def scriptWr (a : BitVec 12) (w : Word) : HostAccess := .write 32 a w

/-- `RD a` (R77). -/
def scriptRd (a : BitVec 12) : HostAccess := .read 32 a

/-- `CMD M field=value ...` (R77): the write of the command word to `CMD`. -/
def scriptCmd (i : Instr) : HostAccess := scriptWr 0x000 (encode i)

/-- `WR64 a, v` (R78). -/
def scriptWr64 (a : BitVec 12) (v : Half) : List HostAccess :=
  [scriptWr a (wordOf v 0), scriptWr (a + 4) (wordOf v 1)]

/-- `WR128 a, v` (R78). -/
def scriptWr128 (a : BitVec 12) (v : Lane) : List HostAccess :=
  (List.range 4).map fun k => scriptWr (a + BitVec.ofNat 12 (4 * k)) (wordOf v k)

/-- `RD128 a` (R78). -/
def scriptRd128 (a : BitVec 12) : List HostAccess := (List.range 4).map fun k => scriptRd (a + BitVec.ofNat 12 (4 * k))

/-- Word `w` of a byte string, least significant byte first, `0x00` past its end (R78). -/
def wordAt (bs : List Byte) (w : Nat) : Word :=
  BitVec.ofNat 32 (leValue ((List.range 4).map fun j => bs.getD (4 * w + j) 0))

/-- `LOADMSG b[0..m-1]` (R78). -/
def scriptLoadMsg (bs : List Byte) : List HostAccess :=
  (List.range ((bs.length + 3) / 4)).map fun w => scriptWr (BitVec.ofNat 12 (0x200 + 4 * w)) (wordAt bs w)

/-- `LOADKEY b[0..31]` (R78). -/
def scriptLoadKey (bs : List Byte) : List HostAccess :=
  (List.range 8).map fun w => scriptWr (BitVec.ofNat 12 (0x040 + 4 * w)) (wordAt bs w)

/-- `RDDIGEST` (R78). -/
def scriptRdDigest : List HostAccess := (List.range 8).map fun w => scriptRd (BitVec.ofNat 12 (0x060 + 4 * w))

end Sys2Proof.Machine
end

