-- ==== Sys2Proof/Machine/HostSoftware.lean ====
section
/-!
DEFINITION. The host software around the engine (47_host_sequences.md R205 to R224). NO PART OF THE HARDWARE (00_scope.md
R5): nothing of the machine uses this file. It says which accesses a conforming host makes, and how the document composes
digests of single hashes into the digest of a long input (log 15).
-/

namespace Sys2Proof.Machine

/-! ## Domain tags, requests, routing -/

/-- The domain tags of R205. -/
inductive DomainTag where
  | generic
  | fileChecksum
  | keyDerivation
  | messageAuth
  | databaseIndex
  | contentAddressed
  | leaf
  | node
  | user (id : BitVec 16)
deriving DecidableEq, Repr

/-- The value the host writes to `DOMAIN` for a tag (R205). -/
def DomainTag.value : DomainTag → Half
  | .generic => 0
  | .fileChecksum => 1
  | .keyDerivation => 2
  | .messageAuth => 3
  | .databaseIndex => 4
  | .contentAddressed => 5
  | .leaf => 0xFFFFFFFF00000000
  | .node => 0xFFFFFFFF00000001
  | .user id => 0x1000000000000000 ||| id.setWidth 64

/-- The arguments of `hash_full` (R206): domain, seed, optional 32-byte key. -/
structure HashArgs where
  domain : Half
  seed : Half
  key : Option (List Byte)
deriving DecidableEq, Repr

/-- Which user-supplied domains the host software takes (R205, R221): the six predefined ids, and never the Leaf and Node tags,
which 'must be unreachable from user domains'. DESIGN CHOICE (log 16): for every other value, raw user-custom values and
`6 .. 0x0FFFFFFFFFFFFFFF` among them, the source does not say (91_not_in_source.md N11), so the answer is the argument
`otherwise`. The engine itself takes every value (10_state.md R27). -/
def domainAccepted (otherwise : Half → Bool) (domain : Half) : Bool :=
  if domain = DomainTag.leaf.value ∨ domain = DomainTag.node.value then false
  else if domain ≤ DomainTag.contentAddressed.value then true else otherwise domain

/-- `hash_full` at the software boundary (R206): the arguments, or none where the boundary raises its argument error: a domain
outside the recognised ranges, a key that is not 32 bytes (R221). -/
def argsFull (otherwise : Half → Bool) (domain seed : Half) (key : Option (List Byte)) : Option HashArgs :=
  if domainAccepted otherwise domain = true ∧ key.all (fun k => k.length == 32) = true then some ⟨domain, seed, key⟩ else none

/-- `hash` (R206). -/
def argsHash : HashArgs := ⟨DomainTag.generic.value, 0, none⟩

/-- `hash_seeded` (R206). -/
def argsSeeded (seed : Half) : HashArgs := ⟨DomainTag.generic.value, seed, none⟩

/-- `hash_with_domain` (R206), for the domains `domainAccepted` takes; those the source leaves open are the caller's
`otherwise` (log 16). -/
def argsWithDomain (otherwise : Half → Bool) (domain : Half) : Option HashArgs := argsFull otherwise domain 0 none

/-- `hash_keyed` (R206): domain MessageAuth; the seed is not stated (91_not_in_source.md N12), so it is an argument. -/
def argsKeyed (seed : Half) (key : List Byte) : Option HashArgs :=
  argsFull (fun _ => false) DomainTag.messageAuth.value seed (some key)

/-- `derive_key` (R219): domain KeyDerivation, the material as the key; the seed is not stated. -/
def argsDeriveKey (seed : Half) (material : List Byte) : Option HashArgs :=
  argsFull (fun _ => false) DomainTag.keyDerivation.value seed (some material)

/-- The three ways of R207. -/
inductive Route where
  | short
  | bulk
  | tree
deriving DecidableEq, Repr

/-- The 256 KiB of a leaf chunk (R207, R210). -/
def leafBytes : Nat := 262144

/-- Routing of an input of `len` bytes (R207). -/
def route (len : Nat) (x : HashArgs) : Route :=
  if len < 64 ∧ x.seed = 0 ∧ x.key = none then .short else if len < leafBytes then .bulk else .tree

/-! ## Scripts of the two kernels -/

/-- The short path on the engine (R208). -/
def shortScript (domain : Half) (msg : List Byte) : List HostAccess :=
  scriptWr64 0x008 domain ++ scriptLoadMsg msg ++ [scriptCmd (.short msg.length)] ++ scriptRdDigest

/-- The direct bulk path on the engine (R209). -/
def bulkScript (x : HashArgs) (msg : List Byte) : List HostAccess :=
  scriptWr64 0x008 x.domain ++ scriptWr64 0x010 x.seed ++ (x.key.map scriptLoadKey).getD []
    ++ [scriptCmd (.init x.key.isSome)]
    ++ ((List.range (msg.length / 512)).map fun j =>
          scriptLoadMsg ((msg.drop (512 * j)).take 512) ++ [scriptCmd .compress]).flatten
    ++ scriptLoadMsg (msg.drop (512 * (msg.length / 512))) ++ [scriptCmd (.final (msg.length % 512))] ++ scriptRdDigest

/-- Perform accesses one after another and collect the words the reads return. -/
def perform : List HostAccess → State → List Word × State
  | [], s => ([], s)
  | x :: rest, s =>
    match step { s with pending := [x] } with
    | .next t =>
      let out := perform rest t
      match x with
      | .read _ _ => (t.rdata :: out.1, out.2)
      | .write _ _ _ | .reset => out
    | .fault _ | .refused _ => ([], s)

/-- The bytes of the words read, least significant first (20_memory.md R56). -/
def wordsToBytes (ws : List Word) : List Byte := ws.flatMap fun w => (List.range 4).map fun j => w.extractLsb' (8 * j) 8

/-- The digest the engine gives for an input on the direct bulk path, from a given state of the engine. -/
def bulkDigest (s : State) (x : HashArgs) (msg : List Byte) : List Byte := wordsToBytes (perform (bulkScript x msg) s).1

/-- The digest the engine gives for an input on the short path, from a given state of the engine. -/
def shortDigest (s : State) (domain : Half) (msg : List Byte) : List Byte := wordsToBytes (perform (shortScript domain msg) s).1

/-! ## The Merkle tree -/

/-- What the document leaves open of the tree's hashes (92_eei_decisions.md D46, 91_not_in_source.md N8; log 15). -/
structure TreeOptions where
  /-- `TREE_USES_SEED_KEY`. -/
  treeUsesSeedKey : Bool
  /-- `COMMIT_USES_SEED_KEY`. -/
  commitUsesSeedKey : Bool
  /-- `COMMIT_KERNEL`: always the bulk kernel, or by R207. -/
  commitAlwaysBulk : Bool
  /-- The kernel of a trailing leaf shorter than 64 bytes, which 'the source does not say' (95_test_vectors.md section 13,
  N8): always the bulk kernel, or by R207. DESIGN CHOICE (log 15): this option is the model's, beside the spec's three. -/
  leafAlwaysBulk : Bool
deriving DecidableEq, Repr

/-- The arguments of an inner hash: the user's seed and key, or none. -/
def innerArgs (useSeedKey : Bool) (domain : Half) (x : HashArgs) : HashArgs :=
  if useSeedKey then ⟨domain, x.seed, x.key⟩ else ⟨domain, 0, none⟩

/-- An inner hash: by the bulk kernel, or by the short one where `alwaysBulk` is off and R207 picks it. -/
def innerHash (alwaysBulk : Bool) (s : State) (a : HashArgs) (bs : List Byte) : List Byte :=
  if alwaysBulk = false ∧ route bs.length a = .short then shortDigest s a.domain bs else bulkDigest s a bs

/-- A leaf hash (R212, R215): the bulk kernel for every leaf of 64 bytes and more. DESIGN CHOICE (log 15): for a shorter trailing
leaf the kernel is open, and the option `leafAlwaysBulk` decides. -/
def leafHash (o : TreeOptions) (s : State) (x : HashArgs) (chunk : List Byte) : List Byte :=
  innerHash o.leafAlwaysBulk s (innerArgs o.treeUsesSeedKey DomainTag.leaf.value x) chunk

/-- `node(l || r)`, the bulk hash of the 64-byte string with domain Node (R213). -/
def nodeHash (o : TreeOptions) (s : State) (x : HashArgs) (l r : List Byte) : List Byte :=
  bulkDigest s (innerArgs o.treeUsesSeedKey DomainTag.node.value x) (l ++ r)

/-- A 64-bit value as 8 bytes, least significant first (20_memory.md R54). -/
def le64 (v : Half) : List Byte := (List.range 8).map fun j => v.extractLsb' (8 * j) 8

/-- The 48-byte commit block (R215). -/
def commitBlock (root : List Byte) (domain total : Half) : List Byte := root ++ le64 domain ++ le64 total

/-- The commit hash, with `DOMAIN = 0` and not the user's domain (R215, 90_conflicts.md C4); its kernel is the option
`commitAlwaysBulk` (log 15). -/
def commitHash (o : TreeOptions) (s : State) (x : HashArgs) (root : List Byte) (total : Half) : List Byte :=
  innerHash o.commitAlwaysBulk s (innerArgs o.commitUsesSeedKey 0 x) (commitBlock root x.domain total)

/-- `push` on the Merkle stack (R213, 90_conflicts.md C6): slot `i`, when occupied, holds a subtree of `2^i` leaves; the walk
goes up, combining with each occupied slot as the left half and clearing it, and stores at the first free one. -/
def merklePush {α : Type} (node : α → α → α) : List (Option α) → α → List (Option α)
  | [], h => [some h]
  | none :: rest, h => some h :: rest
  | some l :: rest, h => none :: merklePush node rest (node l h)

/-- The fold of R215 (2): from the lowest occupied slot up, each further slot the left half. -/
def merkleFold {α : Type} (node : α → α → α) : List (Option α) → Option α → Option α
  | [], running => running
  | none :: rest, running => merkleFold node rest running
  | some l :: rest, none => merkleFold node rest (some l)
  | some l :: rest, some r => merkleFold node rest (some (node l r))

/-- The streaming state (R210): a host structure and no engine state. The usage bits of the document are the occupied
slots of `stack`. -/
structure Stream where
  args : HashArgs
  buffer : List Byte
  total : Half
  stack : List (Option (List Byte))
  finalized : Bool
deriving DecidableEq, Repr

/-- `new` (R211). -/
def streamNew (x : HashArgs) : Stream := ⟨x, [], 0, [], false⟩

/-- One byte of `update` (R212): when the buffer fills it is hashed as a leaf and pushed. -/
def streamByte (o : TreeOptions) (s : State) (st : Stream) (b : Byte) : Stream :=
  let buffer := st.buffer ++ [b]
  let st := { st with total := st.total + 1 }
  if buffer.length = leafBytes then
    { st with buffer := [], stack := merklePush (nodeHash o s st.args) st.stack (leafHash o s st.args buffer) }
  else { st with buffer := buffer }

/-- `update` (R211, R212): refused after `finalize`. -/
def streamUpdate (o : TreeOptions) (s : State) (st : Stream) (bs : List Byte) : Option Stream :=
  if st.finalized then none else some (bs.foldl (streamByte o s) st)

/-- The digest of `finalize`: the fast path with an empty stack (R214), the tree path otherwise (R215). -/
def streamDigest (o : TreeOptions) (s : State) (st : Stream) : List Byte :=
  if st.stack = [] then
    if route st.buffer.length st.args = .short then shortDigest s st.args.domain st.buffer else bulkDigest s st.args st.buffer
  else
    let node := nodeHash o s st.args
    let stack := if st.buffer = [] then st.stack else merklePush node st.stack (leafHash o s st.args st.buffer)
    commitHash o s st.args ((merkleFold node stack none).getD []) st.total

/-- `finalize` (R211): refused after `finalize`. -/
def streamFinalize (o : TreeOptions) (s : State) (st : Stream) : Option (List Byte × Stream) :=
  if st.finalized then none else some (streamDigest o s st, { st with finalized := true })

/-- `hash_full`, which equals the streaming `new`, `update`, `finalize` of the whole input (R206, R214). -/
def hashFull (o : TreeOptions) (s : State) (x : HashArgs) (msg : List Byte) : List Byte :=
  streamDigest o s (msg.foldl (streamByte o s) (streamNew x))

/-! ## Helpers -/

/-- The equality fold of `verify` on two strings of 32 bytes (R206, R221): the XOR of each pair of bytes goes into one accumulator,
the result is exactly 0 or 1 (R218). DEDUCED (log 17): 'XORs all byte differences into one accumulator' is read as a gathering by
OR of the bytes' XORs; an accumulator that is itself an XOR could cancel, against R222's `verify(x, y) == false`. -/
def equalityFold (a b : List Byte) : Nat :=
  if (List.zipWith (fun x y => x ^^^ y) a b).foldl (fun acc d => acc ||| d) 0 = 0 then 1 else 0

/-- The codes of the C ABI (R220). -/
inductive AbiCode where
  | success
  | nullPointer
  | internalError
deriving DecidableEq, Repr

/-- Their values (R220). -/
def AbiCode.value : AbiCode → Int
  | .success => 0
  | .nullPointer => -1
  | .internalError => -2

end Sys2Proof.Machine
end

