-- ==== Sys2Proof/Tests/Slice0.lean ====
section
/-!
SUPPORT. Tests: ill-formed terms, decoding of words written out from the spec, one step of each command against the vectors
of 95_test_vectors.md and 97_kernel_vectors.md, and for each obligation with hypotheses a state and operands that meet them
(`witness_<obligation>`).
-/

namespace Sys2Proof.Tests

-- Each of many kernel evaluations at once would take a thread with a large stack.
set_option Elab.async false

open Sys2Proof Sys2Proof.Machine

/-! ## Well-formedness -/

theorem test_wf_refuses_short_65536 : (Instr.short 65536).wf = false := by decide
theorem test_wf_refuses_tail_65536 : (Instr.tail 65536).wf = false := by decide
theorem test_wf_refuses_final_65536 : (Instr.final 65536).wf = false := by decide
theorem test_wf_keeps_final_65535 : (Instr.final 65535).wf = true := by decide

/-! ## Decoding: every row of 30_encoding.md R73, its word written out as `n`, `f`, `op` (V90) -/

theorem test_decode_nop : decode 0b0000000000000000_00000000_00000000 = .command .nop := by decide
theorem test_decode_clrerr : decode 0b0000000000000000_00000000_00000001 = .command .clrerr := by decide
theorem test_decode_sreset : decode 0b0000000000000000_00000000_00000010 = .command .sreset := by decide
theorem test_decode_subb : decode 0b0000000000000000_00000000_00010000 = .command .subb := by decide
theorem test_decode_shrow : decode 0b0000000000000000_00000000_00010001 = .command .shrow := by decide
theorem test_decode_mixc : decode 0b0000000000000000_00000000_00010010 = .command .mixc := by decide
theorem test_decode_aesr : decode 0b0000000000000000_00000000_00010011 = .command .aesr := by decide
theorem test_decode_clmul : decode 0b0000000000000000_00000001_00010100 = .command (.clmul true false) := by decide
theorem test_decode_xor : decode 0b0000000000000000_00000000_00010101 = .command .xor := by decide
theorem test_decode_add64 : decode 0b0000000000000000_00000000_00010110 = .command .add64 := by decide
theorem test_decode_short : decode 0b0000000000111111_00000000_00100000 = .command (.short 63) := by decide
theorem test_decode_init : decode 0b0000000000000000_00000001_00110000 = .command (.init true) := by decide
theorem test_decode_compress : decode 0b0000000000000000_00000000_00110001 = .command .compress := by decide
theorem test_decode_tail : decode 0b0000000111111111_00000000_01000000 = .command (.tail 511) := by decide
theorem test_decode_merge : decode 0b0000000000000000_00000000_01000001 = .command .merge := by decide
theorem test_decode_harden : decode 0b0000000000000000_00000000_01000010 = .command .harden := by decide
theorem test_decode_fblock : decode 0b0000000000000000_00000000_01000011 = .command .fblock := by decide
theorem test_decode_rekey : decode 0b0000000000000000_00000000_01000100 = .command .rekey := by decide
theorem test_decode_reduce : decode 0b0000000000000000_00000000_01000101 = .command .reduce := by decide
theorem test_decode_final : decode 0b0000000001011000_00000000_01001111 = .command (.final 88) := by decide

/-- V90-15: a length outside its range decodes. -/
theorem test_decode_short_65535 : decode 0xFFFF0020 = .command (.short 65535) := by decide

/-- V90-10, 11, 16, 19, 20, 22, 23, 33: a reserved bit set. -/
theorem test_decode_reserved_bits :
    decode 0x00000414 = .illegal .reservedBit ∧ decode 0x00010014 = .illegal .reservedBit
      ∧ decode 0x00000120 = .illegal .reservedBit ∧ decode 0x00000230 = .illegal .reservedBit
      ∧ decode 0x00010030 = .illegal .reservedBit ∧ decode 0x00010031 = .illegal .reservedBit
      ∧ decode 0x00000131 = .illegal .reservedBit ∧ decode 0x0000014F = .illegal .reservedBit := by decide

/-- V90-29, 30, 34 to 40: an unassigned opcode. -/
theorem test_decode_unassigned :
    decode 0x00000046 = .illegal .unassignedOp ∧ decode 0x0000004E = .illegal .unassignedOp
      ∧ decode 0x00000003 = .illegal .unassignedOp ∧ decode 0x00000017 = .illegal .unassignedOp
      ∧ decode 0x00000021 = .illegal .unassignedOp ∧ decode 0x00000050 = .illegal .unassignedOp
      ∧ decode 0x00000099 = .illegal .unassignedOp ∧ decode 0x000000FF = .illegal .unassignedOp
      ∧ decode 0xFFFFFFFF = .illegal .unassignedOp := by decide

theorem test_encode_final_88 : encode (.final 88) = 0x0058004F := by decide
theorem test_encode_clmul_sb : encode (.clmul false true) = 0x00000214 := by decide

/-! ## Small states -/

/-- The configuration TCFG-A of 95_test_vectors.md section 3, an invented one. -/
def tcfg : Params where
  phi := 0x9E3779B97F4A7C15
  c := Vector.ofFn fun i => BitVec.ofNat 64 ((i + 1) * 0x0123456789ABCDEF)
  w0 := 0x1111111111111111
  w1 := 0x2222222222222222
  k1 := 0x87
  k2 := 0xC200000000000001
  laneOffset := Vector.ofFn fun i => BitVec.ofNat 64 ((i + 1) * 0x1000000000000001)
  rk := Vector.ofFn fun r => pair (0xA5A5A5A5A5A5A5A5 ^^^ BitVec.ofNat 64 r) (0x5A5A5A5A5A5A5A5A + BitVec.ofNat 64 r)
  shortInit := #v[0xAAF91D032F0BF2D2FE7C9E8B3BB50080, 0xAB239BE0259CC2F803B5822A25D6912F,
    0x6202D4CDEE11275E469435ABE2B5284A, 0xE30CFFE7716129BDCB1BEFEBCD0D20A6]

/-- `pat(n)` of 95_test_vectors.md section 3. -/
def pat (n : Nat) : List Byte := (List.range n).map fun j => BitVec.ofNat 8 (7 * j + 3)

/-- A state of which every register word has been written, in a phase. -/
def written (p : Phase) : State := { State.reset with phase := p, unspecified := [] }

/-- A state whose buffer holds a message from offset 0. -/
def withMsg (s : State) (bs : List Byte) : State := { s with mbuf := bs.mapIdx fun j b => (0x200 + j, b) }

/-- A state with two operands. -/
def operands (a b : Lane) : State := { written .idle with opa := a, opb := b }

/-- The state a command leaves. -/
def after (o : Host.Outcome State Fault Refusal) : State :=
  match o with
  | .next t => t
  | .fault _ | .refused _ => State.reset

/-- A state about to perform one access of the host. -/
def about (s : State) (x : HostAccess) : State := { s with pending := [x] }

/-- A state about to run a command word. -/
def aboutCmd (s : State) (w : Word) : State := about s (.write 32 0x000 w)

/-- The digest as a byte string read as a number, byte 0 first, the way the spec prints it. -/
def digestHex (x : BitVec 256) : Nat := (List.range 32).foldl (fun v j => v * 256 + (x.extractLsb' (8 * j) 8).toNat) 0

/-- `ACC[i] = i + 1`, as in V71 and V76. -/
def countingLanes : Bulk := Vector.ofFn fun i => BitVec.ofNat 128 (i.val + 1)

/-- `K0R` and `K1R` of `key32`. -/
def key32 : BitVec 256 := 0x1F1E1D1C1B1A191817161514131211100F0E0D0C0B0A09080706050403020100

/-! ## Lane primitives: V3, V6, V8, V10, V20, V28, V29, V33, V35, V36 -/

theorem test_subb : (after (exec .subb (operands 0x0F0E0D0C0B0A09080706050403020100 0))).res
    = 0x76ABD7FE2B670130C56F6BF27B777C63 := by decide +kernel
theorem test_subb_aes_round_1 : (after (exec .subb (operands 0x0848F8E92A8DC69A2BE2F4A0BEE33D19 0))).res
    = 0x3052411EE55DB4B8F198BFE0AE1127D4 := by decide +kernel
theorem test_shrow : (after (exec .shrow (operands 0x0F0E0D0C0B0A09080706050403020100 0))).res
    = 0x0B06010C07020D08030E09040F0A0500 := by decide +kernel
theorem test_shrow_aes_round_1 : (after (exec .shrow (operands 0x3052411EE55DB4B8F198BFE0AE1127D4 0))).res
    = 0xE598271EF11141B8AE52B4E0305DBFD4 := by decide +kernel
theorem test_mixc : (after (exec .mixc (operands 0x0F0E0D0C0B0A09080706050403020100 0))).res
    = 0x090C0B0E0D080F0A0104030605000702 := by decide +kernel
theorem test_mixc_aes_round_1 : (after (exec .mixc (operands 0xE598271EF11141B8AE52B4E0305DBFD4 0))).res
    = 0x4C2606287AD3F8489A19CBE0E5816604 := by decide +kernel
theorem test_aesr : (after (exec .aesr (operands 0x7B5B54657374566563746F725D53475D 0x48692853686179295B477565726F6E5D))).res
    = 0xA8311C2F9FDBA3C58B104B58DED7E595 := by decide +kernel
theorem test_aesr_aes_round_1 :
    (after (exec .aesr (operands 0x0848F8E92A8DC69A2BE2F4A0BEE33D19 0x05766C2A3939A323B12C548817FEFAA0))).res
      = 0x49506A0243EA5B6B2B359F68F27F9CA4 := by decide +kernel
theorem test_clmul_sb : (after (exec (.clmul false true)
    (operands 0x0123456789ABCDEFDEADBEEFCAFEBABE 0x0123456789ABCDEFDEADBEEFCAFEBABE))).res
      = 0x00C42FDE8B6B5592F099825FE2AF618A := by decide +kernel
theorem test_clmul_high_halves : (after (exec (.clmul true true)
    (operands 0x80000000000000000000000000000005 0x80000000000000000000000000000007))).res
      = 0x40000000000000000000000000000000 := by decide +kernel
theorem test_xor : (after (exec .xor (operands 0x0F0E0D0C0B0A09080706050403020100 0xFFFFFFFFFFFFFFFFFFFFFFFFFFFFFFFF))).res
    = 0xF0F1F2F3F4F5F6F7F8F9FAFBFCFDFEFF := by decide +kernel
theorem test_add64_wraps : (after (exec .add64 (operands 0x7FFFFFFFFFFFFFFF8000000000000000 0x00000000000000018000000000000000))).res
    = 0x80000000000000000000000000000000 := by decide +kernel
theorem test_add64_drops_carry : (after (exec .add64 (operands 0x0000000000000000FFFFFFFFFFFFFFFF 1))).res = 0 := by
  decide +kernel

/-! ## Kernels under TCFG-A: V44, V54, V60, V71, V72-64, V74, V75, V76, V78, V79, V82 -/

theorem test_short_63 :
    digestHex (after (command (.short 63) (withMsg (written .done) ((List.range 63).map (BitVec.ofNat 8))) (shortEffect tcfg 63))).digest
      = 0xdcdc22449d306b63215bd9f19dd9b0ea756b8b0760b024d672e1adc1ae591409 := by decide +kernel
theorem test_init_seeded_and_keyed :
    let t := after (command (.init true) { written .done with seed := 7, key := key32 } (initEffect tcfg true))
    t.acc[5] = 0x14B5507CDE725F52CFF6C0F6BA75BF5B ∧ t.acc[31] = 0xAED6B51082F028A8B17080E7AE73624D ∧ t.status = 0x00000009 := by
  decide +kernel

/-- V60: data word 4 of the block, and `ACC[0]` after the first round, which takes that word; the whole block is too long
for the kernel in one piece. -/
theorem test_compress_first_round :
    let d : Lane := 0x87490FDA1AF9342B222541F10E204AB4
    (blockWords tcfg (withMsg (written .absorb) (pat 80)))[4] = d
      ∧ (bulkRound tcfg 0 0 (bulkInit tcfg 0 false 0 0, Vector.replicate 32 d) 0).1[0] = 0x65DC1FBF8AAD11A4237150EC26FBA4CC := by
  decide +kernel

/-- 43_bulk_compress.md R149 to R151 by hand on `ACC[i] = i + 1`, and the counters of R154. -/
theorem test_compress_moves_and_counters :
    (rotateElems countingLanes)[3] = 1 ∧ (butterflyHalves countingLanes)[0] = 16 ∧ (butterflyHalves countingLanes)[16] = 18
      ∧ (butterflyPairs countingLanes)[20] = 21 ^^^ 29 ∧ (butterflyPairs countingLanes)[28] = 50
      ∧ (compressEffect tcfg { written .absorb with blk := 1, len := 512 }).blk = 2
      ∧ (compressEffect tcfg { written .absorb with blk := 1, len := 512 }).len = 1024 := by decide +kernel
theorem test_tail_130 :
    let t := after (command (.tail 130) (withMsg { written .absorb with acc := countingLanes } (pat 130)) (tailEffect tcfg 130))
    t.acc[7] = 0x402B9F64B3C09CED63982AC0E01D9789 ∧ t.acc[8] = 9 ∧ t.dpad[0] = 0x5C5C7B66EF06A8EF72727272F8FDFD77
      ∧ t.len = 130 := by decide +kernel
theorem test_merge :
    let t := after (command .merge { written .tailed with acc := countingLanes } (mergeEffect tcfg))
    t.acc[0] = 0xB50D5F65C837D4A72082839215E1B9B7 ∧ t.acc[4] = 0x2E65D91F5CD03529CFACF2DC2DFC2273
      ∧ t.acc[8] = 0x5AEE40C6A292BFB0A9C039ED6654F1A0 ∧ t.acc[16] = 0x11 := by decide +kernel
theorem test_harden :
    let t := after (command .harden { written .merged with acc := countingLanes } (hardenEffect tcfg))
    t.acc[3] = 0x776677664997626BF5E4F5E4638473CC ∧ t.acc[4] = 5 := by decide +kernel
theorem test_fblock :
    let s := { written .hardened with acc := countingLanes, dpad := #v[5, 6, 7, 8], len := 600, domain := 3 }
    let t := after (command .fblock s (fblockEffect tcfg))
    t.acc[0] = 0xDA9899F9794F8E047C4992375D2173AD ∧ t.dpad = s.dpad := by decide +kernel
theorem test_rekey_keyed :
    let t := after (exec .rekey { written .committed with acc := countingLanes, key := key32, keyv := true })
    t.acc[0] = 0x1F43BA5EE61A1AA20B9DE17215AA1A43 ∧ t.acc[3] = 0x07F2E7AA12C5FB545AA64843B3E23C76 := by decide +kernel
theorem test_rekey_unkeyed :
    exec .rekey { written .committed with acc := countingLanes, key := key32 }
      = .next { written .rekeyed with acc := countingLanes, key := key32 } := rfl
theorem test_reduce :
    digestHex (after (command .reduce { written .rekeyed with acc := countingLanes } (reduceEffect tcfg))).digest
      = 0x1c681feca6ccb7f1306d683b69f57ca2fce4f2ee59f224ddd1463f84ad4f447b := by decide +kernel
theorem test_final_64 :
    let s := withMsg { written .absorb with acc := bulkInit tcfg 0 false 0 0 } (pat 64)
    let t := after (command (.final 64) s (finalEffect tcfg 64))
    digestHex t.digest = 0x0644d5a8be08939e1cc747e6d2ac8861f544b0407701478e9ac57c3c53826664 ∧ t.status = 7 := by
  decide +kernel

/-! ## Housekeeping and refusals, one step from a state each: V92, V93, V95 to V97, V99 to V102, V107, V110 to V112 -/

theorem test_nop : step (aboutCmd State.reset 0x00000000) = .next { State.reset with draw := 1 } := rfl
theorem test_clrerr : (after (step (aboutCmd { State.reset with err := .state } 0x00000001))).status = 0x00000000 := by
  decide +kernel
theorem test_sreset_forgets_domain :
    (after (step (aboutCmd { written .absorb with err := .state, domain := 5 } 0x00000002)))
      = { State.reset with draw := 1 } := by decide +kernel
theorem test_illegal_word : (after (step (aboutCmd State.reset 0x00000099))).status = 0x00000010 := by decide +kernel
theorem test_short_64_raises_arg : (after (step (aboutCmd State.reset 0x00400020))).status = 0x00000030 := by decide +kernel
theorem test_final_512_in_idle_raises_state : (after (step (aboutCmd State.reset 0x0200004F))).status = 0x00000020 := by
  decide +kernel
theorem test_merge_in_absorb : (after (step (aboutCmd (written .absorb) 0x00000041))).status = 0x00000021 := by
  decide +kernel
theorem test_init_ignored_under_err : (after (step (aboutCmd { State.reset with err := .state } 0x00000030))).status = 0x00000020 := by
  decide +kernel
theorem test_err_keeps_first_code : (after (step (aboutCmd { State.reset with err := .state } 0x00000099))).status = 0x00000020 := by
  decide +kernel
theorem test_read_of_cmd : (after (step (about State.reset (.read 32 0x000)))).status = 0x00000040 := by decide +kernel
theorem test_write_of_status : (after (step (about State.reset (.write 32 0x004 1)))).status = 0x00000040 := by decide +kernel
theorem test_read_of_reserved : (after (step (about State.reset (.read 32 0x028)))).status = 0x00000040 := by decide +kernel

/-- 20_memory.md R51: a 64-bit write of `DOMAIN` is refused and stores nothing. -/
theorem test_wide_write_refused :
    after (step (about State.reset (.write 64 0x008 7))) = { State.reset with err := .bus, draw := 1 } := by decide +kernel

/-- 20_memory.md R53: the word at `0x00C` is bits 63:32 of `DOMAIN`. -/
theorem test_write_domain_high : (after (step (about State.reset (.write 32 0x00C 0xFFFFFFFF)))).domain = 0xFFFFFFFF00000000 := by
  decide +kernel

/-- 20_memory.md R52, R53: the word at `0x414` is bits 63:32 of `ACC[1]`. -/
theorem test_write_acc_word :
    (after (step (about (written .idle) (.write 32 0x414 0xDEADBEEF)))).acc[1] = 0x0000000000000000DEADBEEF00000000 := by
  decide +kernel

/-- The opcode-table bridge: FINAL n=88 from its row. -/
theorem test_table_word : decodeTableWord 32 0x0058004F = some (.final 88) := by decide +kernel

/-- 'Sent as' of 30_encoding.md R77: the line `CMD FINAL n=88` is the write of `0x0058004F`. -/
theorem test_script_cmd : scriptCmd (.final 88) = .write 32 0x000 0x0058004F := by decide +kernel

/-- LOADMSG of "abc" writes the one word `0x00636261` (30_encoding.md R78, V40). -/
theorem test_script_loadmsg : scriptLoadMsg [0x61, 0x62, 0x63] = [.write 32 0x200 0x00636261] := by decide +kernel

/-- R205: the Leaf and Node tags are no user domains, whatever is chosen for the values the source leaves open (log 16). -/
theorem test_leaf_and_node_tags_refused :
    argsWithDomain (fun _ => true) 0xFFFFFFFF00000000 = none ∧ argsWithDomain (fun _ => true) 0xFFFFFFFF00000001 = none := by
  decide

/-- R205: the last predefined id is taken, and the first value the source leaves open is the caller's to decide. -/
theorem test_predefined_domains_taken :
    argsWithDomain (fun _ => false) 5 = some ⟨5, 0, none⟩ ∧ argsWithDomain (fun _ => false) 6 = none
      ∧ argsWithDomain (fun _ => true) 6 = some ⟨6, 0, none⟩ := by decide

/-! ## Witnesses: the hypotheses of each obligation are met together -/

/-- A read or a write of a window address about to be performed in a fresh state. -/
def busState (x : HostAccess) : State := about (written .idle) x

/-- A state in which everything has been written: no mark, and all 512 bytes of `MBUF` listed. -/
def fullState : State := { written .rekeyed with mbuf := (List.range 512).map fun k => (0x200 + k, 0) }

theorem witness_EveryCommandDecodesFromItsWord : (Instr.final 65535).wf = true ∧ (Instr.clmul true true).wf = true := by decide
theorem witness_EveryDecodedWordIsTheWordOfItsCommand :
    decode 0x00000314 = .command (.clmul true true) ∧ decode 0xFFFF0040 = .command (.tail 65535) := by decide
theorem witness_DecodingFollowsTheOpcodeTable :
    decode 0x01FF0040 = .command (.tail 511) ∧ decode 0x00000414 = .illegal .reservedBit
      ∧ decode 0x00000050 = .illegal .unassignedOp := by decide
theorem witness_StepRunsTheDecodedCommand :
    (aboutCmd (written .absorb) 0x01FF0040).pending = [.write 32 0x000 0x01FF0040] ∧ decode 0x01FF0040 = .command (.tail 511)
      ∧ (Instr.tail 511).wf = true := by decide

/-- Both kinds of word no row covers, and the ends of the ranges of unassigned opcodes. -/
theorem witness_IllegalWordsAreRefused :
    (aboutCmd State.reset 0x00000099).pending = [.write 32 0x000 0x00000099]
      ∧ opcodeMap.all (fun r => !r.covers 0x00000099) = true ∧ opcodeMap.all (fun r => !r.covers 0x00010031) = true
      ∧ [0x03, 0x0F, 0x17, 0x1F, 0x21, 0x2F, 0x32, 0x3F, 0x46, 0x4E, 0x50, 0xFF].map (fun n => (opField (BitVec.ofNat 32 n)).toNat)
        = [0x03, 0x0F, 0x17, 0x1F, 0x21, 0x2F, 0x32, 0x3F, 0x46, 0x4E, 0x50, 0xFF] := by decide +kernel

/-- One witness per clause: a gated command, an illegal word under ERR, a read and a write at the ends of the window. -/
theorem witness_ErrGatesEveryOtherCommand :
    { State.reset with err := .bus }.err ≠ .none ∧ Instr.compress ≠ .clrerr ∧ Instr.compress ≠ .sreset
      ∧ decode 0x00000099 = .illegal .unassignedOp
      ∧ (aboutCmd { State.reset with err := .bus } 0x00000099).pending = [.write 32 0x000 0x00000099]
      ∧ readTarget 32 0x008 = some (.domain, 0) ∧ readTarget 32 0x5FC = some (.acc, 127) ∧ Reg.acc ≠ .status
      ∧ writeTarget 32 0x5FC = some (.acc, 127) ∧ Reg.acc ≠ .cmd := by decide +kernel

/-- One phase that serves every clause: IDLE is none of theirs. -/
theorem witness_WrongPhaseRaisesState :
    State.reset.err = .none ∧ State.reset.phase ≠ .absorb ∧ State.reset.phase ≠ .tailed ∧ State.reset.phase ≠ .merged
      ∧ State.reset.phase ≠ .hardened ∧ State.reset.phase ≠ .committed ∧ State.reset.phase ≠ .rekeyed := by decide

theorem witness_LengthOutOfRangeRaisesArg :
    (written .absorb).err = .none ∧ 63 < 64 ∧ 511 < 512 ∧ (written .absorb).phase = .absorb := by decide

theorem witness_ErrKeepsTheFirstCode :
    let s := aboutCmd { State.reset with err := .bus } 0x00000001
    s.err ≠ .none ∧ step s = .next { State.reset with draw := 1 } := ⟨by decide, rfl⟩

theorem witness_PhaseMovesOnlyByItsCommands :
    let s := aboutCmd (written .committed) 0x00000044
    step s = .next { written .rekeyed with draw := 1 } ∧ ({ written .rekeyed with draw := 1 } : State).phase ≠ s.phase :=
  ⟨rfl, by decide⟩

theorem witness_ClrerrClearsErrOnly : State.reset.err = .none := rfl
theorem witness_SresetIsAHardwareReset : (about (written .absorb) .reset).pending = [.reset] := rfl
theorem witness_SubBytesIsTheAesSbox : 15 < 16 ∧ (0x01 : Byte) ≠ 0 ∧ (0xFF : Byte) ≠ 0 := by decide
theorem witness_ShiftRowsRotatesRowsLeft : 3 < 4 ∧ 0 < 4 := by decide
theorem witness_MixColumnsIsTheAesMatrix : 3 < 4 ∧ 0 < 4 := by decide
theorem witness_ClmulIsThePolynomialProduct : 127 < 128 ∧ 0 < 128 := by decide

/-- The longest message, with its last byte, its sentinel; and a short one with a zero after its sentinel. -/
theorem witness_PaddingPutsTheSentinelAfterTheMessage :
    (pat 63).length ≤ 63 ∧ 16 * 3 + 14 < (pat 63).length ∧ 16 * 3 + 15 = (pat 63).length ∧ 15 < 16
      ∧ ¬ 16 * 0 + 4 < (pat 3).length ∧ 16 * 0 + 4 ≠ (pat 3).length := by decide +kernel

theorem witness_SubbWritesSubBytesOfOpa : (operands 1 2).err = .none := rfl
theorem witness_ShrowWritesShiftRowsOfOpa :
    (operands 1 2).err = .none ∧ (List.range 16).all (fun n => byte (0xABABABABABABABABABABABABABABABAB : Lane) n
      == byte (0xABABABABABABABABABABABABABABABAB : Lane) 0) = true := by decide +kernel
theorem witness_MixcWritesMixColumnsOfOpa :
    (operands 1 2).err = .none ∧ (List.range 4).all (fun r => byte (0x01010101C6C6C6C60101010101010101 : Lane) (4 * 2 + r)
      == byte (0x01010101C6C6C6C60101010101010101 : Lane) (4 * 2)) = true := by decide +kernel
theorem witness_AesrWritesTheAesRound : (operands 1 2).err = .none := rfl
theorem witness_ClmulWritesTheSelectedProduct : (operands 1 2).err = .none := rfl
theorem witness_XorWritesTheBitwiseXor : (operands 5 5).err = .none ∧ (operands 5 5).opaSeen = (operands 5 5).opbSeen := by
  decide +kernel
theorem witness_Add64WritesTheLanewiseSum : (operands 1 2).err = .none := rfl

theorem witness_ShortHashesTheMessage : (written .rekeyed).err = .none ∧ 63 ≤ 63 ∧ 3 < 4 ∧ 31 < 32 := by decide
theorem witness_ShortKernelFollowsItsSteps : 3 < 4 ∧ 0 < 4 := by decide

/-- Two states that differ in phase, lanes and further bytes of the buffer, and agree on what SHORT reads. -/
theorem witness_ShortIgnoresAllOtherState :
    let s := withMsg (written .idle) (pat 3)
    let u := withMsg { written .rekeyed with acc := countingLanes, seed := 9 } (pat 5)
    s ≠ u ∧ s.err = .none ∧ u.err = .none ∧ 3 ≤ 63 ∧ s.domain = u.domain
      ∧ (List.range 3).map s.mbufByte = (List.range 3).map u.mbufByte := by decide +kernel

theorem witness_InitFillsSeedsAndKeysEveryLane : (written .done).err = .none ∧ 7 < 8 ∧ 3 < 4 := by decide
theorem witness_KeyHasNoEffectOnAnUnkeyedHash :
    (written .absorb).keyv = false ∧ Instr.final 5 ≠ .init true ∧ Instr.final 5 ≠ .sreset ∧ Instr.init false ≠ .init true := by
  decide
theorem witness_CompressAbsorbsOneBlock : (written .absorb).err = .none ∧ (written .absorb).phase = .absorb ∧ 31 < 32 := by decide
theorem witness_BulkRoundFollowsItsSubsteps : 7 < 8 ∧ 3 < 4 := by decide
theorem witness_BulkMixingFollowsItsFormulas : 3 < 4 ∧ 7 < 8 ∧ (5, 7) ∈ [(0, 2), (1, 3), (4, 6), (5, 7)] := by decide
theorem witness_CompressReadsOnlyLanesBlockAndIndex :
    let s := written .absorb
    let u := { written .absorb with domain := 7, seed := 5, key := 3, keyv := true, len := 9, dpad := #v[1, 2, 3, 4] }
    let z := fun x : State => { x with mbuf := fullState.mbuf }
    z s ≠ z u ∧ (z s).err = .none ∧ (z u).err = .none ∧ (z s).phase = .absorb ∧ (z u).phase = .absorb
      ∧ (z s).accSeen = (z u).accSeen ∧ (z s).mbuf = (z u).mbuf ∧ (z s).blk = (z u).blk
      ∧ (List.range 512).all (fun k => (Memory.find (z s).mbuf (0x200 + k)).isSome) = true := by decide +kernel

/-- The longest tail: seven chunks and the last lane registers left; and the shortest: none. -/
theorem witness_TailAbsorbsChunksAndPadsTheRest :
    (written .absorb).err = .none ∧ (written .absorb).phase = .absorb ∧ 511 ≤ 511 ∧ 6 < 511 / 64 ∧ 4 * (511 / 64) ≤ 28
      ∧ ¬ 0 < 0 / 64 := by decide
theorem witness_MergeFoldsThirtyTwoLanesToFour : (written .tailed).err = .none ∧ (written .tailed).phase = .tailed := by decide
theorem witness_HardenMixesFourLanesWithClmul :
    (written .merged).err = .none ∧ (written .merged).phase = .merged ∧ tcfg.k1 = 0x87 ∧ tcfg.k2 = 0xC200000000000001 := by decide
theorem witness_FblockCommitsLengthAndDomain : (written .hardened).err = .none ∧ (written .hardened).phase = .hardened := by decide
theorem witness_FinalRoundFollowsItsSubsteps : 3 < 4 ∧ 0 < 4 := by decide
theorem witness_RekeyFiresExactlyWhenKeyed :
    (written .committed).err = .none ∧ (written .committed).phase = .committed ∧ (written .committed).keyv = false
      ∧ ({ written .committed with keyv := true } : State).keyv = true := by decide
theorem witness_ReduceWritesTheDigest : (written .rekeyed).err = .none ∧ (written .rekeyed).phase = .rekeyed := by decide

/-- A FINAL that runs at both ends of its range, and one refused by each clause. -/
theorem witness_FinalIsTheSixStagesInOrder :
    (written .absorb).err = .none ∧ (written .absorb).phase = .absorb ∧ 511 ≤ 511 ∧ 0 ≤ 511 ∧ (written .done).phase ≠ .absorb
      ∧ 511 < 512 := by decide

/-- Each clause at the ends of its ranges of addresses. -/
theorem witness_RefusedAccessesRecordBus :
    (busState (.read 32 0x600)).pending = [.read 32 0x600] ∧ (busState (.write 32 0x0AC 1)).pending = [.write 32 0x0AC 1]
      ∧ (∀ a ∈ [0x000, 0x028, 0x03C, 0x040, 0x05C, 0x0B0, 0x0FC, 0x140, 0x1FC, 0x600, 0xFFC], readRefused 32 a)
      ∧ readRefused 16 0x008 ∧ readRefused 32 0x009
      ∧ (∀ a ∈ [0x004, 0x024, 0x060, 0x0AC, 0x100, 0x13C, 0x200, 0x3FC, 0x400, 0x5FC], ¬ readRefused 32 a)
      ∧ (∀ a ∈ [0x004, 0x028, 0x03C, 0x060, 0x07C, 0x0A0, 0x0FC, 0x140, 0x1FC, 0x600, 0xFFC], writeRefused 32 a)
      ∧ writeRefused 64 0x008 ∧ writeRefused 32 0x00A
      ∧ (∀ a ∈ [0x008, 0x024, 0x040, 0x05C, 0x080, 0x09C, 0x100, 0x13C, 0x200, 0x3FC, 0x400, 0x5FC], ¬ writeRefused 32 a)
      ∧ (0x008 : BitVec 12) ≠ 0x000 := by
  refine ⟨rfl, rfl, ?_, ?_, ?_, ?_, ?_, ?_, ?_, ?_, by decide⟩ <;> first | (unfold readRefused; decide) | (unfold writeRefused; decide)

/-- Words that hold a defined value, at the ends of the readable ranges. -/
theorem witness_RefusedAccessesRecordBus_defined :
    (about fullState (.read 32 0x5FC)).pending = [.read 32 0x5FC]
      ∧ ∀ a ∈ [0x004, 0x024, 0x060, 0x0AC, 0x100, 0x13C, 0x200, 0x3FC, 0x400, 0x5FC], fullState.definedAt a := by
  unfold State.definedAt State.mbufWritten; decide +kernel

/-- A marked register word at each end, and bytes of `MBUF` at both ends that nothing has written. -/
theorem witness_UnwrittenStorageReadsAsAFreeDraw :
    (about State.reset (.read 32 0x060)).pending = [.read 32 0x060]
      ∧ (∀ a ∈ [0x060, 0x0AC, 0x100, 0x13C, 0x400, 0x5FC], a ∈ State.reset.unspecified ∧ ¬ readRefused 32 a)
      ∧ (∀ a ∈ [0x200, 0x3FC], ¬ readRefused 32 a)
      ∧ ¬ State.reset.mbufWritten (0x200 - 0x200 + 0) ∧ ¬ State.reset.mbufWritten (0x3FC - 0x200 + 3) := by
  unfold State.mbufWritten readRefused; decide +kernel

theorem witness_AStoredWordReadsBackAndNoOtherMoves :
    writeTarget 32 0x5FC = some (.acc, 127) ∧ Reg.acc ≠ .cmd ∧ readTarget 32 0x5FC = some (.acc, 127)
      ∧ writeTarget 32 0x200 = some (.mbuf, 0) ∧ readTarget 32 0x200 = some (.mbuf, 0)
      ∧ readTarget 32 0x3FC = some (.mbuf, 127) ∧ 0x3FC ≠ 0x5FC := by decide +kernel

/-- The transaction clauses at the ends of the writable ranges, both kinds of mark, and the first and last word of `KEY`. -/
theorem witness_AStoredWordReadsBackAndNoOtherMoves_transactions :
    (busState (.write 32 0x008 1)).pending = [.write 32 0x008 1] ∧ (0x008 : BitVec 12) ≠ 0x000
      ∧ (∀ a ∈ [0x008, 0x024, 0x040, 0x05C, 0x080, 0x09C, 0x100, 0x13C, 0x200, 0x3FC, 0x400, 0x5FC], ¬ writeRefused 32 a)
      ∧ (∀ a ∈ [0x040, 0x05C, 0x080, 0x09C, 0x100, 0x13C, 0x400, 0x5FC], takesMarkOff a)
      ∧ (∀ a ∈ [0x008, 0x024, 0x200, 0x3FC], ¬ takesMarkOff a) ∧ ¬ (0x040 ≤ 0x03C ∧ 0x03C < 0x060)
      ∧ (busState (.write 32 (BitVec.ofNat 12 (0x040 + 4 * 0)) 1)).pending = [.write 32 (BitVec.ofNat 12 (0x040 + 4 * 0)) 1]
      ∧ (busState (.write 32 (BitVec.ofNat 12 (0x040 + 4 * 7)) 1)).pending = [.write 32 (BitVec.ofNat 12 (0x040 + 4 * 7)) 1]
      ∧ 7 < 8 ∧ 0 ≠ 7 := by
  unfold writeRefused takesMarkOff; decide
theorem witness_MbufWordsAreLittleEndianBytes :
    127 < 128
      ∧ (busState (.write 32 (BitVec.ofNat 12 (0x200 + 4 * 127)) 1)).pending
        = [.write 32 (BitVec.ofNat 12 (0x200 + 4 * 127)) 1]
      ∧ (busState (.read 32 (BitVec.ofNat 12 (0x200 + 4 * 0)))).pending = [.read 32 (BitVec.ofNat 12 (0x200 + 4 * 0))] := by decide
theorem witness_StatusShowsPhaseKeyvAndErr : (busState (.read 32 0x004)).pending = [.read 32 0x004] := rfl

/-- A command that changes RES, one that changes KEYV, one that changes LEN and BLK. -/
theorem witness_CommandsWriteOnlyTheirRegisters :
    Instr.subb ≠ .sreset ∧ (after (exec .subb (operands 1 2))).res ≠ (operands 1 2).res
      ∧ (∃ t, exec (.init true) (written .idle) = .next t ∧ t.keyv ≠ (written .idle).keyv)
      ∧ ∃ t, exec .compress (written .absorb) = .next t ∧ t.len ≠ (written .absorb).len ∧ t.blk ≠ (written .absorb).blk :=
  ⟨by decide, by decide +kernel, ⟨_, rfl, by decide⟩, ⟨_, rfl, by decide, by decide⟩⟩

theorem witness_FullyWrittenStateIsDeterministic :
    fullState.unspecified = [] ∧ (List.range 512).all (fun k => (Memory.find fullState.mbuf (0x200 + k)).isSome) = true := by
  decide +kernel

theorem witness_StepKeepsStorageCanonical :
    let s := busState (.write 32 0x3FC 0xFFFFFFFF)
    s.canonical = true ∧ ∃ t, step s = .next t := ⟨by decide +kernel, _, rfl⟩

theorem witness_StepKeepsWrittenBeforeRead :
    let s := aboutCmd { State.reset with phase := .absorb, unspecified := wordsFrom 0x060 8 } 0x01FF004F
    s.writtenBeforeRead ∧ s.phase.inProgress = true ∧ ∃ t, step s = .next t :=
  ⟨by unfold State.writtenBeforeRead State.definedOn; decide, rfl, _, rfl⟩

/-- A state for each clause: a hash in progress after its tail, and one done. -/
theorem witness_AHashInProgressReadsNoFreeDraw :
    (written .committed).writtenBeforeRead ∧ (written .committed).phase.inProgress = true
      ∧ (written .committed).phase.afterTail = true ∧ (written .done).writtenBeforeRead ∧ (written .done).phase = .done ∧ 7 < 8 := by
  unfold State.writtenBeforeRead State.definedOn; decide

/-- Keyed hashes in progress for which the host has written all that R262 asks: one that absorbs and one about to be keyed. -/
theorem witness_AHashInProgressReadsNoFreeDraw_set_up :
    let s := { fullState with phase := .absorb, keyv := true }
    s.writtenBeforeRead ∧ (∀ k, k < 512 → s.mbufWritten k) ∧ s.setUpFor .rekey ∧ s.setUpFor (.init true) ∧ s.setUpFor .clrerr
      ∧ s.setUpFor .subb ∧ s.setUpFor .add64 ∧ s.setUpFor .compress ∧ s.setUpFor (.final 0) ∧ s.setUpFor (.final 511)
      ∧ s.setUpFor (.tail 511) ∧ s.setUpFor (.short 63) := by
  unfold State.writtenBeforeRead State.setUpFor State.definedOn State.mbufWritten; decide +kernel

end Sys2Proof.Tests
end

/-! # The state, the window and the storage (10_state.md, 20_memory.md)

SUPPORT for the statements of this family: the register map as a function of the register, what one transaction of the host
does, the frame of every command, and what the free draws can reach. -/

namespace Sys2Proof.Machine

/-! ## The register map by register (20_memory.md R52) -/

/-- The row of a register in the map of R52. -/
def Reg.row : Reg → RegRow
  | .cmd => ⟨.cmd, 0x000, 1, .wo⟩
  | .status => ⟨.status, 0x004, 1, .ro⟩
  | .domain => ⟨.domain, 0x008, 2, .rw⟩
  | .seed => ⟨.seed, 0x010, 2, .rw⟩
  | .len => ⟨.len, 0x018, 2, .rw⟩
  | .blk => ⟨.blk, 0x020, 2, .rw⟩
  | .key => ⟨.key, 0x040, 8, .wo⟩
  | .digest => ⟨.digest, 0x060, 8, .ro⟩
  | .opa => ⟨.opa, 0x080, 4, .rw⟩
  | .opb => ⟨.opb, 0x090, 4, .rw⟩
  | .res => ⟨.res, 0x0A0, 4, .ro⟩
  | .dpad => ⟨.dpad, 0x100, 16, .rw⟩
  | .mbuf => ⟨.mbuf, 0x200, 128, .rw⟩
  | .acc => ⟨.acc, 0x400, 128, .rw⟩

/-- The window address of word `k` of a register. -/
def Reg.wordAddr (r : Reg) (k : Nat) : Nat := r.row.base + 4 * k

theorem Reg.row_mem (r : Reg) : r.row ∈ registerMap := by cases r <;> decide

theorem Reg.row_reg (r : Reg) : r.row.reg = r := by cases r <;> rfl

/-- Every row of the map is the row of its register. -/
theorem row_of_mem_registerMap : ∀ row ∈ registerMap, row = row.reg.row := by decide

theorem Reg.base_aligned (r : Reg) : r.row.base % 4 = 0 := by cases r <;> rfl

/-- No two rows of the map share an address. -/
theorem registerMap_disjoint :
    ∀ r ∈ registerMap, ∀ q ∈ registerMap, r = q ∨ r.base + 4 * r.words ≤ q.base ∨ q.base + 4 * q.words ≤ r.base := by decide

/-- The row found at an address is the one row whose words take it in. -/
theorem locate_eq_some_iff (a : Nat) (row : RegRow) :
    locate a = some row ↔ row ∈ registerMap ∧ row.base ≤ a ∧ a < row.base + 4 * row.words := by
  have found : ∀ q, locate a = some q → q ∈ registerMap ∧ q.base ≤ a ∧ a < q.base + 4 * q.words := fun q hq =>
    ⟨List.mem_of_find?_eq_some hq, by simpa using List.find?_some hq⟩
  refine ⟨found row, fun ⟨hm, hr⟩ => ?_⟩
  obtain ⟨q, hq⟩ := Option.isSome_iff_exists.mp (List.find?_isSome.mpr ⟨row, hm, decide_eq_true hr⟩ : (locate a).isSome = true)
  obtain ⟨hqm, hqr⟩ := found q hq
  rcases registerMap_disjoint q hqm row hm with rfl | h | h
  · exact hq
  · omega
  · omega

/-- At an aligned address stands word `k` of a register exactly when the address is that word's. -/
theorem locate_word_iff {a : Nat} (ha : a % 4 = 0) (r : Reg) (k : Nat) :
    (∃ row, locate a = some row ∧ row.reg = r ∧ (a - row.base) / 4 = k) ↔ k < r.row.words ∧ a = r.wordAddr k := by
  have hb := r.base_aligned
  unfold Reg.wordAddr
  constructor
  · rintro ⟨row, hl, rfl, rfl⟩
    obtain ⟨hm, h1, h2⟩ := (locate_eq_some_iff a row).mp hl
    rw [← row_of_mem_registerMap row hm] at hb ⊢
    omega
  · rintro ⟨hk, rfl⟩
    exact ⟨r.row, (locate_eq_some_iff _ _).mpr ⟨r.row_mem, by omega, by omega⟩, r.row_reg, by omega⟩

/-- The register word at an address, none when the access is malformed (R51), the address reserved, or the register of the
access that is denied (R57): what reads and writes have in common. -/
def targetUnless (denied : Access) (width a : Nat) : Option (Reg × Nat) :=
  if busShapeOk width a then
    (locate a).bind fun r => if r.access = denied then none else some (r.reg, (a - r.base) / 4)
  else none

theorem targetUnless_eq_some_iff (denied : Access) (width a : Nat) (r : Reg) (k : Nat) :
    targetUnless denied width a = some (r, k)
      ↔ width = 32 ∧ r.row.access ≠ denied ∧ k < r.row.words ∧ a = r.wordAddr k := by
  by_cases hs : width = 32 ∧ a % 4 = 0
  · obtain ⟨rfl, ha⟩ := hs
    rw [← locate_word_iff ha]
    simp only [targetUnless, busShapeOk, ha, and_self, decide_true, if_true, Option.bind_eq_some_iff, true_and]
    constructor
    · rintro ⟨row, hl, h⟩
      split at h
      · cases h
      · cases h
        have hm := ((locate_eq_some_iff a row).mp hl).1
        exact ⟨by rwa [← row_of_mem_registerMap row hm], row, hl, rfl, rfl⟩
    · rintro ⟨hacc, row, hl, rfl, rfl⟩
      rw [← row_of_mem_registerMap row ((locate_eq_some_iff a row).mp hl).1] at hacc
      exact ⟨row, hl, by rw [if_neg hacc]⟩
  · have hb := r.base_aligned
    simp only [targetUnless, busShapeOk, hs, decide_false, Bool.false_eq_true, if_false, Reg.wordAddr]
    constructor
    · intro h; cases h
    · intro h; omega

/-- Which register word a read of the host reaches: at 32 bits, the word at its address, of no write-only register. -/
theorem readTarget_eq_some_iff (width a : Nat) (r : Reg) (k : Nat) :
    readTarget width a = some (r, k) ↔ width = 32 ∧ r.row.access ≠ .wo ∧ k < r.row.words ∧ a = r.wordAddr k :=
  targetUnless_eq_some_iff .wo width a r k

/-- Which register word a write of the host reaches: at 32 bits, the word at its address, of no read-only register. -/
theorem writeTarget_eq_some_iff (width a : Nat) (r : Reg) (k : Nat) :
    writeTarget width a = some (r, k) ↔ width = 32 ∧ r.row.access ≠ .ro ∧ k < r.row.words ∧ a = r.wordAddr k :=
  targetUnless_eq_some_iff .ro width a r k

/-- The aligned addresses that hold a register word, by R52's table; the others are reserved. -/
theorem exists_word_iff {a : Nat} (ha : a % 4 = 0) :
    (∃ (r : Reg) (k : Nat), k < r.row.words ∧ a = r.wordAddr k)
      ↔ a < 0x028 ∨ (0x040 ≤ a ∧ a < 0x0B0) ∨ (0x100 ≤ a ∧ a < 0x140) ∨ (0x200 ≤ a ∧ a < 0x600) := by
  constructor
  · rintro ⟨r, k, hk, rfl⟩
    unfold Reg.wordAddr
    cases r <;> simp only [Reg.row] at hk ⊢ <;> omega
  · intro h
    by_contra hn
    have outside : ∀ r : Reg, ¬ (r.row.base ≤ a ∧ a < r.row.base + 4 * r.row.words) := fun r hr => by
      have hb := r.base_aligned
      exact hn ⟨r, (a - r.row.base) / 4, by omega, by unfold Reg.wordAddr; omega⟩
    have low := And.intro (outside .cmd) <| And.intro (outside .status) <| And.intro (outside .domain) <|
      And.intro (outside .seed) <| And.intro (outside .len) (outside .blk)
    have middle := And.intro (outside .key) <| And.intro (outside .digest) <| And.intro (outside .opa) <|
      And.intro (outside .opb) (outside .res)
    have high := And.intro (outside .dpad) <| And.intro (outside .mbuf) (outside .acc)
    simp only [Reg.row] at low middle high
    omega

/-- Of the words of the window, a read refuses those of write-only registers. -/
theorem readRefused_wordAddr_iff {r : Reg} {k : Nat} (hk : k < r.row.words) :
    readRefused 32 (r.wordAddr k) ↔ r.row.access = .wo := by
  unfold readRefused Reg.wordAddr
  cases r <;> simp only [Reg.row, reduceCtorEq, iff_true, iff_false] at hk ⊢ <;> omega

/-- Of the words of the window, a write refuses those of read-only registers. -/
theorem writeRefused_wordAddr_iff {r : Reg} {k : Nat} (hk : k < r.row.words) :
    writeRefused 32 (r.wordAddr k) ↔ r.row.access = .ro := by
  unfold writeRefused Reg.wordAddr
  cases r <;> simp only [Reg.row, reduceCtorEq, iff_true, iff_false] at hk ⊢ <;> omega

/-- A read that is not refused reaches a register word. -/
theorem exists_readTarget_iff (width a : Nat) : (∃ r k, readTarget width a = some (r, k)) ↔ ¬ readRefused width a := by
  simp only [readTarget_eq_some_iff]
  constructor
  · rintro ⟨r, k, rfl, hacc, hk, rfl⟩
    rwa [readRefused_wordAddr_iff hk]
  · intro h
    obtain ⟨rfl, ha⟩ : width = 32 ∧ a % 4 = 0 := by unfold readRefused at h; omega
    obtain ⟨r, k, hk, rfl⟩ := (exists_word_iff ha).mpr (by unfold readRefused at h; omega)
    exact ⟨r, k, rfl, fun e => h ((readRefused_wordAddr_iff hk).mpr e), hk, rfl⟩

/-- A write that is not refused reaches a register word. -/
theorem exists_writeTarget_iff (width a : Nat) : (∃ r k, writeTarget width a = some (r, k)) ↔ ¬ writeRefused width a := by
  simp only [writeTarget_eq_some_iff]
  constructor
  · rintro ⟨r, k, rfl, hacc, hk, rfl⟩
    rwa [writeRefused_wordAddr_iff hk]
  · intro h
    obtain ⟨rfl, ha⟩ : width = 32 ∧ a % 4 = 0 := by unfold writeRefused at h; omega
    obtain ⟨r, k, hk, rfl⟩ := (exists_word_iff ha).mpr (by unfold writeRefused at h; omega)
    exact ⟨r, k, rfl, fun e => h ((writeRefused_wordAddr_iff hk).mpr e), hk, rfl⟩

/-- A refused read reaches no word. -/
theorem readTarget_of_refused {width a : Nat} (h : readRefused width a) : readTarget width a = none :=
  Option.eq_none_iff_forall_ne_some.mpr fun p e => (exists_readTarget_iff width a).mp ⟨p.1, p.2, e⟩ h

/-- A refused write reaches no word. -/
theorem writeTarget_of_refused {width a : Nat} (h : writeRefused width a) : writeTarget width a = none :=
  Option.eq_none_iff_forall_ne_some.mpr fun p e => (exists_writeTarget_iff width a).mp ⟨p.1, p.2, e⟩ h

/-! ## The word a register holds -/

/-- Word `k` of a register as it is held, whether or not anything has written it and whether or not the host may read it. -/
def State.heldWord (s : State) (r : Reg) (k : Nat) : Word :=
  match r with
  | .cmd => 0
  | .status => s.status
  | .domain => wordOf s.domain k
  | .seed => wordOf s.seed k
  | .len => wordOf s.len k
  | .blk => wordOf s.blk k
  | .key => wordOf s.key k
  | .digest => wordOf s.digest k
  | .opa => wordOf s.opa k
  | .opb => wordOf s.opb k
  | .res => wordOf s.res k
  | .dpad => wordOf s.dpad[Fin.ofNat 4 (k / 4)] (k % 4)
  | .mbuf => s.memRead (4 * k) 4
  | .acc => wordOf s.acc[Fin.ofNat 32 (k / 4)] (k % 4)

/-- The registers whose words carry a mark while nothing has written them (10_state.md R39, R40). -/
def Reg.marked : Reg → Bool
  | .key | .digest | .opa | .opb | .res | .dpad | .acc => true
  | .cmd | .status | .domain | .seed | .len | .blk | .mbuf => false

/-- A read of a register finds the word held, or a free draw where it is marked (R40). -/
theorem State.readReg_eq (s : State) {r : Reg} (h : r.row.access ≠ .wo) (k : Nat) :
    s.readReg r k = if r.marked then s.seenWord (r.wordAddr k) (s.heldWord r k) else s.heldWord r k := by
  cases r
  case cmd | key => exact absurd rfl h
  all_goals rfl

/-- The map written from R52's table has each register's word at the word's address. -/
theorem State.mapWord_wordAddr (s : State) {r : Reg} {k a : Nat} (hk : k < r.row.words) (ha : a = r.wordAddr k) :
    s.mapWord a = s.heldWord r k := by
  have word : (a - r.row.base) / 4 = k := by unfold Reg.wordAddr at ha; omega
  have lane : (a - r.row.base) / 16 = k / 4 := by unfold Reg.wordAddr at ha; omega
  have offset : a - r.row.base = 4 * k := by unfold Reg.wordAddr at ha; omega
  unfold State.mapWord
  unfold Reg.wordAddr at ha
  cases r <;> simp only [Reg.row] at hk ha word lane offset <;> (repeat rw [if_neg (by omega)]) <;> rw [if_pos (by omega)]
  case cmd | status => rfl
  case mbuf => rw [offset]; rfl
  case dpad | acc => simp only [lane, word]; rfl
  all_goals rw [word]; rfl

/-- The map has 0 at the reserved addresses. -/
theorem State.mapWord_reserved (s : State) {a : Nat} (ha : a % 4 = 0)
    (h : ¬ ∃ (r : Reg) (k : Nat), k < r.row.words ∧ a = r.wordAddr k) : s.mapWord a = 0 := by
  rw [exists_word_iff ha] at h
  have gaps : (0x028 ≤ a ∧ a < 0x040) ∨ (0x0B0 ≤ a ∧ a < 0x100) ∨ (0x140 ≤ a ∧ a < 0x200) ∨ 0x600 ≤ a := by omega
  unfold State.mapWord
  rcases gaps with h | h | h | h <;> (repeat rw [if_neg (by omega)])
  all_goals rw [if_pos (by omega)]

/-! ## Stores of the host -/

/-- The word just stored in a lane of a register file is found there. -/
theorem wordOf_set_same {n : Nat} (v : Vector Lane n) (i : Fin n) (k : Nat) (w : Word) (hk : k < 4) :
    wordOf (v.set i (putWord v[i] k w))[i] k = w := by
  rw [Fin.getElem_fin, Vector.getElem_set_self]
  exact wordOf_putWord_same _ _ _ (by omega)

/-- A word stored in a lane of a register file leaves every other word of the file. -/
theorem wordOf_set_other {n : Nat} (v : Vector Lane n) (i i' : Fin n) (k k' : Nat) (w : Word) (hk : k' < 4)
    (h : i' ≠ i ∨ k' ≠ k) : wordOf (v.set i (putWord v[i] k w))[i'] k' = wordOf v[i'] k' := by
  by_cases hi : i' = i
  · subst hi
    rw [Fin.getElem_fin, Vector.getElem_set_self]
    exact wordOf_putWord_other _ _ _ _ (by omega) (by simpa using h)
  · rw [Fin.getElem_fin, Vector.getElem_set_ne (h := fun e => hi (Fin.ext e.symm))]
    rfl

/-- Byte `j` of a value of `n` bytes is the byte at index `j` (R54). -/
theorem byte_ofNat_leValue {n : Nat} (bs : List Byte) (h : bs.length ≤ n) (j : Nat) :
    (BitVec.ofNat (8 * n) (leValue bs)).extractLsb' (8 * j) 8 = bs.getD j 0 := by
  have hlt : leValue bs < 2 ^ (8 * n) := by
    rw [Nat.pow_mul]
    exact Nat.lt_of_lt_of_le (leValue_lt bs) (Nat.pow_le_pow_right (by decide) h)
  apply BitVec.eq_of_toNat_eq
  rw [← leValue_byte, show (256 : Nat) ^ j = 2 ^ (8 * j) from (Nat.pow_mul 2 8 j).symm]
  simp only [BitVec.extractLsb'_toNat, BitVec.toNat_ofNat, Nat.mod_eq_of_lt hlt, Nat.shiftRight_eq_div_pow]

/-- Byte `j` of the word `MemRead(a, n)` is byte `a + j` of `MBUF` (R55). -/
theorem State.byte_memRead (s : State) {a n j : Nat} (hj : j < n) :
    (s.memRead a n).extractLsb' (8 * j) 8 = s.mbufByte (a + j) := by
  have len : (s.mbufBytes a n).length = n := by simp only [State.mbufBytes, List.length_map, List.length_range]
  rw [State.memRead, byte_ofNat_leValue _ (Nat.le_of_eq len), List.getD_eq_getElem _ _ (by omega)]
  simp only [State.mbufBytes, List.getElem_map, List.getElem_range]

/-- Byte `j` of the free word at an address is the free draw of that byte (R40). -/
theorem State.byte_freeWord (s : State) {a j : Nat} (hj : j < 4) :
    (s.freeWord a).extractLsb' (8 * j) 8 = Config.freeByte s.draw (a + j) := by
  have len : ((List.range 4).map fun j => Config.freeByte s.draw (a + j)).length = 4 := by
    simp only [List.length_map, List.length_range]
  refine (byte_ofNat_leValue (n := 4) _ (Nat.le_of_eq len) j).trans ?_
  rw [List.getD_eq_getElem _ _ (by omega), List.getElem_map, List.getElem_range]

/-- Two words with the same four bytes are equal. -/
theorem word_ext (x y : Word) (h : ∀ j, j < 4 → x.extractLsb' (8 * j) 8 = y.extractLsb' (8 * j) 8) : x = y := by
  apply BitVec.eq_of_getLsbD_eq
  intro i hi
  have h' := congrArg (fun b : Byte => b.getLsbD (i % 8)) (h (i / 8) (by omega))
  have e : 8 * (i / 8) + i % 8 = i := by omega
  have l : i % 8 < 8 := Nat.mod_lt _ (by decide)
  simpa only [BitVec.getLsbD_extractLsb', e, l, decide_true, Bool.true_and] using h'

/-- A byte of `MBUF` after a word of the host: of the word where it covers the byte, else as before (R55). -/
theorem State.mbufByte_putWord (s : State) (a k : Nat) (w : Word) :
    ({ s with mbuf := Memory.putWord s.mbuf (0x200 + a) w } : State).mbufByte k
      = if a ≤ k ∧ k < a + 4 then w.extractLsb' (8 * (k - a)) 8 else s.mbufByte k := by
  unfold State.mbufByte
  dsimp only
  rw [Memory.find_putWord]
  by_cases h : a ≤ k ∧ k < a + 4
  · rw [if_pos (by omega), if_pos h, Option.getD_some, show 0x200 + k - (0x200 + a) = k - a by omega]
  · rw [if_neg (by omega), if_neg h]

/-- The word of `MBUF` just stored is the one read (R55). -/
theorem State.memRead_putWord_same (s : State) (a : Nat) (w : Word) :
    ({ s with mbuf := Memory.putWord s.mbuf (0x200 + a) w } : State).memRead a 4 = w :=
  word_ext _ _ fun j hj => by
    rw [State.byte_memRead _ hj, State.mbufByte_putWord, if_pos (by omega), Nat.add_sub_cancel_left]

/-- A word of `MBUF` that the stored one does not touch reads as before (R55). -/
theorem State.memRead_putWord_other (s : State) (a b : Nat) (w : Word) (h : b + 4 ≤ a ∨ a + 4 ≤ b) :
    ({ s with mbuf := Memory.putWord s.mbuf (0x200 + a) w } : State).memRead b 4 = s.memRead b 4 :=
  word_ext _ _ fun j hj => by
    rw [State.byte_memRead _ hj, State.byte_memRead _ hj, State.mbufByte_putWord, if_neg (by omega)]

/-- A word the host stores is the word its register then holds. -/
theorem State.heldWord_writeReg_same (s : State) {r : Reg} {k : Nat} (w : Word) (hr : r.row.access ≠ .ro) (hc : r ≠ .cmd)
    (hk : k < r.row.words) : (s.writeReg r k w).heldWord r k = w := by
  cases r <;> simp only [Reg.row] at hk
  case cmd => exact absurd rfl hc
  case status | digest | res => exact absurd rfl hr
  case dpad | acc => exact wordOf_set_same _ _ _ w (Nat.mod_lt _ (by decide))
  case mbuf => exact s.memRead_putWord_same (4 * k) w
  all_goals exact wordOf_putWord_same _ _ w (by omega)

/-- A word the host stores leaves every other word of its register. -/
theorem State.heldWord_writeReg_word (s : State) {r : Reg} {k k' : Nat} (w : Word) (hk : k < r.row.words)
    (hk' : k' < r.row.words) (h : k' ≠ k) : (s.writeReg r k w).heldWord r k' = s.heldWord r k' := by
  cases r <;> simp only [Reg.row] at hk hk'
  case cmd | status | digest | res => rfl
  case dpad | acc =>
    refine wordOf_set_other _ _ _ _ _ w (Nat.mod_lt _ (by decide)) ?_
    simp only [ne_eq, Fin.ext_iff, Fin.val_ofNat]
    omega
  case mbuf => exact s.memRead_putWord_other (4 * k) (4 * k') w (by omega)
  all_goals exact wordOf_putWord_other _ _ _ w (by omega) h

/-- A word the host stores leaves every other register. -/
theorem State.heldWord_writeReg_reg (s : State) {r r' : Reg} (k k' : Nat) (w : Word) (h : r' ≠ r) :
    (s.writeReg r k w).heldWord r' k' = s.heldWord r' k' := by
  cases r <;> cases r' <;> first | rfl | exact absurd rfl h

end Sys2Proof.Machine

namespace Sys2Proof.Machine

/-! ## What a store of the host leaves unchanged -/

/-- A store changes no field but those of the writable registers and the marks. -/
theorem State.writeReg_eq (s : State) (r : Reg) (k : Nat) (w : Word) :
    s.writeReg r k w =
      { s with
        domain := (s.writeReg r k w).domain, seed := (s.writeReg r k w).seed, len := (s.writeReg r k w).len
        blk := (s.writeReg r k w).blk, key := (s.writeReg r k w).key, opa := (s.writeReg r k w).opa
        opb := (s.writeReg r k w).opb, dpad := (s.writeReg r k w).dpad, mbuf := (s.writeReg r k w).mbuf
        acc := (s.writeReg r k w).acc, unspecified := (s.writeReg r k w).unspecified } := by
  cases r <;> rfl

@[simp] theorem State.writeReg_phase (s : State) (r : Reg) (k : Nat) (w : Word) : (s.writeReg r k w).phase = s.phase := by
  rw [State.writeReg_eq]

@[simp] theorem State.writeReg_err (s : State) (r : Reg) (k : Nat) (w : Word) : (s.writeReg r k w).err = s.err := by
  rw [State.writeReg_eq]

@[simp] theorem State.writeReg_draw (s : State) (r : Reg) (k : Nat) (w : Word) : (s.writeReg r k w).draw = s.draw := by
  rw [State.writeReg_eq]

/-- Only a store into `KEY` changes it. -/
theorem State.writeReg_key (s : State) {r : Reg} (k : Nat) (w : Word) (h : r ≠ .key) : (s.writeReg r k w).key = s.key := by
  cases r
  case key => exact absurd rfl h
  all_goals rfl

/-- A store into `KEY` as one record. -/
theorem State.writeReg_key_eq (s : State) (k : Nat) (w : Word) :
    s.writeReg .key k w
      = { s with key := putWord s.key k w, unspecified := s.marksOutside (0x040 + 4 * k) (0x044 + 4 * k) } := by
  rw [show 0x044 + 4 * k = 0x040 + 4 * k + 4 by omega]; rfl

/-- A store takes the mark off its word, where the register has marks, and off no other (R40). -/
theorem State.writeReg_unspecified (s : State) {r : Reg} (k : Nat) (w : Word) (hr : r.row.access ≠ .ro) :
    (s.writeReg r k w).unspecified
      = if r.marked then s.marksOutside (r.wordAddr k) (r.wordAddr k + 4) else s.unspecified := by
  cases r
  case status | digest | res => exact absurd rfl hr
  all_goals rfl

/-- A store marks nothing. -/
theorem State.writeReg_sublist (s : State) (r : Reg) (k : Nat) (w : Word) :
    (s.writeReg r k w).unspecified.Sublist s.unspecified := by
  cases r
  case key | opa | opb | dpad | acc => exact s.define_sublist _ _
  all_goals exact List.Sublist.refl _

/-- The registers of R52 whose mark a write can take off, by address. -/
theorem takesMarkOff_wordAddr_iff {r : Reg} {k : Nat} (hk : k < r.row.words) (hr : r.row.access ≠ .ro) :
    takesMarkOff (r.wordAddr k) ↔ r.marked = true := by
  unfold takesMarkOff Reg.wordAddr
  cases r <;> simp only [Reg.row, Reg.marked, Bool.false_eq_true, iff_true, iff_false, ne_eq, not_true_eq_false] at hk hr ⊢
    <;> omega

/-- A store leaves every other word of the window. -/
theorem State.heldWord_writeReg_other (s : State) {r r' : Reg} {k k' : Nat} (w : Word) (hk : k < r.row.words)
    (hk' : k' < r'.row.words) (h : r'.wordAddr k' ≠ r.wordAddr k) :
    (s.writeReg r k w).heldWord r' k' = s.heldWord r' k' := by
  by_cases hr : r' = r
  · subst hr
    exact s.heldWord_writeReg_word w hk hk' fun e => h (by rw [e])
  · exact s.heldWord_writeReg_reg k k' w hr

/-- What a read finds depends on the word held, on its mark and on the number of the access alone. -/
theorem State.readReg_congr {s t : State} {r : Reg} {k : Nat} (hr : r.row.access ≠ .wo)
    (held : t.heldWord r k = s.heldWord r k) (mark : r.wordAddr k ∈ t.unspecified ↔ r.wordAddr k ∈ s.unspecified)
    (draw : t.draw = s.draw) : t.readReg r k = s.readReg r k := by
  rw [State.readReg_eq _ hr, State.readReg_eq _ hr, held]
  simp only [State.seenWord, State.freeWord, mark, draw]

/-- A read of a word just stored finds it. -/
theorem State.readReg_writeReg_same (s : State) {r : Reg} {k : Nat} (w : Word) (hw : r.row.access ≠ .ro)
    (hr : r.row.access ≠ .wo) (hc : r ≠ .cmd) (hk : k < r.row.words) : (s.writeReg r k w).readReg r k = w := by
  rw [State.readReg_eq _ hr, s.heldWord_writeReg_same w hw hc hk]
  split
  next hm =>
    refine State.seenWord_of_defined _ _ _ fun h => ?_
    rw [s.writeReg_unspecified k w hw, if_pos hm, State.mem_marksOutside] at h
    omega
  next => rfl

/-- A read of any other word finds what it found before the store. -/
theorem State.readReg_writeReg_other (s : State) {r r' : Reg} {k k' : Nat} (w : Word) (hw : r.row.access ≠ .ro)
    (hr' : r'.row.access ≠ .wo) (hk : k < r.row.words) (hk' : k' < r'.row.words) (h : r'.wordAddr k' ≠ r.wordAddr k) :
    (s.writeReg r k w).readReg r' k' = s.readReg r' k' := by
  refine State.readReg_congr hr' (s.heldWord_writeReg_other w hk hk' h) ?_ (s.writeReg_draw r k w)
  rw [s.writeReg_unspecified k w hw]
  split
  · have hb := r.base_aligned
    have hb' := r'.base_aligned
    rw [State.mem_marksOutside]
    unfold Reg.wordAddr at h ⊢
    exact and_iff_left_of_imp fun _ => by omega
  · rfl

/-! ## One transaction of the host -/

theorem State.raise_eq (s : State) (e : ErrCode) : s.raise e = { s with err := if s.err = .none then e else s.err } := by
  by_cases h : s.err = .none
  · rw [State.raise_of_none h, if_pos h]
  · rw [State.raise_of_err h, if_neg h]

/-- A step whose access needs no command. -/
theorem step_of_done {s t : State} {x : HostAccess} {rest : List HostAccess} (hp : s.pending = x :: rest)
    (ha : (s.performing rest).access x = .done t) : step s = .next t := by
  have hn : s.nextAccess = some (x, s.performing rest) := by rw [State.nextAccess, hp]; rfl
  rw [step, hn]
  dsimp only
  rw [ha]

/-- A step whose access starts a command. -/
theorem step_of_run {s : State} {x : HostAccess} {rest : List HostAccess} {i : Instr} (hp : s.pending = x :: rest)
    (ha : (s.performing rest).access x = .run i) : step s = exec i (s.performing rest) := by
  have hn : s.nextAccess = some (x, s.performing rest) := by rw [State.nextAccess, hp]; rfl
  rw [step, hn]
  dsimp only
  rw [ha]

theorem State.hostRead_of_refused (s : State) {width a : Nat} (h : readRefused width a) :
    s.hostRead width a = { s with rdata := 0, err := if s.err = .none then .bus else s.err } := by
  rw [State.hostRead, readTarget_of_refused h]
  dsimp only
  rw [State.raise_eq]

theorem State.hostRead_of_target (s : State) {width a : Nat} {r : Reg} {k : Nat} (h : readTarget width a = some (r, k)) :
    s.hostRead width a = { s with rdata := s.readReg r k } := by
  rw [State.hostRead, h]

theorem State.hostWrite_of_refused (s : State) {width a : Nat} (w : Word) (h : writeRefused width a) :
    s.hostWrite width a w = .done { s with err := if s.err = .none then .bus else s.err } := by
  rw [State.hostWrite, writeTarget_of_refused h]
  dsimp only
  rw [State.raise_eq]

theorem State.hostWrite_of_target (s : State) {width a : Nat} {r : Reg} {k : Nat} (w : Word)
    (h : writeTarget width a = some (r, k)) (hc : r ≠ .cmd) : s.hostWrite width a w = .done (s.writeReg r k w) := by
  rw [State.hostWrite, h]
  cases r
  case cmd => exact absurd rfl hc
  all_goals rfl

/-- A write of a command word to `CMD` runs the command. -/
theorem State.hostWrite_of_command (s : State) {w : Word} {i : Instr} (h : decode w = .command i) :
    s.hostWrite 32 0x000 w = .run i := by
  have ht : writeTarget 32 0x000 = some (.cmd, 0) := (writeTarget_eq_some_iff _ _ _ _).mpr (by decide)
  rw [State.hostWrite, ht]
  dsimp only
  rw [h]

/-- The writable word at an address that a write may store at. -/
theorem writeTarget_of_accepted {width : Nat} {a : BitVec 12} (h : ¬ writeRefused width a.toNat) (ha : a ≠ 0x000) :
    ∃ r k, writeTarget width a.toNat = some (r, k) ∧ r ≠ .cmd := by
  obtain ⟨r, k, ht⟩ := (exists_writeTarget_iff width a.toNat).mpr h
  refine ⟨r, k, ht, ?_⟩
  rintro rfl
  obtain ⟨-, -, hk, hka⟩ := (writeTarget_eq_some_iff _ _ _ _).mp ht
  simp only [Reg.wordAddr, Reg.row] at hk hka
  exact ha (BitVec.eq_of_toNat_eq (by rw [hka, show k = 0 by omega]; rfl))

/-- A word that the spec defines is held alike before and in the access that reads it. -/
theorem State.heldWord_performing (s : State) (rest : List HostAccess) {r : Reg} {k : Nat} (hk : k < r.row.words)
    (hd : s.definedAt (r.wordAddr k)) : (s.performing rest).heldWord r k = s.heldWord r k := by
  cases r
  case mbuf =>
    simp only [Reg.row] at hk
    refine word_ext _ _ fun j hj => ?_
    simp only [State.heldWord]
    rw [State.byte_memRead _ hj, State.byte_memRead _ hj]
    refine State.mbufByte_of_written ?_ rfl
    have written := hd.2 (by simp only [Reg.wordAddr, Reg.row]; omega) (by simp only [Reg.wordAddr, Reg.row]; omega) j hj
    rwa [show Reg.mbuf.wordAddr k - 0x200 = 4 * k by simp only [Reg.wordAddr, Reg.row]; omega] at written
  all_goals rfl

/-- A read of a word that holds a defined value finds the word held. -/
theorem State.readReg_of_definedAt (s : State) {r : Reg} {k : Nat} (hr : r.row.access ≠ .wo)
    (hd : s.definedAt (r.wordAddr k)) : s.readReg r k = s.heldWord r k := by
  rw [State.readReg_eq _ hr]
  split
  · exact State.seenWord_of_defined _ _ _ hd.1
  · rfl

/-- Settles O47: an access reaches a register word or is refused, and the words are those of R52's table. -/
theorem refusedAccessesRecordBus : Obligations.RefusedAccessesRecordBus := by
  intro s rest width a w
  refine ⟨fun hp hx => ?_, fun hp hx => ?_, fun hp hx => ?_, fun hp hx ha => ?_⟩
  · exact step_of_done hp (congrArg BusAction.done ((s.performing rest).hostRead_of_refused hx))
  · obtain ⟨r, k, ht⟩ := (exists_readTarget_iff width a.toNat).mpr hx
    obtain ⟨-, hr, hk, hka⟩ := (readTarget_eq_some_iff _ _ _ _).mp ht
    refine ⟨_, step_of_done hp (congrArg BusAction.done ((s.performing rest).hostRead_of_target ht)), fun hd => ?_⟩
    rw [s.mapWord_wordAddr hk hka]
    rw [hka] at hd
    rw [← s.heldWord_performing rest hk hd]
    exact (s.performing rest).readReg_of_definedAt hr hd
  · exact step_of_done hp ((s.performing rest).hostWrite_of_refused w hx)
  · obtain ⟨r, k, ht, hc⟩ := writeTarget_of_accepted hx ha
    exact ⟨_, step_of_done hp ((s.performing rest).hostWrite_of_target w ht hc), State.writeReg_err _ _ _ _⟩

/-- Settles O48: a marked word reads as the free word of its address, an unwritten byte of `MBUF` as its own draw. -/
theorem unwrittenStorageReadsAsAFreeDraw : Obligations.UnwrittenStorageReadsAsAFreeDraw := by
  intro s rest a hp hx
  obtain ⟨r, k, ht⟩ := (exists_readTarget_iff 32 a.toNat).mpr hx
  obtain ⟨-, hr, hk, hka⟩ := (readTarget_eq_some_iff _ _ _ _).mp ht
  refine ⟨_, step_of_done hp (congrArg BusAction.done ((s.performing rest).hostRead_of_target ht)), ?_, ?_⟩
  · intro range mark j hj
    rw [hka] at range mark ⊢
    have hm : r.marked = true := by
      unfold Reg.wordAddr at range
      cases r
      case cmd | status | domain | seed | len | blk | mbuf => simp only [Reg.row] at hk range; omega
      all_goals rfl
    rw [State.readReg_eq _ hr, if_pos hm, (s.performing rest).seenWord_of_unspecified _ _ mark]
    exact State.byte_freeWord _ hj
  · intro low high j hj unwritten
    have hreg : r = .mbuf := by
      unfold Reg.wordAddr at hka
      cases r
      case mbuf => rfl
      all_goals simp only [Reg.row] at hk hka; omega
    subst hreg
    have hoff : a.toNat - 0x200 = 4 * k := by rw [hka]; simp only [Reg.wordAddr, Reg.row]; omega
    rw [hoff] at unwritten
    have addr : 0x200 + (4 * k + j) = a.toNat + j := by omega
    have none : Memory.find s.mbuf (0x200 + (4 * k + j)) = none := by simpa [State.mbufWritten] using unwritten
    refine ((s.performing rest).byte_memRead hj).trans ?_
    rw [← addr]
    show (Memory.find s.mbuf (0x200 + (4 * k + j))).getD _ = _
    rw [none]
    rfl

/-- A byte of a register's word is a byte of the register (R53, R56). -/
theorem byte_wordOf {m : Nat} (x : BitVec m) (k j : Nat) (hj : j < 4) :
    (wordOf x k).extractLsb' (8 * j) 8 = x.extractLsb' (8 * (4 * k + j)) 8 := by
  apply BitVec.eq_of_getLsbD_eq
  intro i hi
  have l : 8 * j + i < 32 := by omega
  have e : 32 * k + (8 * j + i) = 8 * (4 * k + j) + i := by omega
  simp only [wordOf, BitVec.getLsbD_extractLsb', hi, l, e, decide_true, Bool.true_and]

/-- A store stands in the map at its address, and every other word of the map is as before. -/
theorem State.mapWord_writeReg (s : State) {r : Reg} {k a : Nat} (w : Word) (ht : writeTarget 32 a = some (r, k))
    (hc : r ≠ .cmd) : (s.writeReg r k w).mapWord a = w
      ∧ ∀ b, b % 4 = 0 → b ≠ a → (s.writeReg r k w).mapWord b = s.mapWord b := by
  obtain ⟨-, hr, hk, rfl⟩ := (writeTarget_eq_some_iff _ _ _ _).mp ht
  refine ⟨?_, fun b hb hne => ?_⟩
  · rw [State.mapWord_wordAddr _ hk rfl]
    exact s.heldWord_writeReg_same w hr hc hk
  · by_cases hword : ∃ (r' : Reg) (k' : Nat), k' < r'.row.words ∧ b = r'.wordAddr k'
    · obtain ⟨r', k', hk', rfl⟩ := hword
      rw [State.mapWord_wordAddr _ hk' rfl, State.mapWord_wordAddr _ hk' rfl]
      exact s.heldWord_writeReg_other w hk hk' hne
    · rw [State.mapWord_reserved _ hb hword, State.mapWord_reserved _ hb hword]

/-- A write at the address of a word of `KEY` reaches that word. -/
theorem writeTarget_key {k : Nat} (hk : k < 8) : writeTarget 32 (BitVec.ofNat 12 (0x040 + 4 * k)).toNat = some (.key, k) := by
  rw [writeTarget_eq_some_iff, BitVec.toNat_ofNat, Nat.mod_eq_of_lt (by omega)]
  exact ⟨rfl, by decide, hk, rfl⟩

/-- Settles O49: the word stored stands at its address, by the rules for the word a register holds. -/
theorem aStoredWordReadsBackAndNoOtherMoves : Obligations.AStoredWordReadsBackAndNoOtherMoves := by
  refine ⟨fun s a w r k ht hc => ?_, fun s rest a w hp hx ha => ?_, fun s rest k w hk hp => ?_⟩
  · obtain ⟨-, hw, hk, rfl⟩ := (writeTarget_eq_some_iff _ _ _ _).mp ht
    refine ⟨fun hrt => ?_, fun b r' k' hne hrt => ?_⟩
    · obtain ⟨-, hr, -, -⟩ := (readTarget_eq_some_iff _ _ _ _).mp hrt
      exact s.readReg_writeReg_same w hw hr hc hk
    · obtain ⟨-, hr', hk', rfl⟩ := (readTarget_eq_some_iff _ _ _ _).mp hrt
      exact s.readReg_writeReg_other w hw hr' hk hk' hne
  · obtain ⟨r, k, ht, hc⟩ := writeTarget_of_accepted hx ha
    obtain ⟨-, hr, hk, hka⟩ := (writeTarget_eq_some_iff _ _ _ _).mp ht
    obtain ⟨stored, others⟩ := (s.performing rest).mapWord_writeReg w ht hc
    have marks := (s.performing rest).writeReg_unspecified k w hr
    have marked := takesMarkOff_wordAddr_iff hk hr
    rw [← hka] at marks marked
    refine ⟨_, step_of_done hp ((s.performing rest).hostWrite_of_target w ht hc), stored, others, fun h => ?_, fun h => ?_,
      fun h => ?_, (s.performing rest).writeReg_eq r k w⟩
    · rw [marks, if_pos (marked.mp h)]; rfl
    · rw [marks, if_neg fun e => h (marked.mpr e)]; rfl
    · refine (s.performing rest).writeReg_key k w ?_
      rintro rfl
      simp only [Reg.wordAddr, Reg.row] at hk hka
      omega
  · have same := wordOf_putWord_same s.key k w (by omega)
    refine ⟨putWord s.key k w, ?_, same, fun j hj hne => wordOf_putWord_other s.key j k w (by omega) hne, fun j hj => ?_⟩
    · rw [step_of_done hp ((s.performing rest).hostWrite_of_target w (writeTarget_key hk) (by decide)), State.writeReg_key_eq]
      rfl
    · rw [← byte_wordOf _ k j hj, same]

end Sys2Proof.Machine

namespace Sys2Proof.Machine

/-! ## What a step can come to -/

/-- A command comes to its effect and its phase, where it is legal and in range, and to at most a new `ERR` otherwise. -/
theorem exec_inv {i : Instr} {s t : State} (h : exec i s = .next t) :
    (∃ e, t = { s with err := e })
      ∨ (legalIn i s.phase = true ∧ lengthInRange i = true ∧ t = { effectOf i s with phase := phaseAfter i s.phase }) := by
  rcases exec_cases h with rfl | rfl | rfl | ⟨-, hp, hn, rfl⟩
  · exact .inl ⟨t.err, rfl⟩
  · exact .inl ⟨_, s.raise_eq _⟩
  · exact .inl ⟨_, s.raise_eq _⟩
  · exact .inr ⟨hp, hn, rfl⟩

/-- A command is run only by a 32-bit write of its word to `CMD` (R36, R59). -/
theorem access_eq_run {s : State} {x : HostAccess} {i : Instr} (h : s.access x = .run i) :
    ∃ w, x = .write 32 0x000 w ∧ decode w = .command i := by
  cases x with
  | read width a => cases h
  | reset => cases h
  | write width a w =>
    rcases s.hostWrite_cases width a.toNat w with ⟨-, e⟩ | ⟨k, j, ht, hd, e⟩ | ⟨k, why, -, -, e⟩ | ⟨r, k, -, -, e⟩ <;>
      cases e.symm.trans h
    obtain ⟨rfl, -, hk, hka⟩ := (writeTarget_eq_some_iff _ _ _ _).mp ht
    simp only [Reg.wordAddr, Reg.row] at hk hka
    have ha : a = 0x000 := BitVec.eq_of_toNat_eq (by rw [hka, show k = 0 by omega]; rfl)
    exact ⟨w, by rw [ha], hd⟩

/-- An access that runs no command is a reset, or changes `rdata` and `ERR` alone, or stores one word. -/
theorem access_eq_done {s t : State} {x : HostAccess} (h : s.access x = .done t) :
    (x = .reset ∧ t = s.resetEngine) ∨ (∃ v e, t = { s with rdata := v, err := e })
      ∨ ∃ r k w, r.row.access ≠ .ro ∧ k < r.row.words ∧ t = s.writeReg r k w := by
  cases x with
  | reset => cases h; exact .inl ⟨rfl, rfl⟩
  | read width a =>
    cases h
    rcases s.hostRead_cases width a.toNat with ⟨-, e⟩ | ⟨r, k, -, e⟩ <;> rw [e]
    · rw [State.raise_eq]; exact .inr (.inl ⟨_, _, rfl⟩)
    · exact .inr (.inl ⟨_, s.err, rfl⟩)
  | write width a w =>
    rcases s.hostWrite_cases width a.toNat w with ⟨-, e⟩ | ⟨k, j, -, -, e⟩ | ⟨k, why, -, -, e⟩ | ⟨r, k, -, ht, e⟩ <;>
      cases e.symm.trans h
    · rw [State.raise_eq]; exact .inr (.inl ⟨s.rdata, _, rfl⟩)
    · rw [State.raise_eq]; exact .inr (.inl ⟨s.rdata, _, rfl⟩)
    · obtain ⟨-, hr, hk, -⟩ := (writeTarget_eq_some_iff _ _ _ _).mp ht
      exact .inr (.inr ⟨r, k, w, hr, hk, rfl⟩)

/-- Everything a step can come to: the engine waits, runs the command written to `CMD`, is reset, changes `rdata` and `ERR`
alone, or stores one word. -/
theorem step_inv {s t : State} (h : step s = .next t) :
    t = s ∨ ∃ x rest, s.pending = x :: rest
      ∧ ((∃ w i, x = .write 32 0x000 w ∧ decode w = .command i ∧ exec i (s.performing rest) = .next t)
        ∨ (x = .reset ∧ t = (s.performing rest).resetEngine)
        ∨ (∃ v e, t = { s.performing rest with rdata := v, err := e })
        ∨ ∃ r k w, r.row.access ≠ .ro ∧ k < r.row.words ∧ t = (s.performing rest).writeReg r k w) := by
  rcases step_cases h with ⟨-, e⟩ | ⟨x, rest, hp, ⟨i, ha, he⟩ | ha⟩
  · exact .inl e
  · obtain ⟨w, hx, hd⟩ := access_eq_run ha
    exact .inr ⟨x, rest, hp, .inl ⟨w, i, hx, hd, he⟩⟩
  · exact .inr ⟨x, rest, hp, .inr (access_eq_done ha)⟩

/-! ## What a command leaves unchanged (10_state.md R20, column 'Written by') -/

/-- From `s` to `t`, all that only the host and a reset write is as before, and no word has become unspecified. -/
structure State.KeepsHostSide (s t : State) : Prop where
  mbuf : t.mbuf = s.mbuf
  opa : t.opa = s.opa
  opb : t.opb = s.opb
  domain : t.domain = s.domain
  seed : t.seed = s.seed
  key : t.key = s.key
  pending : t.pending = s.pending
  draw : t.draw = s.draw
  rdata : t.rdata = s.rdata
  marks : t.unspecified.Sublist s.unspecified

/-- Beside the host's side, what the stages of the finalisation leave: `RES`, `KEYV`, `BLK`. -/
structure State.KeepsInStage (s t : State) : Prop extends State.KeepsHostSide s t where
  res : t.res = s.res
  keyv : t.keyv = s.keyv
  blk : t.blk = s.blk

theorem State.KeepsInStage.trans {s t u : State} (h : s.KeepsInStage t) (h' : t.KeepsInStage u) : s.KeepsInStage u where
  mbuf := h'.mbuf.trans h.mbuf
  opa := h'.opa.trans h.opa
  opb := h'.opb.trans h.opb
  domain := h'.domain.trans h.domain
  seed := h'.seed.trans h.seed
  key := h'.key.trans h.key
  pending := h'.pending.trans h.pending
  draw := h'.draw.trans h.draw
  rdata := h'.rdata.trans h.rdata
  marks := h'.marks.trans h.marks
  res := h'.res.trans h.res
  keyv := h'.keyv.trans h.keyv
  blk := h'.blk.trans h.blk

/-! ### The writes of registers -/

theorem State.setRes_keeps (s : State) (v : Lane) : s.KeepsHostSide (s.setRes v) :=
  ⟨rfl, rfl, rfl, rfl, rfl, rfl, rfl, rfl, rfl, s.define_sublist _ _⟩

theorem State.setDigest_keeps (s : State) (v : BitVec 256) : s.KeepsInStage (s.setDigest v) :=
  ⟨⟨rfl, rfl, rfl, rfl, rfl, rfl, rfl, rfl, rfl, s.define_sublist _ _⟩, rfl, rfl, rfl⟩

theorem State.setAcc_keeps (s : State) (count : Nat) (v : Bulk) : s.KeepsInStage (s.setAcc count v) :=
  ⟨⟨rfl, rfl, rfl, rfl, rfl, rfl, rfl, rfl, rfl, s.setAcc_sublist count v⟩, rfl, rfl, rfl⟩

theorem State.setQuad_keeps (s : State) (q : Quad) : s.KeepsInStage (s.setQuad q) := s.setAcc_keeps 4 _

/-! ### The effects of commands -/

theorem tailEffect_keeps (cfg : Params) (n : Nat) (s : State) : s.KeepsInStage (tailEffect cfg n s) :=
  ⟨⟨rfl, rfl, rfl, rfl, rfl, rfl, rfl, rfl, rfl, (tailEffect_marks cfg n s).1⟩, rfl, rfl, rfl⟩

theorem mergeEffect_keeps (cfg : Params) (s : State) : s.KeepsInStage (mergeEffect cfg s) := s.setAcc_keeps _ _

theorem hardenEffect_keeps (cfg : Params) (s : State) : s.KeepsInStage (hardenEffect cfg s) := s.setQuad_keeps _

theorem fblockEffect_keeps (cfg : Params) (s : State) : s.KeepsInStage (fblockEffect cfg s) := s.setQuad_keeps _

theorem rekeyEffect_of_keyed {s : State} (h : s.keyv = true) :
    rekeyEffect s = s.setQuad (rekeyLanes s.k0Seen s.k1Seen (firstQuad s.accSeen)) := by
  rw [rekeyEffect, if_pos h]

theorem rekeyEffect_of_not_keyed {s : State} (h : s.keyv = false) : rekeyEffect s = s := by
  rw [rekeyEffect, h, if_neg Bool.false_ne_true]

/-- REKEY writes lane registers or nothing (R174). -/
theorem rekeyEffect_cases (s : State) : (∃ q, rekeyEffect s = s.setQuad q) ∨ rekeyEffect s = s := by
  cases h : s.keyv with
  | true => exact .inl ⟨_, rekeyEffect_of_keyed h⟩
  | false => exact .inr (rekeyEffect_of_not_keyed h)

theorem rekeyEffect_keeps (s : State) : s.KeepsInStage (rekeyEffect s) := by
  rcases rekeyEffect_cases s with ⟨q, e⟩ | e <;> rw [e]
  · exact s.setQuad_keeps q
  · exact ⟨⟨rfl, rfl, rfl, rfl, rfl, rfl, rfl, rfl, rfl, List.Sublist.refl _⟩, rfl, rfl, rfl⟩

theorem reduceEffect_keeps (cfg : Params) (s : State) : s.KeepsInStage (reduceEffect cfg s) := s.setDigest_keeps _

theorem finalEffect_keeps (cfg : Params) (n : Nat) (s : State) : s.KeepsInStage (finalEffect cfg n s) :=
  (tailEffect_keeps cfg n s).trans <| (mergeEffect_keeps cfg _).trans <| (hardenEffect_keeps cfg _).trans <|
    (fblockEffect_keeps cfg _).trans <| (rekeyEffect_keeps _).trans (reduceEffect_keeps cfg _)

theorem shortEffect_keeps (cfg : Params) (n : Nat) (s : State) : s.KeepsInStage (shortEffect cfg n s) :=
  (s.setQuad_keeps _).trans (State.setDigest_keeps _ _)

theorem initEffect_keeps (cfg : Params) (k : Bool) (s : State) : s.KeepsHostSide (initEffect cfg k s) :=
  ⟨rfl, rfl, rfl, rfl, rfl, rfl, rfl, rfl, rfl, s.setAcc_sublist 32 (bulkInit cfg s.seed k s.k0Seen s.k1Seen)⟩

theorem compressEffect_keeps (cfg : Params) (s : State) : s.KeepsHostSide (compressEffect cfg s) :=
  ⟨rfl, rfl, rfl, rfl, rfl, rfl, rfl, rfl, rfl, s.setAcc_sublist 32 (bulkCompress cfg s.accSeen (blockWords cfg s) s.blk)⟩

/-- No command but SRESET writes what the host's writes alone write, and none makes a word unspecified. -/
theorem effectOf_keeps {i : Instr} (hi : i ≠ .sreset) (s : State) : s.KeepsHostSide (effectOf i s) := by
  cases i with
  | sreset => exact absurd rfl hi
  | nop | clrerr => exact ⟨rfl, rfl, rfl, rfl, rfl, rfl, rfl, rfl, rfl, List.Sublist.refl _⟩
  | subb | shrow | mixc | aesr | clmul _ _ | xor | add64 => exact s.setRes_keeps _
  | short n => exact (shortEffect_keeps _ n s).toKeepsHostSide
  | init k => exact initEffect_keeps _ k s
  | compress => exact compressEffect_keeps _ s
  | tail n => exact (tailEffect_keeps _ n s).toKeepsHostSide
  | merge => exact (mergeEffect_keeps _ s).toKeepsHostSide
  | harden => exact (hardenEffect_keeps _ s).toKeepsHostSide
  | fblock => exact (fblockEffect_keeps _ s).toKeepsHostSide
  | rekey => exact (rekeyEffect_keeps s).toKeepsHostSide
  | reduce => exact (reduceEffect_keeps _ s).toKeepsHostSide
  | final n => exact (finalEffect_keeps _ n s).toKeepsHostSide

/-! ## The canonical form of the storage -/

theorem State.canonical_iff (s : State) :
    s.canonical = true ↔ Memory.wf s.mbuf = true ∧ s.unspecified.Sublist unspecifiedAtReset := by
  rw [State.canonical, Bool.and_eq_true, List.isSublist_iff_sublist]

/-- A state with canonical bytes and no new mark is canonical. -/
theorem State.canonical_of_sublist {s t : State} (h : s.canonical = true) (hb : Memory.wf t.mbuf = true)
    (hm : t.unspecified.Sublist s.unspecified) : t.canonical = true :=
  t.canonical_iff.mpr ⟨hb, hm.trans (s.canonical_iff.mp h).2⟩

/-- A store of the host keeps `MBUF` canonical (R52, R55). -/
theorem State.writeReg_wf (s : State) {r : Reg} {k : Nat} (w : Word) (hk : k < r.row.words) (h : Memory.wf s.mbuf = true) :
    Memory.wf (s.writeReg r k w).mbuf = true := by
  cases r
  case mbuf =>
    simp only [Reg.row] at hk
    exact Memory.putWord_wf _ _ _ (by omega) h
  all_goals exact h

/-- Settles O56. -/
theorem resetStorageIsCanonical : Obligations.ResetStorageIsCanonical :=
  State.reset.canonical_iff.mpr ⟨rfl, List.Sublist.refl _⟩

/-- A reset leaves canonical storage. -/
theorem State.resetEngine_canonical (s : State) : s.resetEngine.canonical = true :=
  (State.canonical_iff _).mpr (State.reset.canonical_iff.mp resetStorageIsCanonical)

/-- A command keeps the storage canonical. -/
theorem exec_canonical {i : Instr} {s t : State} (h : exec i s = .next t) (hs : s.canonical = true) : t.canonical = true := by
  rcases exec_inv h with ⟨e, rfl⟩ | ⟨-, -, rfl⟩
  · exact hs
  · by_cases hi : i = .sreset
    · subst hi
      exact s.resetEngine_canonical
    · have keeps := effectOf_keeps hi s
      exact State.canonical_of_sublist hs (keeps.mbuf ▸ (s.canonical_iff.mp hs).1) keeps.marks

/-- Settles O57: a command, a reset and a store each keep the storage canonical, and nothing else touches it. -/
theorem stepKeepsStorageCanonical : Obligations.StepKeepsStorageCanonical := by
  intro s t hs h
  rcases step_inv h with rfl | ⟨x, rest, -, ⟨w, i, -, -, he⟩ | ⟨-, rfl⟩ | ⟨v, e, rfl⟩ | ⟨r, k, w, -, hk, rfl⟩⟩
  · exact hs
  · exact exec_canonical (s := s.performing rest) he hs
  · exact State.resetEngine_canonical _
  · exact hs
  · exact State.canonical_of_sublist (s := s.performing rest) hs
      (State.writeReg_wf _ w hk ((s.performing rest).canonical_iff.mp hs).1) (State.writeReg_sublist _ r k w)

/-! ## What a hash in progress reads has been written -/

theorem State.define_definedOn (s : State) (a n : Nat) : (s.define a n).definedOn a (a + 4 * n) :=
  fun x hx => ((s.mem_define a n x).mp hx).2

theorem State.setDigest_definedOn (s : State) (v : BitVec 256) : (s.setDigest v).definedOn 0x060 0x080 :=
  s.define_definedOn 0x060 8

theorem State.setAcc_definedOn (s : State) (v : Bulk) : (s.setAcc 32 v).definedOn 0x400 0x600 := by
  intro x hx
  rw [State.setAcc_unspecified, State.mem_define] at hx
  omega

theorem shortEffect_definedOn (cfg : Params) (n : Nat) (s : State) : (shortEffect cfg n s).definedOn 0x060 0x080 := by
  unfold shortEffect; exact State.setDigest_definedOn _ _

theorem reduceEffect_definedOn (cfg : Params) (s : State) : (reduceEffect cfg s).definedOn 0x060 0x080 :=
  State.setDigest_definedOn _ _

theorem finalEffect_definedOn (cfg : Params) (n : Nat) (s : State) : (finalEffect cfg n s).definedOn 0x060 0x080 :=
  reduceEffect_definedOn cfg _

theorem initEffect_definedOn (cfg : Params) (k : Bool) (s : State) : (initEffect cfg k s).definedOn 0x400 0x600 :=
  fun x hx => s.setAcc_definedOn (bulkInit cfg s.seed k s.k0Seen s.k1Seen) x hx

theorem compressEffect_definedOn (cfg : Params) (s : State) : (compressEffect cfg s).definedOn 0x400 0x600 :=
  fun x hx => s.setAcc_definedOn (bulkCompress cfg s.accSeen (blockWords cfg s) s.blk) x hx

theorem State.writtenBeforeRead.acc {s : State} (h : s.writtenBeforeRead) :
    s.phase.inProgress = true → s.definedOn 0x400 0x600 := h.1

theorem State.writtenBeforeRead.dpad {s : State} (h : s.writtenBeforeRead) :
    s.phase.afterTail = true → s.definedOn 0x100 0x140 := h.2.1

theorem State.writtenBeforeRead.digest {s : State} (h : s.writtenBeforeRead) :
    s.phase = .done → s.definedOn 0x060 0x080 := h.2.2

/-- The invariant holds where no new word is marked and the phase asks for no more than it did. -/
theorem State.writtenBeforeRead_of_sublist {s t : State} (h : s.writtenBeforeRead)
    (hm : t.unspecified.Sublist s.unspecified) (hacc : t.phase.inProgress = true → s.phase.inProgress = true)
    (hdpad : t.phase.afterTail = true → s.phase.afterTail = true) (hdone : t.phase = .done → s.phase = .done) :
    t.writtenBeforeRead :=
  ⟨fun hp => State.definedOn_of_sublist hm (h.acc (hacc hp)), fun hp => State.definedOn_of_sublist hm (h.dpad (hdpad hp)),
    fun hp => State.definedOn_of_sublist hm (h.digest (hdone hp))⟩

/-- The invariant in IDLE, where no hash is in progress. -/
theorem State.writtenBeforeRead_of_idle {t : State} (hp : t.phase = .idle) : t.writtenBeforeRead := by
  unfold State.writtenBeforeRead
  rw [hp]
  exact ⟨fun h => absurd h (by decide), fun h => absurd h (by decide), fun h => absurd h (by decide)⟩

/-- The invariant in DONE: the digest has been written. -/
theorem State.writtenBeforeRead_of_done {t : State} (hp : t.phase = .done) (hd : t.definedOn 0x060 0x080) :
    t.writtenBeforeRead := by
  unfold State.writtenBeforeRead
  rw [hp]
  exact ⟨fun h => absurd h (by decide), fun h => absurd h (by decide), fun _ => hd⟩

/-- The invariant in ABSORB: the lane registers have been written. -/
theorem State.writtenBeforeRead_of_absorb {t : State} (hp : t.phase = .absorb) (hd : t.definedOn 0x400 0x600) :
    t.writtenBeforeRead := by
  unfold State.writtenBeforeRead
  rw [hp]
  exact ⟨fun _ => hd, fun h => absurd h (by decide), fun h => absurd h (by decide)⟩

/-- The invariant in TAILED: the lane registers and `DPAD` have been written. -/
theorem State.writtenBeforeRead_of_tailed {t : State} (hp : t.phase = .tailed) (hacc : t.definedOn 0x400 0x600)
    (hdpad : t.definedOn 0x100 0x140) : t.writtenBeforeRead := by
  unfold State.writtenBeforeRead
  rw [hp]
  exact ⟨fun _ => hacc, fun _ => hdpad, fun h => absurd h (by decide)⟩

/-- A command that is illegal in IDLE is legal only while a hash is in progress (R80). -/
theorem inProgress_of_legalIn {i : Instr} {p : Phase} (hl : legalIn i p = true) (hi : legalIn i .idle = false) :
    p.inProgress = true := by
  have same : legalIn i .done = legalIn i .idle := by cases i <;> rfl
  cases p with
  | absorb | tailed | merged | hardened | committed | rekeyed => rfl
  | idle => exact absurd (hl.symm.trans hi) (by decide)
  | done => exact absurd (hl.symm.trans (same.trans hi)) (by decide)

/-- A command that is illegal in ABSORB is legal only after the tail (R80). -/
theorem afterTail_of_legalIn {i : Instr} {p : Phase} (hl : legalIn i p = true) (hi : legalIn i .absorb = false) :
    p.afterTail = true := by
  have idle : legalIn i .idle = true → legalIn i .absorb = true := by cases i <;> simp [legalIn]
  have same : legalIn i .done = legalIn i .idle := by cases i <;> rfl
  cases p with
  | tailed | merged | hardened | committed | rekeyed => rfl
  | absorb => exact absurd (hl.symm.trans hi) (by decide)
  | idle => exact absurd ((idle hl).symm.trans hi) (by decide)
  | done => exact absurd ((idle (same.symm.trans hl)).symm.trans hi) (by decide)

/-- The invariant after a stage of the finalisation: nothing is marked, and the tail stays absorbed. -/
theorem State.writtenBeforeRead_of_stage {s t : State} (h : s.writtenBeforeRead)
    (hm : t.unspecified.Sublist s.unspecified) (hs : s.phase.afterTail = true) (ht : t.phase ≠ .done) :
    t.writtenBeforeRead :=
  have hacc : s.phase.inProgress = true := by revert hs; cases s.phase <;> decide
  State.writtenBeforeRead_of_sublist h hm (fun _ => hacc) (fun _ => hs) fun e => absurd e ht

/-- A command that is performed keeps the invariant: it writes what the phase it leaves asks for, or asks for no more. -/
theorem effectOf_writtenBeforeRead {i : Instr} {s : State} (hl : legalIn i s.phase = true) (h : s.writtenBeforeRead) :
    ({ effectOf i s with phase := phaseAfter i s.phase } : State).writtenBeforeRead := by
  have marks : i ≠ .sreset → (effectOf i s).unspecified.Sublist s.unspecified := fun hi => (effectOf_keeps hi s).marks
  cases i with
  | sreset => exact State.writtenBeforeRead_of_idle rfl
  | nop | clrerr | subb | shrow | mixc | aesr | clmul _ _ | xor | add64 =>
    exact State.writtenBeforeRead_of_sublist h (marks nofun) id id id
  | short n => exact State.writtenBeforeRead_of_done rfl (shortEffect_definedOn Config.params n s)
  | init k => exact State.writtenBeforeRead_of_absorb rfl (initEffect_definedOn Config.params k s)
  | compress => exact State.writtenBeforeRead_of_absorb rfl (compressEffect_definedOn Config.params s)
  | tail n =>
    exact State.writtenBeforeRead_of_tailed rfl
      (State.definedOn_of_sublist (marks nofun) (h.acc (inProgress_of_legalIn hl rfl))) (tailEffect_marks Config.params n s).2
  | merge | harden | fblock | rekey =>
    exact State.writtenBeforeRead_of_stage h (marks nofun) (afterTail_of_legalIn hl rfl) nofun
  | reduce => exact State.writtenBeforeRead_of_done rfl (reduceEffect_definedOn Config.params s)
  | final n => exact State.writtenBeforeRead_of_done rfl (finalEffect_definedOn Config.params n s)

/-- Settles O58. -/
theorem resetIsWrittenBeforeRead : Obligations.ResetIsWrittenBeforeRead := State.writtenBeforeRead_of_idle rfl

/-- Settles O59: a command by the phase it leaves, a reset by IDLE, and an access of the host marks nothing. -/
theorem stepKeepsWrittenBeforeRead : Obligations.StepKeepsWrittenBeforeRead := by
  intro s t hs h
  rcases step_inv h with rfl | ⟨x, rest, -, ⟨w, i, -, -, he⟩ | ⟨-, rfl⟩ | ⟨v, e, rfl⟩ | ⟨r, k, w, -, hk, rfl⟩⟩
  · exact hs
  · rcases exec_inv he with ⟨e, rfl⟩ | ⟨hl, -, rfl⟩
    · exact hs
    · exact effectOf_writtenBeforeRead (s := s.performing rest) hl hs
  · exact State.writtenBeforeRead_of_idle rfl
  · exact hs
  · have phase := (s.performing rest).writeReg_phase r k w
    exact State.writtenBeforeRead_of_sublist (s := s.performing rest) hs (State.writeReg_sublist _ r k w)
      (fun hp => by rwa [phase] at hp) (fun hp => by rwa [phase] at hp) (fun hp => by rwa [phase] at hp)

/-! ## The moves of PHASE (30_encoding.md R80) -/

/-- The rows of R80 that move PHASE. -/
theorem phaseAfter_moves {i : Instr} {p : Phase} (hl : legalIn i p = true) (hn : lengthInRange i = true)
    (hne : phaseAfter i p ≠ p) :
    (i = .sreset ∧ phaseAfter i p = .idle) ∨ ((∃ n, i = .short n ∧ n ≤ 63) ∧ phaseAfter i p = .done)
      ∨ ((∃ k, i = .init k) ∧ phaseAfter i p = .absorb)
      ∨ ((∃ n, i = .tail n ∧ n ≤ 511) ∧ p = .absorb ∧ phaseAfter i p = .tailed)
      ∨ (i = .merge ∧ p = .tailed ∧ phaseAfter i p = .merged)
      ∨ (i = .harden ∧ p = .merged ∧ phaseAfter i p = .hardened)
      ∨ (i = .fblock ∧ p = .hardened ∧ phaseAfter i p = .committed)
      ∨ (i = .rekey ∧ p = .committed ∧ phaseAfter i p = .rekeyed)
      ∨ (i = .reduce ∧ p = .rekeyed ∧ phaseAfter i p = .done)
      ∨ ((∃ n, i = .final n ∧ n ≤ 511) ∧ p = .absorb ∧ phaseAfter i p = .done) := by
  cases i with
  | nop | clrerr | subb | shrow | mixc | aesr | clmul _ _ | xor | add64 => exact absurd rfl hne
  | compress => exact absurd (eq_of_beq hl).symm hne
  | sreset | init k => simp [phaseAfter]
  | short n => simpa [phaseAfter, lengthInRange] using hn
  | tail n | final n => simpa [phaseAfter, lengthInRange, legalIn] using And.intro hn hl
  | merge | harden | fblock | rekey | reduce => simpa [phaseAfter, legalIn] using hl

/-- Settles O13: of what a step can come to, only a reset and a performed command write PHASE. -/
theorem phaseMovesOnlyByItsCommands : Obligations.PhaseMovesOnlyByItsCommands := by
  intro s t h hne
  rcases step_inv h with rfl | ⟨x, rest, hp, ⟨w, i, hx, hd, he⟩ | ⟨hx, rfl⟩ | ⟨v, e, rfl⟩ | ⟨r, k, w, -, -, rfl⟩⟩
  · exact absurd rfl hne
  · refine ⟨x, rest, hp, .inr ⟨w, i, hx, hd, ?_⟩⟩
    rcases exec_inv he with ⟨e, rfl⟩ | ⟨hl, hn, rfl⟩
    · exact absurd rfl hne
    · exact phaseAfter_moves hl hn hne
  · exact ⟨x, rest, hp, .inl ⟨hx, rfl⟩⟩
  · exact absurd rfl hne
  · exact absurd ((s.performing rest).writeReg_phase r k w) hne

end Sys2Proof.Machine

namespace Sys2Proof.Machine

/-! ## Which commands write which registers (10_state.md R20) -/

theorem effectOf_res {i : Instr} {s : State} (hi : i ≠ .sreset) (h : (effectOf i s).res ≠ s.res) :
    i = .subb ∨ i = .shrow ∨ i = .mixc ∨ i = .aesr ∨ (∃ a b, i = .clmul a b) ∨ i = .xor ∨ i = .add64 := by
  cases i with
  | sreset => exact absurd rfl hi
  | subb | shrow | mixc | aesr | clmul _ _ | xor | add64 => simp
  | rekey => exact absurd (rekeyEffect_keeps s).res h
  | final n => exact absurd (finalEffect_keeps _ n s).res h
  | nop | clrerr | short _ | init _ | compress | tail _ | merge | harden | fblock | reduce => exact absurd rfl h

theorem effectOf_digest {i : Instr} {s : State} (hi : i ≠ .sreset) (h : (effectOf i s).digest ≠ s.digest) :
    i = .reduce ∨ (∃ n, i = .final n) ∨ ∃ n, i = .short n := by
  cases i with
  | sreset => exact absurd rfl hi
  | reduce | final _ | short _ => simp
  | rekey => rcases rekeyEffect_cases s with ⟨q, e⟩ | e <;> exact absurd (congrArg State.digest e) h
  | nop | clrerr | subb | shrow | mixc | aesr | clmul _ _ | xor | add64 | init _ | compress | tail _ | merge | harden
  | fblock => exact absurd rfl h

theorem effectOf_dpad {i : Instr} {s : State} (hi : i ≠ .sreset) (h : (effectOf i s).dpad ≠ s.dpad) :
    (∃ n, i = .tail n) ∨ ∃ n, i = .final n := by
  cases i with
  | sreset => exact absurd rfl hi
  | tail _ | final _ => simp
  | rekey => rcases rekeyEffect_cases s with ⟨q, e⟩ | e <;> exact absurd (congrArg State.dpad e) h
  | nop | clrerr | subb | shrow | mixc | aesr | clmul _ _ | xor | add64 | short _ | init _ | compress | merge | harden
  | fblock | reduce => exact absurd rfl h

theorem effectOf_keyv {i : Instr} {s : State} (hi : i ≠ .sreset) (h : (effectOf i s).keyv ≠ s.keyv) : ∃ k, i = .init k := by
  cases i with
  | sreset => exact absurd rfl hi
  | init k => exact ⟨k, rfl⟩
  | rekey => exact absurd (rekeyEffect_keeps s).keyv h
  | final n => exact absurd (finalEffect_keeps _ n s).keyv h
  | nop | clrerr | subb | shrow | mixc | aesr | clmul _ _ | xor | add64 | short _ | compress | tail _ | merge | harden
  | fblock | reduce => exact absurd rfl h

theorem effectOf_len {i : Instr} {s : State} (hi : i ≠ .sreset) (h : (effectOf i s).len ≠ s.len) :
    (∃ k, i = .init k) ∨ i = .compress ∨ (∃ n, i = .tail n) ∨ ∃ n, i = .final n := by
  cases i with
  | sreset => exact absurd rfl hi
  | init _ | compress | tail _ | final _ => simp
  | rekey => rcases rekeyEffect_cases s with ⟨q, e⟩ | e <;> exact absurd (congrArg State.len e) h
  | nop | clrerr | subb | shrow | mixc | aesr | clmul _ _ | xor | add64 | short _ | merge | harden | fblock | reduce =>
    exact absurd rfl h

theorem effectOf_blk {i : Instr} {s : State} (hi : i ≠ .sreset) (h : (effectOf i s).blk ≠ s.blk) :
    (∃ k, i = .init k) ∨ i = .compress := by
  cases i with
  | sreset => exact absurd rfl hi
  | init _ | compress => simp
  | rekey => exact absurd (rekeyEffect_keeps s).blk h
  | final n => exact absurd (finalEffect_keeps _ n s).blk h
  | nop | clrerr | subb | shrow | mixc | aesr | clmul _ _ | xor | add64 | short _ | tail _ | merge | harden | fblock
  | reduce => exact absurd rfl h

theorem effectOf_acc {i : Instr} {s : State} (hi : i ≠ .sreset) (h : (effectOf i s).acc ≠ s.acc) :
    (∃ k, i = .init k) ∨ i = .compress ∨ (∃ n, i = .tail n) ∨ i = .merge ∨ i = .harden ∨ i = .fblock ∨ i = .rekey
      ∨ (∃ n, i = .final n) ∨ ∃ n, i = .short n := by
  cases i with
  | sreset => exact absurd rfl hi
  | init _ | compress | tail _ | merge | harden | fblock | rekey | final _ | short _ => simp
  | nop | clrerr | subb | shrow | mixc | aesr | clmul _ _ | xor | add64 | reduce => exact absurd rfl h

/-- Settles O52: a command that is refused writes `ERR` alone, a command that is performed its registers. -/
theorem commandsWriteOnlyTheirRegisters : Obligations.CommandsWriteOnlyTheirRegisters := by
  intro i s t hi h
  rcases exec_inv h with ⟨e, rfl⟩ | ⟨-, -, rfl⟩
  · exact ⟨fun _ => rfl, rfl, rfl, rfl, rfl, rfl, rfl, rfl, rfl, fun h => absurd rfl h, fun h => absurd rfl h,
      fun h => absurd rfl h, fun h => absurd rfl h, fun h => absurd rfl h, fun h => absurd rfl h, fun h => absurd rfl h⟩
  · have keeps := effectOf_keeps hi s
    exact ⟨fun a => congrArg (Memory.find · a) keeps.mbuf, keeps.opa, keeps.opb, keeps.domain, keeps.seed, keeps.key,
      keeps.pending, keeps.draw, keeps.rdata, effectOf_res hi, effectOf_digest hi, effectOf_dpad hi, effectOf_keyv hi,
      effectOf_len hi, effectOf_blk hi, effectOf_acc hi⟩

end Sys2Proof.Machine

namespace Sys2Proof.Machine

/-! ## What the free draws can reach (10_state.md R40)

`{ s with draw := d }` is `s` in an access with other free draws. Storage that something has written reads alike in both. -/

theorem State.accSeen_withDraw {s : State} (d : Nat) (h : s.definedOn 0x400 0x600) :
    ({ s with draw := d } : State).accSeen = s.accSeen :=
  (State.accSeen_of_definedOn (s := { s with draw := d }) h).trans (State.accSeen_of_definedOn h).symm

theorem State.dpadSeen_withDraw {s : State} (d : Nat) (h : s.definedOn 0x100 0x140) :
    ({ s with draw := d } : State).dpadSeen = s.dpadSeen :=
  (State.dpadSeen_of_definedOn (s := { s with draw := d }) h).trans (State.dpadSeen_of_definedOn h).symm

/-- A 128-bit register all of whose words are defined reads alike in every access. -/
theorem State.seenLane_withDraw {s : State} {a b c : Nat} (d : Nat) (x : Lane) (h : s.definedOn a b) (ha : a ≤ c)
    (hb : c + 16 ≤ b) : ({ s with draw := d } : State).seenLane c x = s.seenLane c x :=
  (State.seenLane_of_definedOn (s := { s with draw := d }) x h ha hb).trans (State.seenLane_of_definedOn x h ha hb).symm

theorem State.opaSeen_withDraw {s : State} {b : Nat} (d : Nat) (h : s.definedOn 0x080 b) (hb : 0x090 ≤ b) :
    ({ s with draw := d } : State).opaSeen = s.opaSeen :=
  State.seenLane_withDraw d s.opa h (by omega) (by omega)

theorem State.opbSeen_withDraw {s : State} (d : Nat) (h : s.definedOn 0x080 0x0A0) :
    ({ s with draw := d } : State).opbSeen = s.opbSeen :=
  State.seenLane_withDraw d s.opb h (by omega) (by omega)

theorem State.k0Seen_withDraw {s : State} (d : Nat) (h : s.definedOn 0x040 0x060) :
    ({ s with draw := d } : State).k0Seen = s.k0Seen :=
  State.seenLane_withDraw d _ h (by omega) (by omega)

theorem State.k1Seen_withDraw {s : State} (d : Nat) (h : s.definedOn 0x040 0x060) :
    ({ s with draw := d } : State).k1Seen = s.k1Seen :=
  State.seenLane_withDraw d _ h (by omega) (by omega)

theorem State.mbufByte_withDraw {s : State} {k : Nat} (d : Nat) (h : s.mbufWritten k) :
    ({ s with draw := d } : State).mbufByte k = s.mbufByte k :=
  State.mbufByte_of_written h rfl

theorem State.mbufBytes_withDraw {s : State} {a n : Nat} (d : Nat) (h : ∀ k, a ≤ k → k < a + n → s.mbufWritten k) :
    ({ s with draw := d } : State).mbufBytes a n = s.mbufBytes a n :=
  State.mbufBytes_congr fun k hk => State.mbufByte_withDraw d (h _ (by omega) (by omega))

/-! ### The writes of registers do not look at the draws -/

theorem State.setRes_withDraw (s : State) (d : Nat) (v : Lane) :
    ({ s with draw := d } : State).setRes v = { s.setRes v with draw := d } := rfl

theorem State.setDigest_withDraw (s : State) (d : Nat) (v : BitVec 256) :
    ({ s with draw := d } : State).setDigest v = { s.setDigest v with draw := d } := rfl

theorem State.setAcc_withDraw (s : State) (d count : Nat) (v : Bulk) :
    ({ s with draw := d } : State).setAcc count v = { s.setAcc count v with draw := d } := rfl

theorem State.setQuad_withDraw (s : State) (d : Nat) (q : Quad) :
    ({ s with draw := d } : State).setQuad q = { s.setQuad q with draw := d } := rfl

/-! ### The effects of commands -/

theorem shortEffect_withDraw (cfg : Params) {n : Nat} {s : State} (d : Nat) (h : ∀ k, k < n → s.mbufWritten k) :
    shortEffect cfg n { s with draw := d } = { shortEffect cfg n s with draw := d } := by
  unfold shortEffect
  rw [State.mbufBytes_withDraw d fun k _ hk => h k (by omega)]
  rfl

/-- Without the key flag INIT reads no key (R138). -/
theorem bulkInit_unkeyed (cfg : Params) (seed : Half) (k0 k1 : Lane) :
    bulkInit cfg seed false k0 k1 = bulkSeed cfg seed (bulkFill cfg) := by
  rw [bulkInit, if_neg Bool.false_ne_true]

theorem initEffect_withDraw (cfg : Params) {k : Bool} {s : State} (d : Nat) (h : k = true → s.definedOn 0x040 0x060) :
    initEffect cfg k { s with draw := d } = { initEffect cfg k s with draw := d } := by
  unfold initEffect
  cases k with
  | false => rw [bulkInit_unkeyed, bulkInit_unkeyed]; rfl
  | true => rw [State.k0Seen_withDraw d (h rfl), State.k1Seen_withDraw d (h rfl)]; rfl

theorem compressEffect_withDraw (cfg : Params) {s : State} (d : Nat) (hacc : s.definedOn 0x400 0x600)
    (h : ∀ k, k < 512 → s.mbufWritten k) :
    compressEffect cfg { s with draw := d } = { compressEffect cfg s with draw := d } := by
  unfold compressEffect
  rw [State.accSeen_withDraw d hacc,
    blockWords_congr cfg (s := { s with draw := d }) (u := s) fun k hk => State.mbufByte_withDraw d (h k hk)]
  rfl

theorem tailEffect_withDraw (cfg : Params) {n : Nat} {s : State} (d : Nat) (hacc : s.definedOn 0x400 0x600)
    (h : ∀ k, k < n → s.mbufWritten k) :
    tailEffect cfg n { s with draw := d } = { tailEffect cfg n s with draw := d } := by
  unfold tailEffect
  rw [absorbChunks_congr cfg (s := { s with draw := d }) (u := s) (State.accSeen_withDraw d hacc) fun k hk =>
      State.mbufByte_withDraw d (h k (by omega)),
    State.mbufBytes_withDraw d fun k _ hk => h k (by omega)]
  rfl

theorem mergeEffect_withDraw (cfg : Params) {s : State} (d : Nat) (hacc : s.definedOn 0x400 0x600) :
    mergeEffect cfg { s with draw := d } = { mergeEffect cfg s with draw := d } := by
  unfold mergeEffect
  rw [State.accSeen_withDraw d hacc, State.setAcc_withDraw]

theorem hardenEffect_withDraw (cfg : Params) {s : State} (d : Nat) (hacc : s.definedOn 0x400 0x600) :
    hardenEffect cfg { s with draw := d } = { hardenEffect cfg s with draw := d } := by
  unfold hardenEffect
  rw [State.accSeen_withDraw d hacc, State.setQuad_withDraw]

theorem fblockEffect_withDraw (cfg : Params) {s : State} (d : Nat) (hacc : s.definedOn 0x400 0x600)
    (hdpad : s.definedOn 0x100 0x140) :
    fblockEffect cfg { s with draw := d } = { fblockEffect cfg s with draw := d } := by
  unfold fblockEffect
  rw [State.accSeen_withDraw d hacc, State.dpadSeen_withDraw d hdpad, State.setQuad_withDraw]

theorem rekeyEffect_withDraw {s : State} (d : Nat) (hacc : s.definedOn 0x400 0x600)
    (hkey : s.keyv = true → s.definedOn 0x040 0x060) :
    rekeyEffect { s with draw := d } = { rekeyEffect s with draw := d } := by
  rcases Bool.eq_false_or_eq_true s.keyv with hk | hk
  · rw [rekeyEffect_of_keyed hk, rekeyEffect_of_keyed (s := { s with draw := d }) hk, State.accSeen_withDraw d hacc,
      State.k0Seen_withDraw d (hkey hk), State.k1Seen_withDraw d (hkey hk), State.setQuad_withDraw]
  · rw [rekeyEffect_of_not_keyed hk, rekeyEffect_of_not_keyed (s := { s with draw := d }) hk]

theorem reduceEffect_withDraw (cfg : Params) {s : State} (d : Nat) (hacc : s.definedOn 0x400 0x600) :
    reduceEffect cfg { s with draw := d } = { reduceEffect cfg s with draw := d } := by
  unfold reduceEffect
  rw [State.accSeen_withDraw d hacc, State.setDigest_withDraw]

/-- FINAL hands on defined lanes from stage to stage, a defined `DPAD` from TAIL, and the key as it was (R177, R178). -/
theorem finalEffect_withDraw (cfg : Params) {n : Nat} {s : State} (d : Nat) (hacc : s.definedOn 0x400 0x600)
    (h : ∀ k, k < n → s.mbufWritten k) (hkey : s.keyv = true → s.definedOn 0x040 0x060) :
    finalEffect cfg n { s with draw := d } = { finalEffect cfg n s with draw := d } := by
  have toTail := tailEffect_keeps cfg n s
  have toMerge := toTail.trans (mergeEffect_keeps cfg _)
  have toHarden := toMerge.trans (hardenEffect_keeps cfg _)
  have toFblock := toHarden.trans (fblockEffect_keeps cfg _)
  have toRekey := toFblock.trans (rekeyEffect_keeps _)
  have dpad := State.definedOn_of_sublist ((mergeEffect_keeps cfg _).trans (hardenEffect_keeps cfg _)).marks
    (tailEffect_marks cfg n s).2
  unfold finalEffect
  rw [tailEffect_withDraw cfg d hacc h,
    mergeEffect_withDraw cfg d (State.definedOn_of_sublist toTail.marks hacc),
    hardenEffect_withDraw cfg d (State.definedOn_of_sublist toMerge.marks hacc),
    fblockEffect_withDraw cfg d (State.definedOn_of_sublist toHarden.marks hacc) dpad,
    rekeyEffect_withDraw d (State.definedOn_of_sublist toFblock.marks hacc) fun hk =>
      State.definedOn_of_sublist toFblock.marks (hkey (toFblock.keyv ▸ hk)),
    reduceEffect_withDraw cfg d (State.definedOn_of_sublist toRekey.marks hacc)]

/-- With the invariant and the set-up of R262, the effect of a command that is legal does not depend on the draws. -/
theorem effectOf_withDraw {i : Instr} {s : State} (d : Nat) (hl : legalIn i s.phase = true) (hw : s.writtenBeforeRead)
    (hset : s.setUpFor i) : effectOf i { s with draw := d } = { effectOf i s with draw := d } := by
  have acc : legalIn i .idle = false → s.definedOn 0x400 0x600 := fun hi => hw.acc (inProgress_of_legalIn hl hi)
  cases i with
  | nop | clrerr | sreset => rfl
  | subb | shrow | mixc => simp only [effectOf, State.opaSeen_withDraw d hset (by decide), State.setRes_withDraw]
  | aesr | clmul _ _ | xor | add64 =>
    simp only [effectOf, State.opaSeen_withDraw d hset (by decide), State.opbSeen_withDraw d hset, State.setRes_withDraw]
  | short n => exact shortEffect_withDraw _ d hset
  | init k => exact initEffect_withDraw _ d hset
  | compress => exact compressEffect_withDraw _ d (acc rfl) hset
  | tail n => exact tailEffect_withDraw _ d (acc rfl) hset
  | merge => exact mergeEffect_withDraw _ d (acc rfl)
  | harden => exact hardenEffect_withDraw _ d (acc rfl)
  | fblock => exact fblockEffect_withDraw _ d (acc rfl) (hw.dpad (afterTail_of_legalIn hl rfl))
  | rekey => exact rekeyEffect_withDraw d (acc rfl) hset
  | reduce => exact reduceEffect_withDraw _ d (acc rfl)
  | final n => exact finalEffect_withDraw _ d (acc rfl) hset.1 hset.2

/-- Where a command's effect does not depend on the draws, the command does not: its refusals never read storage. -/
theorem exec_withDraw {i : Instr} {s : State} {d : Nat}
    (h : legalIn i s.phase = true → lengthInRange i = true → effectOf i { s with draw := d } = { effectOf i s with draw := d }) :
    exec i { s with draw := d } = mapNext (fun t => { t with draw := d }) (exec i s) := by
  rw [exec_eq_command, exec_eq_command]
  unfold command
  dsimp only
  split_ifs with hg hp hn
  · rfl
  · rw [State.raise_eq, State.raise_eq]; rfl
  · rw [State.raise_eq, State.raise_eq]; rfl
  · rw [h (by simpa using hp) (by simpa using hn)]; rfl

/-- Settles O60: reads of defined storage are of what is held, and with R262's set-up a command reads no other. -/
theorem aHashInProgressReadsNoFreeDraw : Obligations.AHashInProgressReadsNoFreeDraw := by
  refine ⟨fun s hw => ⟨fun hp => State.accSeen_of_definedOn (hw.acc hp), fun hp => State.dpadSeen_of_definedOn (hw.dpad hp),
    fun hp k hk => ?_⟩, fun i s d hw hset => exec_withDraw fun hl _ => effectOf_withDraw d hl hw hset⟩
  exact State.seenWord_of_defined _ _ _ fun hm => hw.digest hp _ hm (by omega)

/-- A fully written engine has all that R262 asks before a command in range. -/
theorem State.setUpFor_of_fully_written {i : Instr} {s : State} (hu : s.unspecified = [])
    (hm : ∀ k, k < 512 → s.mbufWritten k) (hn : lengthInRange i = true) : s.setUpFor i := by
  have defined : ∀ a b, s.definedOn a b := fun a b x hx => by rw [hu] at hx; cases hx
  cases i with
  | nop | clrerr | sreset | merge | harden | fblock | reduce => trivial
  | subb | shrow | mixc | aesr | clmul _ _ | xor | add64 => exact defined _ _
  | short n => exact fun k hk => hm k (by have := of_decide_eq_true hn; omega)
  | tail n => exact fun k hk => hm k (by have := of_decide_eq_true hn; omega)
  | final n => exact ⟨fun k hk => hm k (by have := of_decide_eq_true hn; omega), fun _ => defined _ _⟩
  | init _ | rekey => exact fun _ => defined _ _
  | compress => exact hm

/-- Settles O54: a fully written engine meets the invariant and the set-up of R262, whatever its phase. -/
theorem fullyWrittenStateIsDeterministic : Obligations.FullyWrittenStateIsDeterministic := by
  intro i s d hu hm
  have defined : ∀ a b, s.definedOn a b := fun a b x hx => by rw [hu] at hx; cases hx
  exact exec_withDraw fun hl hn => effectOf_withDraw d hl ⟨fun _ => defined _ _, fun _ => defined _ _, fun _ => defined _ _⟩
    (State.setUpFor_of_fully_written hu hm hn)

end Sys2Proof.Machine

namespace Sys2Proof.Machine

/-! ## One step, one field: the statements of tier 1 -/

/-- Settles O6. -/
theorem stepRunsTheDecodedCommand : Obligations.StepRunsTheDecodedCommand := fun s rest _ _ hp hd _ =>
  step_of_run hp ((s.performing rest).hostWrite_of_command hd)

/-- SRESET is performed in every state (R197, R243). -/
theorem exec_sreset (s : State) : exec .sreset s = .next s.resetEngine :=
  exec_runs (i := .sreset) (.inr rfl) rfl rfl

theorem State.reset_status : State.reset.status = 0 := by decide

/-- Settles O16: SRESET and a hardware reset are one function of the state. -/
theorem sresetIsAHardwareReset : Obligations.SresetIsAHardwareReset :=
  ⟨fun s => ⟨s.resetEngine, exec_sreset s, rfl, rfl, rfl, rfl, rfl, rfl, rfl, State.reset_status, rfl, rfl, rfl, rfl, rfl⟩,
    fun s rest hp => (step_of_done hp rfl).trans (exec_sreset (s.performing rest)).symm⟩

/-- A bit of STATUS (R35): `PHASE` below 3, `KEYV` at 3, `ERR` at 4 to 7, 0 above. -/
theorem State.getLsbD_status (s : State) (i : Nat) :
    s.status.getLsbD i = if i < 3 then s.phase.code.getLsbD i else if i = 3 then s.keyv
      else if i < 8 then s.err.code.getLsbD (i - 4) else false := by
  unfold State.status
  rw [BitVec.getLsbD_append, BitVec.getLsbD_append, BitVec.getLsbD_append, BitVec.getLsbD_append]
  have field : i < 3 ∨ i = 3 ∨ (4 ≤ i ∧ i < 8) ∨ 8 ≤ i := by omega
  rcases field with h | rfl | ⟨h, h'⟩ | h
  · rw [if_pos h, if_pos h]
  · simp
  · rw [if_neg (by omega), if_neg (by omega), if_pos (by omega), if_neg (by omega), if_neg (by omega), if_pos h', Nat.sub_sub]
  · rw [if_neg (by omega), if_neg (by omega), if_neg (by omega)]
    simp [show ¬ i < 3 by omega, show ¬ i = 3 by omega, show ¬ i < 8 by omega]

/-- Settles O51: the bits of STATUS, field by field. -/
theorem statusShowsPhaseKeyvAndErr : Obligations.StatusShowsPhaseKeyvAndErr := by
  refine ⟨fun s => ⟨?_, ?_, ?_, ?_, ?_⟩, fun s rest hp => ?_, rfl, rfl⟩
  · apply BitVec.eq_of_getLsbD_eq
    intro i hi
    rw [BitVec.getLsbD_extractLsb', State.getLsbD_status]
    simp [hi]
  · rw [State.getLsbD_status]; rfl
  · apply BitVec.eq_of_getLsbD_eq
    intro i hi
    rw [BitVec.getLsbD_extractLsb', State.getLsbD_status, if_neg (by omega), if_neg (by omega), if_pos (by omega)]
    simp [hi]
  · rw [State.getLsbD_status]; rfl
  · apply BitVec.eq_of_getLsbD_eq
    intro i hi
    rw [BitVec.getLsbD_extractLsb', State.getLsbD_status, if_neg (by omega), if_neg (by omega), if_neg (by omega)]
    simp
  · have ht : readTarget 32 0x004 = some (.status, 0) := (readTarget_eq_some_iff _ _ _ _).mpr (by decide)
    exact step_of_done hp (congrArg BusAction.done ((s.performing rest).hostRead_of_target ht))

/-- A read finds the same whatever `KEY` holds (R29, R57). -/
theorem State.readReg_withKey (s : State) (k : BitVec 256) (r : Reg) (j : Nat) :
    (s.withKey k).readReg r j = s.readReg r j := by
  cases r <;> rfl

theorem State.raise_withKey (s : State) (k : BitVec 256) (e : ErrCode) : (s.withKey k).raise e = (s.raise e).withKey k := by
  rw [State.raise_eq, State.raise_eq]; rfl

/-- A read does the same whatever `KEY` holds. -/
theorem State.hostRead_withKey (s : State) (k : BitVec 256) (width a : Nat) :
    (s.withKey k).hostRead width a = (s.hostRead width a).withKey k := by
  unfold State.hostRead
  cases readTarget width a with
  | none => dsimp only; rw [State.raise_withKey]; rfl
  | some p => dsimp only; rw [State.readReg_withKey]; rfl

/-- Settles O53. -/
theorem theHostCannotReadTheKey : Obligations.TheHostCannotReadTheKey := fun s k width a =>
  ⟨s.hostRead_withKey k width a, (congrArg State.rdata (s.hostRead_withKey k width a)).trans rfl⟩

/-- The words from an aligned base are the aligned addresses of their range. -/
theorem mem_wordsFrom_iff {base : Nat} (hb : base % 4 = 0) (count a : Nat) :
    a ∈ wordsFrom base count ↔ a % 4 = 0 ∧ base ≤ a ∧ a < base + 4 * count := by
  simp only [wordsFrom, List.mem_map, List.mem_range]
  constructor
  · rintro ⟨k, hk, rfl⟩; omega
  · exact fun h => ⟨(a - base) / 4, by omega, by omega⟩

/-- The words R39 leaves unspecified, by their ranges in R52's table. -/
theorem mem_unspecifiedAtReset_iff (a : Nat) :
    a ∈ unspecifiedAtReset
      ↔ a % 4 = 0 ∧ ((0x040 ≤ a ∧ a < 0x0B0) ∨ (0x100 ≤ a ∧ a < 0x140) ∨ (0x400 ≤ a ∧ a < 0x600)) := by
  simp only [unspecifiedAtReset, List.mem_append, mem_wordsFrom_iff (show 0x040 % 4 = 0 from rfl),
    mem_wordsFrom_iff (show 0x060 % 4 = 0 from rfl), mem_wordsFrom_iff (show 0x080 % 4 = 0 from rfl),
    mem_wordsFrom_iff (show 0x090 % 4 = 0 from rfl), mem_wordsFrom_iff (show 0x0A0 % 4 = 0 from rfl),
    mem_wordsFrom_iff (show 0x100 % 4 = 0 from rfl), mem_wordsFrom_iff (show 0x400 % 4 = 0 from rfl)]
  omega

/-- Settles O55. -/
theorem resetLeavesWhatTheTableSays : Obligations.ResetLeavesWhatTheTableSays :=
  ⟨rfl, rfl, rfl, rfl, rfl, rfl, rfl, rfl, rfl, mem_unspecifiedAtReset_iff⟩

end Sys2Proof.Machine

namespace Sys2Proof.Machine

/-! ## `MBUF` as bytes (20_memory.md R55) -/

/-- The little-endian value of `n` bytes is the sum that R54 writes. -/
theorem leValue_map_range (f : Nat → Byte) (n : Nat) :
    leValue ((List.range n).map f) = ∑ j ∈ Finset.range n, (f j).toNat * 2 ^ (8 * j) := by
  induction n generalizing f with
  | zero => rfl
  | succ n ih =>
    have scale : ∀ j, (f (j + 1)).toNat * 2 ^ (8 * (j + 1)) = 256 * ((f (j + 1)).toNat * 2 ^ (8 * j)) := fun j => by ring
    calc leValue ((List.range (n + 1)).map f)
        = (f 0).toNat + 256 * leValue ((List.range n).map fun j => f (j + 1)) := by
          rw [List.range_succ_eq_map, List.map_cons, List.map_map]; rfl
      _ = (f 0).toNat + ∑ j ∈ Finset.range n, (f (j + 1)).toNat * 2 ^ (8 * (j + 1)) := by
          rw [ih, Finset.mul_sum, Finset.sum_congr rfl fun j _ => scale j]
      _ = ∑ j ∈ Finset.range (n + 1), (f j).toNat * 2 ^ (8 * j) := by
          rw [Finset.sum_range_succ', Nat.mul_zero, Nat.pow_zero, Nat.mul_one, Nat.add_comm]

/-- `MemRead(a, n)` loses nothing to its width: `n` bytes fit in `8 * n` bits. -/
theorem State.toNat_memRead (s : State) (a n : Nat) : (s.memRead a n).toNat = leValue (s.mbufBytes a n) := by
  have fits : leValue (s.mbufBytes a n) < 2 ^ (8 * n) := by
    simpa only [State.mbufBytes, List.length_map, List.length_range, Nat.pow_mul] using leValue_lt (s.mbufBytes a n)
  rw [State.memRead, BitVec.toNat_ofNat, Nat.mod_eq_of_lt fits]

/-- The 12-bit address of a word of `MBUF` is its place in the window (R52). -/
theorem toNat_mbufAddr {w : Nat} (hw : w < 128) : (BitVec.ofNat 12 (0x200 + 4 * w)).toNat = Reg.mbuf.wordAddr w := by
  rw [BitVec.toNat_ofNat, Nat.mod_eq_of_lt (by omega)]; rfl

/-- A write at the address of a word of `MBUF` reaches that word. -/
theorem writeTarget_mbuf {w : Nat} (hw : w < 128) :
    writeTarget 32 (BitVec.ofNat 12 (0x200 + 4 * w)).toNat = some (.mbuf, w) :=
  (writeTarget_eq_some_iff _ _ _ _).mpr ⟨rfl, by decide, hw, toNat_mbufAddr hw⟩

/-- A read at the address of a word of `MBUF` reaches that word. -/
theorem readTarget_mbuf {w : Nat} (hw : w < 128) :
    readTarget 32 (BitVec.ofNat 12 (0x200 + 4 * w)).toNat = some (.mbuf, w) :=
  (readTarget_eq_some_iff _ _ _ _).mpr ⟨rfl, by decide, hw, toNat_mbufAddr hw⟩

/-- A store into word `k` of `MBUF` as one record. -/
theorem State.writeReg_mbuf_eq (s : State) (k : Nat) (w : Word) :
    s.writeReg .mbuf k w = { s with mbuf := Memory.putWord s.mbuf (0x200 + 4 * k) w } := rfl

/-- A read of word `k` of `MBUF` is `MemRead` of its four bytes. -/
theorem State.readReg_mbuf (s : State) (k : Nat) : s.readReg .mbuf k = s.memRead (4 * k) 4 := rfl

/-- Settles O50: a write is `putWord`, a read is `MemRead`, and both are known by their bytes. -/
theorem mbufWordsAreLittleEndianBytes : Obligations.MbufWordsAreLittleEndianBytes := by
  refine ⟨fun s rest w v hw hp => ?_, fun s rest w hw hp => ?_, fun s a n => ?_⟩
  · have stored := step_of_done hp ((s.performing rest).hostWrite_of_target v (writeTarget_mbuf hw) (by decide))
    rw [State.writeReg_mbuf_eq] at stored
    refine ⟨_, stored, rfl, fun j hj => ?_, fun b hb => ?_⟩
    · rw [State.mbufByte_putWord, if_pos (by omega), Nat.add_sub_cancel_left]
    · exact (Memory.find_putWord _ _ _ _).trans (if_neg hb)
  · have read := step_of_done hp (congrArg BusAction.done ((s.performing rest).hostRead_of_target (readTarget_mbuf hw)))
    rw [State.readReg_mbuf] at read
    exact ⟨_, read, fun j hj => State.byte_memRead _ hj⟩
  · rw [State.toNat_memRead]
    exact leValue_map_range _ n

end Sys2Proof.Machine

/-! # The encoding of commands, refusals of commands, SHORT (30_encoding.md, 41_short_kernel.md R120)

The one idea about the encoding: a command has one row of the table of R73 (`Instr.tableRow`), and takes its operands from the
word (`Instr.withOperandsOf`). A word decodes to a command exactly when the command's row covers it and its operands are the
word's, which is exactly when it is the word of that well-formed command. -/

namespace Sys2Proof

/-! ## The fields of a word (R70) -/

theorem opField_and (v w : Word) : opField (v &&& w) = opField v &&& opField w := BitVec.extractLsb'_and

theorem flagField_and (v w : Word) : flagField (v &&& w) = flagField v &&& flagField w := BitVec.extractLsb'_and

theorem lengthField_and (v w : Word) : lengthField (v &&& w) = lengthField v &&& lengthField w := BitVec.extractLsb'_and

/-- A word is its three fields side by side. -/
theorem append_fields (w : Word) : lengthField w ++ flagField w ++ opField w = w := by
  have upper : lengthField w ++ flagField w = w.extractLsb' 8 24 := BitVec.extractLsb'_append_extractLsb'_eq_extractLsb' rfl
  rw [upper]
  exact (BitVec.extractLsb'_append_extractLsb'_eq_extractLsb' rfl).trans BitVec.extractLsb'_eq_self

theorem word_eq_iff_fields (v w : Word) :
    v = w ↔ opField v = opField w ∧ flagField v = flagField w ∧ lengthField v = lengthField w := by
  constructor
  · rintro rfl; exact ⟨rfl, rfl, rfl⟩
  · rintro ⟨hop, hf, hl⟩; rw [← append_fields v, ← append_fields w, hop, hf, hl]

theorem encode_eq_iff_fields (i : Instr) (w : Word) :
    encode i = w ↔ opField w = i.opcode ∧ flagField w = i.flags ∧ lengthField w = BitVec.ofNat 16 i.length := by
  obtain ⟨hop, hf, hl⟩ := encode_fields i
  rw [eq_comm, word_eq_iff_fields, hop, hf, hl]

/-! ## The row and the operands of a command (R72, R73) -/

/-- The flag bits that must be 0 in a command's word: all but CLMUL's `sa` and `sb` and INIT's `k`. -/
def Instr.reservedFlags : Instr → BitVec 8
  | .clmul _ _ => 0xFC
  | .init _ => 0xFE
  | .nop | .clrerr | .sreset | .subb | .shrow | .mixc | .aesr | .xor | .add64 | .short _ | .compress | .tail _ | .merge
  | .harden | .fblock | .rekey | .reduce | .final _ => BitVec.allOnes 8

/-- The bits of the length field that must be 0 in a command's word: none where `n` is free, all otherwise. -/
def Instr.reservedLength : Instr → BitVec 16
  | .short _ | .tail _ | .final _ => 0#16
  | .nop | .clrerr | .sreset | .subb | .shrow | .mixc | .aesr | .clmul _ _ | .xor | .add64 | .init _ | .compress
  | .merge | .harden | .fblock | .rekey | .reduce => BitVec.allOnes 16

/-- The row of R73 that a command stands in, put together from the command's opcode and its reserved bits;
`opcodeMap_eq_map` ties it to the table. -/
def Instr.tableRow (i : Instr) : OpcodeRow where
  mnemonic := i.mnemonic
  pattern := 0#16 ++ 0#8 ++ i.opcode
  mask := i.reservedLength ++ i.reservedFlags ++ BitVec.allOnes 8

/-- The command with its operands, if it has any, read from the free fields of the word. -/
def Instr.withOperandsOf (i : Instr) (w : Word) : Instr :=
  match i with
  | .short _ => .short (lengthField w).toNat
  | .tail _ => .tail (lengthField w).toNat
  | .final _ => .final (lengthField w).toNat
  | .clmul _ _ => .clmul ((flagField w).getLsbD 0) ((flagField w).getLsbD 1)
  | .init _ => .init ((flagField w).getLsbD 0)
  | .nop | .clrerr | .sreset | .subb | .shrow | .mixc | .aesr | .xor | .add64 | .compress | .merge | .harden | .fblock
  | .rekey | .reduce => i

/-- One command for each row of R73, in the table's order, with all operands 0. -/
def commandPerRow : List Instr :=
  [.nop, .clrerr, .sreset, .subb, .shrow, .mixc, .aesr, .clmul false false, .xor, .add64, .short 0, .init false, .compress,
   .tail 0, .merge, .harden, .fblock, .rekey, .reduce, .final 0]

/-- The `match` and `mask` columns of R73 are the opcodes and the reserved bits of the commands. -/
theorem opcodeMap_eq_map : opcodeMap = commandPerRow.map Instr.tableRow := by decide

@[simp] theorem Instr.tableRow_withOperandsOf (i : Instr) (w : Word) : (i.withOperandsOf w).tableRow = i.tableRow := by
  cases i <;> rfl

@[simp] theorem Instr.withOperandsOf_withOperandsOf (i : Instr) (v w : Word) :
    (i.withOperandsOf v).withOperandsOf w = i.withOperandsOf w := by
  cases i <;> rfl

theorem Instr.withOperandsOf_zero_mem (i : Instr) : i.withOperandsOf 0 ∈ commandPerRow := by
  cases i <;> exact List.mem_of_elem_eq_true rfl

theorem mem_opcodeMap_iff (r : OpcodeRow) : r ∈ opcodeMap ↔ ∃ i : Instr, i.tableRow = r := by
  rw [opcodeMap_eq_map, List.mem_map]
  constructor
  · rintro ⟨i, -, h⟩; exact ⟨i, h⟩
  · rintro ⟨i, h⟩; exact ⟨i.withOperandsOf 0, i.withOperandsOf_zero_mem, (i.tableRow_withOperandsOf 0).trans h⟩

theorem Instr.tableRow_mem (i : Instr) : i.tableRow ∈ opcodeMap := (mem_opcodeMap_iff _).mpr ⟨i, rfl⟩

/-- A row covers the words with its opcode whose reserved bits are 0. -/
theorem Instr.tableRow_covers_iff (i : Instr) (w : Word) :
    i.tableRow.covers w = true
      ↔ opField w = i.opcode ∧ flagField w &&& i.reservedFlags = 0 ∧ lengthField w &&& i.reservedLength = 0 := by
  rw [OpcodeRow.covers, beq_iff_eq, word_eq_iff_fields, opField_and, flagField_and, lengthField_and]
  simp only [tableRow, opField_append, flagField_append, lengthField_append, BitVec.and_allOnes]
  rfl

/-- A row of the table covers only words with the opcode of its `match` column. -/
theorem opField_of_covers {r : OpcodeRow} {w : Word} (hr : r ∈ opcodeMap) (h : r.covers w = true) :
    opField w = opField r.pattern := by
  obtain ⟨i, rfl⟩ := (mem_opcodeMap_iff r).mp hr
  obtain ⟨hop, -⟩ := (i.tableRow_covers_iff w).mp h
  exact hop.trans (opField_append _ _ _).symm

theorem opcodeMap_pairwise_opField_ne : opcodeMap.Pairwise fun a b => opField a.pattern ≠ opField b.pattern := by decide

/-! ## The decoder against the table -/

theorem and_0xFC_eq_zero_iff (f : BitVec 8) : f &&& 0xFC = 0 ↔ f.extractLsb' 2 6 = 0 := by
  revert f; decide

theorem and_0xFE_eq_zero_iff (f : BitVec 8) : f &&& 0xFE = 0 ↔ f.extractLsb' 1 7 = 0 := by
  revert f; decide

/-- A word with a command's opcode is that command with the word's operands, or has a reserved bit set. -/
theorem decode_of_opField {w : Word} {i : Instr} (h : opField w = i.opcode) :
    decode w = if flagField w &&& i.reservedFlags = 0 ∧ lengthField w &&& i.reservedLength = 0
      then .command (i.withOperandsOf w) else .illegal .reservedBit := by
  unfold decode
  rw [h]
  cases i with
  | clmul sa sb =>
    simp only [Instr.reservedFlags, Instr.reservedLength, and_0xFC_eq_zero_iff, BitVec.and_allOnes]; rfl
  | init k =>
    simp only [Instr.reservedFlags, Instr.reservedLength, and_0xFE_eq_zero_iff, BitVec.and_allOnes]; rfl
  | short n | tail n | final n =>
    have free : lengthField w &&& 0#16 = 0 := BitVec.and_zero
    simp only [Instr.reservedFlags, Instr.reservedLength, BitVec.and_allOnes, free, and_true]; rfl
  | _ =>
    simp only [Instr.reservedFlags, Instr.reservedLength, BitVec.and_allOnes]; rfl

/-- A word with no command's opcode is refused as such. -/
theorem decode_of_unassigned {w : Word} (h : ∀ i : Instr, opField w ≠ i.opcode) : decode w = .illegal .unassignedOp := by
  have away : ∀ i ∈ commandPerRow, (opField w).toNat ≠ i.opcode.toNat := fun i _ e => h i (BitVec.eq_of_toNat_eq e)
  simp only [commandPerRow, List.forall_mem_cons] at away
  unfold decode
  split
  case h_21 => rfl
  all_goals simp_all [Instr.opcode]

/-- A word decodes to a command when the command's row covers it and the operands are the word's. -/
theorem decode_eq_command_iff_covers (w : Word) (i : Instr) :
    decode w = .command i ↔ i.tableRow.covers w = true ∧ i.withOperandsOf w = i := by
  constructor
  · intro h
    by_cases hop : ∃ j : Instr, opField w = j.opcode
    · obtain ⟨j, hj⟩ := hop
      rw [decode_of_opField hj] at h
      split at h
      next free =>
        cases h
        rw [Instr.tableRow_withOperandsOf, Instr.withOperandsOf_withOperandsOf]
        exact ⟨(j.tableRow_covers_iff w).mpr ⟨hj, free⟩, rfl⟩
      next => cases h
    · rw [decode_of_unassigned (not_exists.mp hop)] at h
      cases h
  · rintro ⟨hc, hi⟩
    obtain ⟨hop, free⟩ := (i.tableRow_covers_iff w).mp hc
    rw [decode_of_opField hop, if_pos free, hi]

/-- A covered word decodes, to the row's command with the word's operands. -/
theorem decode_of_covers {w : Word} {i : Instr} (h : i.tableRow.covers w = true) :
    decode w = .command (i.withOperandsOf w) :=
  (decode_eq_command_iff_covers _ _).mpr ⟨by rwa [i.tableRow_withOperandsOf], i.withOperandsOf_withOperandsOf w w⟩

/-- A word that no row covers is illegal. -/
theorem decode_of_not_covered {w : Word} (h : ∀ r ∈ opcodeMap, r.covers w = false) : ∃ why, decode w = .illegal why := by
  cases hd : decode w with
  | illegal why => exact ⟨why, rfl⟩
  | command i =>
    obtain ⟨hc, -⟩ := (decode_eq_command_iff_covers w i).mp hd
    cases (h _ i.tableRow_mem).symm.trans hc

/-! ## The decoder against the encoder -/

theorem eq_flags_clmul_iff (f : BitVec 8) (sa sb : Bool) :
    f = (Instr.clmul sa sb).flags ↔ f &&& 0xFC = 0 ∧ f.getLsbD 0 = sa ∧ f.getLsbD 1 = sb := by
  revert f sa sb; decide

theorem eq_flags_init_iff (f : BitVec 8) (k : Bool) : f = (Instr.init k).flags ↔ f &&& 0xFE = 0 ∧ f.getLsbD 0 = k := by
  revert f k; decide

theorem toNat_eq_iff_eq_ofNat (n : BitVec 16) (m : Nat) : n.toNat = m ↔ m < 2 ^ 16 ∧ n = BitVec.ofNat 16 m := by
  constructor
  · rintro rfl; exact ⟨n.isLt, (BitVec.ofNat_toNat 16 n).trans (BitVec.setWidth_eq n) |>.symm⟩
  · rintro ⟨hm, rfl⟩; exact Nat.mod_eq_of_lt hm

theorem Instr.wf_iff (i : Instr) : i.wf = true ↔ i.length < 2 ^ 16 := decide_eq_true_iff

/-- Reserved bits 0 and the operands those of the word: the word's upper fields are the ones the encoder writes. -/
theorem Instr.operands_iff (i : Instr) (w : Word) :
    (flagField w &&& i.reservedFlags = 0 ∧ lengthField w &&& i.reservedLength = 0 ∧ i.withOperandsOf w = i)
      ↔ i.wf = true ∧ flagField w = i.flags ∧ lengthField w = BitVec.ofNat 16 i.length := by
  rw [wf_iff]
  have fits : 0 < 2 ^ 16 := by decide
  cases i with
  | clmul sa sb =>
    rw [eq_flags_clmul_iff]
    simp only [reservedFlags, reservedLength, withOperandsOf, BitVec.and_allOnes, BitVec.ofNat_eq_ofNat, length, clmul.injEq,
      fits, true_and]
    tauto
  | init k =>
    rw [eq_flags_init_iff]
    simp only [reservedFlags, reservedLength, withOperandsOf, BitVec.and_allOnes, BitVec.ofNat_eq_ofNat, length, init.injEq,
      fits, true_and]
    tauto
  | short n | tail n | final n =>
    have free : lengthField w &&& 0#16 = 0 := BitVec.and_zero
    simp only [reservedFlags, reservedLength, withOperandsOf, BitVec.and_allOnes, length, flags, free, true_and,
      short.injEq, tail.injEq, final.injEq, toNat_eq_iff_eq_ofNat]
    tauto
  | _ =>
    simp only [reservedFlags, reservedLength, withOperandsOf, BitVec.and_allOnes, BitVec.ofNat_eq_ofNat, length, flags,
      fits, true_and, and_true]

/-- Decoding and encoding are inverse: a word decodes to a command when it is the word of that well-formed command. -/
theorem decode_eq_command_iff (w : Word) (i : Instr) : decode w = .command i ↔ i.wf = true ∧ encode i = w := by
  have upper := i.operands_iff w
  rw [decode_eq_command_iff_covers, Instr.tableRow_covers_iff, encode_eq_iff_fields]
  tauto

/-! ## The statements about the encoding -/

/-- Settles O1: one direction of `decode_eq_command_iff`. -/
theorem everyCommandDecodesFromItsWord : Obligations.EveryCommandDecodesFromItsWord :=
  fun i hi => (decode_eq_command_iff _ i).mpr ⟨hi, rfl⟩

/-- Settles O2: the other direction of `decode_eq_command_iff`. -/
theorem everyDecodedWordIsTheWordOfItsCommand : Obligations.EveryDecodedWordIsTheWordOfItsCommand :=
  fun w i => (decode_eq_command_iff w i).mp

/-- Settles O3: the row that covers a command's word is the command's own, and a covered word is not illegal. -/
theorem decodingFollowsTheOpcodeTable : Obligations.DecodingFollowsTheOpcodeTable := by
  refine fun w => ⟨fun i hd => ?_, fun why hd r hr => ?_⟩
  · obtain ⟨hc, -⟩ := (decode_eq_command_iff_covers w i).mp hd
    exact ⟨i.tableRow, i.tableRow_mem, hc, rfl⟩
  · obtain ⟨i, rfl⟩ := (mem_opcodeMap_iff r).mp hr
    refine Bool.eq_false_iff.mpr fun hc => ?_
    cases hd.symm.trans (decode_of_covers hc)

/-- Settles O4: a word covered by two rows would have the opcodes of both, and no two rows share an opcode. -/
theorem noWordHasTwoOpcodeRows : Obligations.NoWordHasTwoOpcodeRows :=
  opcodeMap_pairwise_opField_ne.imp_of_mem fun ha hb hne _ ⟨hca, hcb⟩ =>
    hne ((opField_of_covers ha hca).symm.trans (opField_of_covers hb hcb))

/-- Settles O5: eleven closed words, evaluated. -/
theorem sampleWordsDecodeAsTheSpecSays : Obligations.SampleWordsDecodeAsTheSpecSays := by
  unfold Obligations.SampleWordsDecodeAsTheSpecSays
  decide

end Sys2Proof

namespace Sys2Proof.Machine

/-! ## Refusals of commands (R74, R76) -/

/-- A write of an illegal word to `CMD` is refused (R76 step 1). -/
theorem State.hostWrite_of_illegal (s : State) {w : Word} {why : Illegal} (h : decode w = .illegal why) :
    s.hostWrite 32 0x000 w = .done (s.raise .illegal) := by
  have ht : writeTarget 32 0x000 = some (.cmd, 0) := (writeTarget_eq_some_iff _ _ _ _).mpr (by decide)
  rw [State.hostWrite, ht]
  dsimp only
  rw [h]

/-- The ranges of opcodes that R74 leaves unassigned. -/
def unassignedRange (op : Nat) : Prop :=
  (0x03 ≤ op ∧ op ≤ 0x0F) ∨ (0x17 ≤ op ∧ op ≤ 0x1F) ∨ (0x21 ≤ op ∧ op ≤ 0x2F) ∨ (0x32 ≤ op ∧ op ≤ 0x3F)
    ∨ (0x46 ≤ op ∧ op ≤ 0x4E) ∨ 0x50 ≤ op

theorem opcodeMap_not_unassignedRange : ∀ r ∈ opcodeMap, ¬ unassignedRange (opField r.pattern).toNat := by
  unfold unassignedRange; decide

/-- Settles O7: an uncovered word is illegal, and a covered word has the opcode of a row, which is in no unassigned range. -/
theorem illegalWordsAreRefused : Obligations.IllegalWordsAreRefused := by
  refine ⟨fun s rest w hp hw => ?_, fun w hop r hr => ?_⟩
  · obtain ⟨why, hd⟩ := decode_of_not_covered hw
    rw [step_of_done hp ((s.performing rest).hostWrite_of_illegal hd), State.raise_eq]
    rfl
  · refine Bool.eq_false_iff.mpr fun hc => opcodeMap_not_unassignedRange r hr ?_
    rw [← opField_of_covers hr hc]
    exact hop

/-- With ERR 0 a command outside its phases is refused with STATE (R76 step 3), before its length is looked at. -/
theorem exec_of_wrong_phase {i : Instr} {s : State} (hs : s.err = .none) (hp : legalIn i s.phase = false) :
    exec i s = .next { s with err := .state } := by
  rw [exec_eq_command, command, if_neg (fun ⟨he, _⟩ => he hs), if_pos hp, State.raise_of_none hs]

/-- With ERR 0 a command in its phase and out of its range is refused with ARG (R76 step 4). -/
theorem exec_of_length_out_of_range {i : Instr} {s : State} (hs : s.err = .none) (hp : legalIn i s.phase = true)
    (hn : lengthInRange i = false) : exec i s = .next { s with err := .arg } := by
  rw [exec_eq_command, command, if_neg (fun ⟨he, _⟩ => he hs), if_neg (Bool.not_eq_false _ ▸ hp), if_pos hn,
    State.raise_of_none hs]

/-- Settles O10: each of the eight commands is legal in one phase. -/
theorem wrongPhaseRaisesState : Obligations.WrongPhaseRaisesState := fun s _ hs =>
  have refused {i : Instr} {p : Phase} (hi : legalIn i s.phase = (s.phase == p)) (hp : s.phase ≠ p) :
      exec i s = .next { s with err := .state } := exec_of_wrong_phase hs (hi.trans (beq_eq_false_iff_ne.mpr hp))
  ⟨refused rfl, refused rfl, refused rfl, refused rfl, refused rfl, refused rfl, refused rfl, refused rfl⟩

/-- Settles O11. -/
theorem lengthOutOfRangeRaisesArg : Obligations.LengthOutOfRangeRaisesArg := fun _ _ hs =>
  ⟨fun hn => exec_of_length_out_of_range hs rfl (decide_eq_false (Nat.not_le.mpr hn)),
    fun hn hp => exec_of_length_out_of_range hs (beq_iff_eq.mpr hp) (decide_eq_false (Nat.not_le.mpr hn)),
    fun hn hp => exec_of_length_out_of_range hs (beq_iff_eq.mpr hp) (decide_eq_false (Nat.not_le.mpr hn))⟩

/-! ## SHORT (41_short_kernel.md R120) -/

/-- SHORT takes the marks off `ACC[0..3]` and `DIGEST` and off no other word. -/
theorem mem_shortEffect_unspecified (cfg : Params) (n : Nat) (s : State) (a : Nat) :
    a ∈ (shortEffect cfg n s).unspecified
      ↔ a ∈ s.unspecified ∧ ¬ (0x400 ≤ a ∧ a < 0x440) ∧ ¬ (0x060 ≤ a ∧ a < 0x080) := by
  unfold shortEffect
  rw [State.setDigest_unspecified, State.mem_define, State.setQuad_unspecified, State.mem_define, and_assoc]

/-- Settles O30: SHORT is legal in every phase, so with `n` in range it is performed; its effect is a write of `ACC[0..3]` and
one of `DIGEST`. -/
theorem shortHashesTheMessage : Obligations.ShortHashesTheMessage := by
  intro s n hs hn
  have performed := exec_runs (i := .short n) (.inl hs) rfl (decide_eq_true hn)
  refine ⟨_, performed, ⟨fun i hi => ?_, rfl⟩, fun i h4 hi => ?_, mem_shortEffect_unspecified Config.params n s, rfl⟩
  · exact s.setQuad_below _ hi
  · exact s.setQuad_above _ h4 hi

end Sys2Proof.Machine

/-! # The lane datapath and the lane primitives (40_lane_primitives.md)

The AES round unit is described byte by byte, the multiplier bit by bit: bit `t` of a product is a XOR over the pairs
`i + j = t`, and everything said of the product is read off those pairs. -/

namespace Sys2Proof.Machine

/-! ## The AES round unit (R90 to R93) -/

/-- Byte `n` of SubBytes (R90). -/
theorem byte_subBytes (x : Lane) (n : Fin 16) : byte (subBytes x) n = sbox (byte x n) := byte_laneOfBytes _ n

/-- Byte `4c + r` of a lane given column by column and row by row. -/
theorem byte_laneOfBytes_column (f : Nat → Nat → Byte) {c r : Nat} (hc : c < 4) (hr : r < 4) :
    byte (laneOfBytes fun n => f (n.val / 4) (n.val % 4)) (4 * c + r) = f c r := by
  have column : (4 * c + r) / 4 = c := by omega
  have row : (4 * c + r) % 4 = r := by omega
  refine (byte_laneOfBytes _ ⟨4 * c + r, by omega⟩).trans ?_
  simp only [column, row]

/-- Byte `4c + r` of ShiftRows (R92). -/
theorem byte_shiftRows (x : Lane) {c r : Nat} (hc : c < 4) (hr : r < 4) :
    byte (shiftRows x) (4 * c + r) = byte x (4 * ((c + r) % 4) + r) :=
  byte_laneOfBytes_column (fun c r => byte x (4 * ((c + r) % 4) + r)) hc hr

/-- Byte `4c + r` of MixColumns (R93). -/
theorem byte_mixColumns (x : Lane) {c r : Nat} (hc : c < 4) (hr : r < 4) :
    byte (mixColumns x) (4 * c + r)
      = mixByte (byte x (4 * c)) (byte x (4 * c + 1)) (byte x (4 * c + 2)) (byte x (4 * c + 3)) r :=
  byte_laneOfBytes_column
    (fun c => mixByte (byte x (4 * c)) (byte x (4 * c + 1)) (byte x (4 * c + 2)) (byte x (4 * c + 3))) hc hr

/-- Two lanes are equal when they agree on every row of every column of the AES state. -/
theorem lane_ext_columns {x y : Lane} (h : ∀ c r, c < 4 → r < 4 → byte x (4 * c + r) = byte y (4 * c + r)) : x = y := by
  refine lane_ext x y fun n => ?_
  have hn := h (n / 4) (n % 4) (by omega) (by omega)
  rwa [Nat.div_add_mod] at hn

/-- The inverse of the affine map of R91. -/
def sboxAffineInv (s : Byte) : Byte := s.rotateLeft 1 ^^^ s.rotateLeft 3 ^^^ s.rotateLeft 6 ^^^ 0x05

theorem sboxAffine_sboxAffineInv : ∀ s : Byte, sboxAffine (sboxAffineInv s) = s := by decide +kernel

/-- The table of R91, entry by entry: undoing the affine map of `S[a]` leaves the inverse of `a` in GF(2^8). -/
theorem gfMul_sboxAffineInv_sbox : ∀ a : Byte, a ≠ 0 → gfMul a (sboxAffineInv (sbox a)) = 1 := by decide +kernel

/-- Settles O17: the inverse of `a` that the statement asks for is `S[a]` with the affine map undone. -/
theorem subBytesIsTheAesSbox : Obligations.SubBytesIsTheAesSbox :=
  ⟨fun x n hn => byte_subBytes x ⟨n, hn⟩, by decide, fun a ha =>
    ⟨sboxAffineInv (sbox a), gfMul_sboxAffineInv_sbox a ha, (sboxAffine_sboxAffineInv (sbox a)).symm⟩⟩

/-- Settles O18: the byte formula of R92 is the equation of ShiftRows. -/
theorem shiftRowsRotatesRowsLeft : Obligations.ShiftRowsRotatesRowsLeft := fun x _ _ hc hr => byte_shiftRows x hc hr

/-- Settles O19: the four rows of the matrix, with `times3 a` as `xtime a ^^^ a`. -/
theorem mixColumnsIsTheAesMatrix : Obligations.MixColumnsIsTheAesMatrix :=
  ⟨fun _ => rfl, fun x _ hc =>
    ⟨byte_mixColumns x hc (r := 0) (by decide), byte_mixColumns x hc (r := 1) (by decide),
      byte_mixColumns x hc (r := 2) (by decide), byte_mixColumns x hc (r := 3) (by decide)⟩⟩

/-! ### Lanes with equal bytes (the corner cases of R101 to R103) -/

/-- ShiftRows only moves bytes, so it leaves a lane of equal bytes as it is (R101). -/
theorem shiftRows_of_equal_bytes {x : Lane} (h : ∀ n, n < 16 → byte x n = byte x 0) : shiftRows x = x :=
  lane_ext_columns fun c r hc hr => by rw [byte_shiftRows x hc hr, h _ (by omega), h (4 * c + r) (by omega)]

/-- Each row of the matrix of R93 sums to 1: `2 XOR 3 XOR 1 XOR 1`. -/
theorem mixByte_self (a : Byte) {r : Nat} (hr : r < 4) : mixByte a a a a r = a := by
  have cancel (u v : Byte) : u ^^^ (u ^^^ v) = v := by rw [← BitVec.xor_assoc, BitVec.xor_self, BitVec.zero_xor]
  have around (u : Byte) : u ^^^ (a ^^^ u) = a := by rw [BitVec.xor_comm a, cancel]
  have rows : r = 0 ∨ r = 1 ∨ r = 2 ∨ r = 3 := by omega
  rcases rows with rfl | rfl | rfl | rfl <;>
    simp only [mixByte, times3, BitVec.xor_assoc, BitVec.xor_self, BitVec.zero_xor, cancel, around]

/-- MixColumns leaves a column of equal bytes as it is (R102). -/
theorem byte_mixColumns_of_equal_column {x : Lane} {c : Nat} (hc : c < 4)
    (h : ∀ r, r < 4 → byte x (4 * c + r) = byte x (4 * c)) {r : Nat} (hr : r < 4) :
    byte (mixColumns x) (4 * c + r) = byte x (4 * c + r) := by
  rw [byte_mixColumns x hc hr, h 1 (by decide), h 2 (by decide), h 3 (by decide), mixByte_self _ hr, h r hr]

/-- MixColumns leaves a lane of equal bytes as it is. -/
theorem mixColumns_of_equal_bytes {x : Lane} (h : ∀ n, n < 16 → byte x n = byte x 0) : mixColumns x = x :=
  lane_ext_columns fun c _ hc hr => byte_mixColumns_of_equal_column hc
    (fun r hr => (h (4 * c + r) (by omega)).trans (h (4 * c) (by omega)).symm) hr

end Sys2Proof.Machine

namespace Sys2Proof.Machine

/-! ## The XOR of a list of bits -/

/-- A XOR over a list does not depend on the order of the list. -/
theorem foldl_xor_reverse (l : List Bool) : l.reverse.foldl Bool.xor false = l.foldl Bool.xor false :=
  haveI : RightCommutative Bool.xor := ⟨Bool.xor_right_comm⟩
  (List.reverse_perm l).foldl_eq false

theorem foldl_xor_of_false {l : List Bool} (h : ∀ x ∈ l, x = false) (acc : Bool) : l.foldl Bool.xor acc = acc := by
  induction l with
  | nil => rfl
  | cons x l ih =>
    rw [List.foldl_cons, h x List.mem_cons_self, Bool.xor_false, ih fun y hy => h y (List.mem_cons_of_mem _ hy)]

/-- The terms of a XOR from `n` on may be dropped when they are all false. -/
theorem foldl_xor_range_of_false {f : Nat → Bool} {n m : Nat} (hnm : n ≤ m) (h : ∀ i, n ≤ i → f i = false) :
    ((List.range m).map f).foldl Bool.xor false = ((List.range n).map f).foldl Bool.xor false := by
  obtain ⟨k, rfl⟩ := Nat.exists_eq_add_of_le hnm
  rw [List.range_add, List.map_append, List.foldl_append, foldl_xor_of_false]
  simp only [List.mem_map, forall_exists_index, and_imp, forall_apply_eq_imp_iff₂]
  exact fun i _ => h _ (Nat.le_add_right n i)

/-! ## The carry-less multiplier (R95) -/

/-- One turn of the multiplier: the shifted `b` joins the product where `a[i] = 1`. -/
def productStep (a b : Half) (acc : Lane) (i : Nat) : Lane := if a.getLsbD i then acc ^^^ (b.setWidth 128 <<< i) else acc

theorem clmul_eq_foldl (a b : Half) : clmul a b = (List.range 64).foldl (productStep a b) 0 := rfl

/-- What bit `i` of `a` gives to bit `t` of the product. -/
def productTerm (a b : Half) (t i : Nat) : Bool := decide (i ≤ t) && a.getLsbD i && b.getLsbD (t - i)

theorem getLsbD_productStep (a b : Half) (acc : Lane) (i : Nat) {t : Nat} (ht : t < 128) :
    (productStep a b acc i).getLsbD t = Bool.xor (acc.getLsbD t) (productTerm a b t i) := by
  have reach : (!decide (t < i)) = decide (i ≤ t) := by simp only [← Nat.not_lt, decide_not]
  cases h : a.getLsbD i <;> simp [productStep, productTerm, h, ht, reach]

theorem getLsbD_foldl_productStep (a b : Half) (l : List Nat) (acc : Lane) {t : Nat} (ht : t < 128) :
    (l.foldl (productStep a b) acc).getLsbD t = (l.map (productTerm a b t)).foldl Bool.xor (acc.getLsbD t) := by
  induction l generalizing acc with
  | nil => rfl
  | cons i l ih => rw [List.foldl_cons, ih, getLsbD_productStep a b acc i ht, List.map_cons, List.foldl_cons]

/-- A bit of the product, as a XOR over the bits of `a`. -/
theorem getLsbD_clmul (a b : Half) {t : Nat} (ht : t < 128) :
    (clmul a b).getLsbD t = ((List.range 64).map (productTerm a b t)).foldl Bool.xor false := by
  rw [clmul_eq_foldl, getLsbD_foldl_productStep a b _ _ ht]
  simp only [BitVec.ofNat_eq_ofNat, BitVec.getLsbD_zero]

/-- A bit of the product, as the XOR over `i + j = t` of `a[i] AND b[j]` in which the two operands stand alike. -/
theorem getLsbD_clmul_antidiagonal (a b : Half) {t : Nat} (ht : t < 128) :
    (clmul a b).getLsbD t
      = ((List.Nat.antidiagonal t).map fun p => a.getLsbD p.1 && b.getLsbD p.2).foldl Bool.xor false := by
  have beyond (i : Nat) (h : 64 ≤ i) : productTerm a b t i = false := by
    rw [productTerm, BitVec.getLsbD_of_ge a i h, Bool.and_false, Bool.false_and]
  have above (i : Nat) (h : t + 1 ≤ i) : productTerm a b t i = false := by
    rw [productTerm, decide_eq_false (by omega), Bool.false_and, Bool.false_and]
  rw [getLsbD_clmul a b ht, ← foldl_xor_range_of_false (by decide : 64 ≤ 128) beyond,
    foldl_xor_range_of_false (by omega : t + 1 ≤ 128) above, List.Nat.antidiagonal, List.map_map]
  congr 1
  refine List.map_congr_left fun i hi => ?_
  have le : i ≤ t := Nat.le_of_lt_succ (List.mem_range.mp hi)
  simp only [productTerm, le, decide_true, Bool.true_and, Function.comp_apply]

/-- The pairs with `i + j = t`, swapped, are the same pairs in the other order. -/
theorem clmul_comm (a b : Half) : clmul a b = clmul b a := by
  refine BitVec.eq_of_getLsbD_eq fun t ht => ?_
  rw [getLsbD_clmul_antidiagonal a b ht, getLsbD_clmul_antidiagonal b a ht, ← foldl_xor_reverse, ← List.map_reverse,
    ← List.Nat.map_swap_antidiagonal, List.map_map]
  simp only [Function.comp_def, Prod.fst_swap, Prod.snd_swap, Bool.and_comm]

/-- Of two indices with the sum 127 one is beyond its operand. -/
theorem getLsbD_clmul_top (a b : Half) : (clmul a b).getLsbD 127 = false := by
  rw [getLsbD_clmul_antidiagonal a b (by decide)]
  refine foldl_xor_of_false (fun x hx => ?_) false
  obtain ⟨⟨i, j⟩, hij, rfl⟩ := List.mem_map.mp hx
  have sum : i + j = 127 := List.Nat.mem_antidiagonal.mp hij
  rcases (by omega : 64 ≤ i ∨ 64 ≤ j) with h | h
  · simp only [BitVec.getLsbD_of_ge a i h, Bool.false_and]
  · simp only [BitVec.getLsbD_of_ge b j h, Bool.and_false]

/-- No bit of the first operand is 1, so no turn adds anything. -/
theorem zero_clmul (b : Half) : clmul 0 b = 0 := rfl

theorem clmul_zero (a : Half) : clmul a 0 = 0 := (clmul_comm a 0).trans (zero_clmul a)

/-- Bit 0 of the first operand puts the second one in place; no other turn adds anything. -/
theorem one_clmul (b : Half) : clmul 1 b = b.setWidth 128 :=
  calc clmul 1 b = (0 : Lane) ^^^ (b.setWidth 128 <<< 0) := rfl
    _ = b.setWidth 128 := by rw [BitVec.shiftLeft_zero]; exact BitVec.zero_xor

/-- The example of R95 and R104: `x^63` squared. -/
theorem clmul_top_bits : clmul 0x8000000000000000 0x8000000000000000 = 0x40000000000000000000000000000000 := by decide

/-- Settles O20: the corner cases are read off the pairs `i + j = t`. -/
theorem clmulIsThePolynomialProduct : Obligations.ClmulIsThePolynomialProduct :=
  ⟨fun a b _ ht => getLsbD_clmul a b ht, clmul_zero, zero_clmul, one_clmul, getLsbD_clmul_top, clmul_comm, clmul_top_bits,
    by decide⟩

/-! ## The adder (R96) -/

@[simp] theorem lo_add64 (x y : Lane) : lo (add64 x y) = lo x + lo y := lo_pair _ _

@[simp] theorem hi_add64 (x y : Lane) : hi (add64 x y) = hi x + hi y := hi_pair _ _

theorem add64_comm (x y : Lane) : add64 x y = add64 y x := by
  rw [add64, BitVec.add_comm (lo x), BitVec.add_comm (hi x), ← add64]

theorem add64_assoc (x y z : Lane) : add64 (add64 x y) z = add64 x (add64 y z) := by
  rw [add64, lo_add64, hi_add64, BitVec.add_assoc, BitVec.add_assoc, ← lo_add64, ← hi_add64, ← add64]

/-- Settles O21: everything is so of each half. -/
theorem addsHalvesWithoutCarry : Obligations.AddsHalvesWithoutCarry := by
  refine ⟨fun x y => ⟨?_, ?_⟩, add64_comm, add64_assoc, by decide⟩
  · rw [lo_add64, BitVec.toNat_add]
  · rw [hi_add64, BitVec.toNat_add]

/-! ## Padding (R99) -/

/-- Byte `k` of the padded string: of the message, the sentinel, or zero. -/
theorem getD_padBytes (bs : List Byte) (k : Nat) :
    (padBytes bs).getD k 0 = if k < bs.length then bs.getD k 0 else if k = bs.length then 0x80 else 0x00 := by
  unfold padBytes
  split_ifs with message sentinel
  · rw [List.getD_append _ _ _ _ message]
  · rw [List.getD_append_right _ _ _ _ (by omega), sentinel, Nat.sub_self, List.getD_cons_zero]
  · have past : k - bs.length = k - bs.length - 1 + 1 := by omega
    rw [List.getD_append_right _ _ _ _ (by omega), past, List.getD_cons_succ, List.getD_eq_getElem?_getD,
      List.getElem?_getD_replicate_default_eq]

/-- Byte `j` of lane `i` of a byte string is its byte `16i + j`, and zero past its end (20_memory.md R54). -/
theorem byte_laneAt (bs : List Byte) (i : Nat) {j : Nat} (hj : j < 16) : byte (laneAt bs i) j = bs.getD (16 * i + j) 0 := by
  rw [laneAt, byte_leLane _ (List.length_take_le ..)]
  simp only [List.getD_eq_getElem?_getD, List.getElem?_take_of_lt hj, List.getElem?_drop]

/-- Settles O22: a byte of a lane of the block is a byte of the padded string. -/
theorem paddingPutsTheSentinelAfterTheMessage : Obligations.PaddingPutsTheSentinelAfterTheMessage := by
  intro bs i j _ hj
  rw [pad64, ofFn_get, byte_laneAt _ _ hj, getD_padBytes]

end Sys2Proof.Machine

namespace Sys2Proof.Machine

/-! ## The lane primitives (R100 to R106) -/

/-- With ERR 0 a command that is legal, keeps the phase and only writes `RES` leaves that value there, its words marked no
more, and nothing else changed. -/
theorem exec_of_setRes {i : Instr} {s : State} {v : Lane} (hs : s.err = .none) (he : effectOf i s = s.setRes v)
    (hp : legalIn i s.phase = true) (hn : lengthInRange i = true) (hk : phaseAfter i s.phase = s.phase) :
    exec i s = .next { s with res := v, unspecified := s.marksOutside 0x0A0 0x0B0 } := by
  rw [exec_runs (.inl hs) hp hn, he, hk, State.setRes_eq]

theorem subBytes_zero : subBytes 0 = 0x63636363636363636363636363636363 := by decide

/-- Settles O23: SUBB only writes `RES`. -/
theorem subbWritesSubBytesOfOpa : Obligations.SubbWritesSubBytesOfOpa :=
  ⟨fun _ hs => exec_of_setRes hs rfl rfl rfl rfl, subBytes_zero, by decide⟩

/-- Settles O24, with ShiftRows on a lane of equal bytes as the corner case. -/
theorem shrowWritesShiftRowsOfOpa : Obligations.ShrowWritesShiftRowsOfOpa :=
  ⟨fun _ hs => exec_of_setRes hs rfl rfl rfl rfl, fun _ h => shiftRows_of_equal_bytes h, by decide⟩

/-- Settles O25; the lane of zeros is one of the lanes of equal bytes. -/
theorem mixcWritesMixColumnsOfOpa : Obligations.MixcWritesMixColumnsOfOpa :=
  ⟨fun _ hs => exec_of_setRes hs rfl rfl rfl rfl, mixColumns_of_equal_bytes (by decide),
    fun _ _ hc h _ hr => byte_mixColumns_of_equal_column hc h hr, by decide⟩

/-- The corner case of R103: SubBytes of zero has equal bytes, and the other two steps leave it. -/
theorem aes_zero : aes 0 0 = 0x63636363636363636363636363636363 := by
  have equal : ∀ n, n < 16 → byte 0x63636363636363636363636363636363 n = byte 0x63636363636363636363636363636363 0 := by
    decide
  rw [aes, subBytes_zero, shiftRows_of_equal_bytes equal, mixColumns_of_equal_bytes equal]
  decide

/-- The example of R94, step by step. -/
theorem aes_example :
    aes 0x7B5B54657374566563746F725D53475D 0x48692853686179295B477565726F6E5D = 0xA8311C2F9FDBA3C58B104B58DED7E595 := by
  have substituted : subBytes 0x7B5B54657374566563746F725D53475D = 0x2139204D8F92B14DFB92A8404CEDA04C := by decide
  have shifted : shiftRows 0x2139204D8F92B14DFB92A8404CEDA04C = 0x8F92A04DFBED204D4C39B1402192A84C := by decide
  have mixed : mixColumns 0x8F92A04DFBED204D4C39B1402192A84C = 0xE058347CF7BADAECD0573E3DACB88BC8 := by decide
  rw [aes, substituted, shifted, mixed]
  decide

/-- Settles O26 (`aes` is the round the statement writes out). -/
theorem aesrWritesTheAesRound : Obligations.AesrWritesTheAesRound :=
  ⟨fun _ hs => exec_of_setRes hs rfl rfl rfl rfl, aes_zero, aes_example⟩

/-- Settles O27 from the facts about the multiplier. -/
theorem clmulWritesTheSelectedProduct : Obligations.ClmulWritesTheSelectedProduct :=
  ⟨fun _ _ _ hs => exec_of_setRes hs rfl rfl rfl rfl, fun v => ⟨zero_clmul v, clmul_zero v, one_clmul v⟩,
    fun a b => ⟨getLsbD_clmul_top a b, clmul_comm a b⟩, clmul_top_bits, by decide⟩

theorem exec_xor {s : State} (hs : s.err = .none) :
    exec .xor s = .next { s with res := s.opaSeen ^^^ s.opbSeen, unspecified := s.marksOutside 0x0A0 0x0B0 } :=
  exec_of_setRes hs rfl rfl rfl rfl

/-- Settles O28: a lane XOR itself is 0. -/
theorem xorWritesTheBitwiseXor : Obligations.XorWritesTheBitwiseXor :=
  ⟨fun _ hs => exec_xor hs, fun _ hs h => (exec_xor hs).trans (by rw [h, BitVec.xor_self]; rfl)⟩

/-- Settles O29: the sum of R106 is the adder's by definition. -/
theorem add64WritesTheLanewiseSum : Obligations.Add64WritesTheLanewiseSum :=
  ⟨fun _ hs => exec_of_setRes hs rfl rfl rfl rfl, by decide⟩

end Sys2Proof.Machine

namespace Sys2Proof.Machine

/-! ## The short kernel (41_short_kernel.md R121 to R125) -/

/-- The lane that sub-step (a) of a round leaves (R124). -/
theorem quadAes_get (cfg : Params) (off : Vector Half 4) (acc d : Quad) (r : Fin 10) (i : Fin 4) :
    (quadAes cfg off acc d r)[i] = aes acc[i] (add64 (add64 d[i] cfg.rk[r]) (pair off[i] off[i])) := ofFn_get _ i

/-- Index `i` is fed, on odd rounds only, the lane that the rotation then moves to index `i` (R124). -/
theorem quadFeed_get (acc d : Quad) (r : Fin 10) (i : Fin 4) :
    (quadFeed acc d r)[i] = if r.val % 2 = 1 then d[i] ^^^ (rotateQuad acc)[i] else d[i] := by
  unfold quadFeed
  split_ifs with odd
  · rw [ofFn_get, rotateQuad, ofFn_get]
  · rfl

/-- The lanes after a round: those of sub-step (a), rotated (R124). -/
theorem quadRound_fst_get (cfg : Params) (off : Vector Half 4) (acc d : Quad) (r : Fin 10) {i : Nat} (hi : i < 4) :
    (quadRound cfg off (acc, d) r).1[quadIx i] = (quadAes cfg off acc d r)[quadIx ((i + 1) % 4)] := rotateQuad_get _ hi

/-- The data words after a round, by the lanes after it (R124). -/
theorem quadRound_snd_get (cfg : Params) (off : Vector Half 4) (acc d : Quad) (r : Fin 10) (i : Fin 4) :
    (quadRound cfg off (acc, d) r).2[i]
      = if r.val % 2 = 1 then d[i] ^^^ (quadRound cfg off (acc, d) r).1[i] else d[i] := quadFeed_get _ _ _ i

/-- The state after step 3, lane by lane (R121, R123). -/
theorem shortCommitted_eq (cfg : Params) (msg : List Byte) (len dom : Half) :
    shortCommitted cfg msg len dom
      = Vector.ofFn fun i => cfg.shortInit[i] ^^^ (metaWords cfg len dom)[i] ^^^ (whitenedPad cfg msg)[i] :=
  quad_ext fun i _ => by rw [shortCommitted, xorQuad_get, xorQuad_get, ofFn_get]

/-- The short kernel works on the first four lane offsets (R124). -/
theorem offsetsFrom_zero (cfg : Params) : offsetsFrom cfg 0 = Vector.ofFn fun i : Fin 4 => cfg.laneOffset[laneIx i] := by
  unfold offsetsFrom laneIx
  simp only [Nat.zero_add]

/-- Settles O31: the kernel is the XOR of the state saved after step 3 and the lanes after the ten rounds; a round's lanes and
data words are read off its sub-steps. -/
theorem shortKernelFollowsItsSteps : Obligations.ShortKernelFollowsItsSteps := by
  intro cfg msg len dom
  refine ⟨fun i _ => ?_, fun off acc e r i hi => ⟨?_, ?_⟩⟩
  · rw [shortState, shortCommitted_eq, offsetsFrom_zero]
    exact xorQuad_get _ _
  · rw [quadRound_fst_get _ _ _ _ _ hi, quadAes_get]
  · rw [quadRound_snd_get, quadRound_fst_get _ _ _ _ _ hi, quadAes_get]

/-- Settles O32: what SHORT leaves in `ACC[0..3]` and `DIGEST` is a function of the message bytes, `n` and DOMAIN
(`shortHashesTheMessage`), and both states have the same message bytes. -/
theorem shortIgnoresAllOtherState : Obligations.ShortIgnoresAllOtherState := by
  intro s u n hs hu hn hdom hbytes
  have same : s.mbufBytes 0 n = u.mbufBytes 0 n := State.mbufBytes_congr fun k hk => by
    rw [Nat.zero_add]; exact hbytes k hk
  obtain ⟨t, ht, ⟨tacc, tdigest⟩, -⟩ := shortHashesTheMessage s n hs hn
  obtain ⟨v, hv, ⟨vacc, vdigest⟩, -⟩ := shortHashesTheMessage u n hu hn
  rw [same, hdom] at tdigest
  rw [same, hdom] at tacc
  exact ⟨t, v, ht, hv, tdigest.trans vdigest.symm, fun i hi => (tacc i hi).trans (vacc i hi).symm⟩

end Sys2Proof.Machine

/-! # Bulk initialisation (42_bulk_init.md)

INIT is described lane by lane, step by step (R136 to R138). That KEY has no effect on an unkeyed hash (R140 (d)) is said of
each effect in turn: only the key rounds of INIT and REKEY read KEY, and every stage of FINAL hands on KEYV. -/

namespace Sys2Proof.Machine

/-! ## The three steps, lane by lane (R136 to R138) -/

/-- The fill (R136). -/
theorem bulkFill_get (cfg : Params) {g e : Nat} (hg : g < 8) (he : e < 4) :
    (bulkFill cfg)[laneIx (4 * g + e)]
      = pair (cfg.c[g] + BitVec.ofNat 64 (2 * e)) (cfg.c[g] + BitVec.ofNat 64 (2 * e + 1)) := by
  have double : (2 : Half) * BitVec.ofNat 64 e = BitVec.ofNat 64 (2 * e) := (BitVec.ofNat_mul 2 e).symm
  unfold bulkFill
  rw [ofFn_get]
  simp only [Fin.getElem_fin, groupOf_laneIx hg he, elemOf_laneIx hg he, double]
  rw [BitVec.ofNat_add, ← BitVec.add_assoc]
  rfl

theorem seedWord_eq (cfg : Params) (seed : Half) : seedWord cfg seed = if seed ≠ 0 then seed else cfg.c[5] := by
  rw [seedWord, ite_not]

/-- The seed round (R137). -/
theorem bulkSeed_get (cfg : Params) (seed : Half) (acc : Bulk) (i : Fin 32) :
    (bulkSeed cfg seed acc)[i] = aes acc[i] (bcast (seedWord cfg seed)) := ofFn_get _ i

/-- The two key rounds, the first with the offset of the lane's group (R138). -/
theorem bulkKey_get (cfg : Params) (k0 k1 : Lane) (acc : Bulk) {g e : Nat} (hg : g < 8) (he : e < 4) :
    (bulkKey cfg k0 k1 acc)[laneIx (4 * g + e)]
      = aes (aes acc[laneIx (4 * g + e)] (add64 (keyWords cfg k0 k1)[e] (bcast cfg.laneOffset[laneIx g])))
          (keyWords cfg k0 k1)[e] := by
  unfold bulkKey
  rw [ofFn_get]
  simp only [Fin.getElem_fin, groupOf_laneIx hg he, elemOf_laneIx hg he]
  rfl

/-- With the key flag INIT adds the key rounds (R138). -/
theorem bulkInit_keyed (cfg : Params) (seed : Half) (k0 k1 : Lane) :
    bulkInit cfg seed true k0 k1 = bulkKey cfg k0 k1 (bulkSeed cfg seed (bulkFill cfg)) := by
  rw [bulkInit, if_pos rfl]

/-- INIT writes every lane register (R135). -/
theorem initEffect_acc_get (cfg : Params) (k : Bool) (s : State) {i : Nat} (hi : i < 32) :
    (initEffect cfg k s).acc[laneIx i] = (bulkInit cfg s.seed k s.k0Seen s.k1Seen)[laneIx i] := s.setAcc_below 32 _ hi hi

/-- INIT takes the marks off `ACC` and off no other word. -/
theorem mem_initEffect_unspecified (cfg : Params) (k : Bool) (s : State) (a : Nat) :
    a ∈ (initEffect cfg k s).unspecified ↔ a ∈ s.unspecified ∧ ¬ (0x400 ≤ a ∧ a < 0x600) := s.mem_define 0x400 128 a

/-- Settles O33: INIT is legal in every phase, so with ERR 0 it is performed; each lane is read off the steps of R136 to R138. -/
theorem initFillsSeedsAndKeysEveryLane : Obligations.InitFillsSeedsAndKeysEveryLane := by
  intro s k hs
  have performed := exec_runs (i := .init k) (.inl hs) rfl rfl
  refine ⟨_, performed, fun g e hg he => ?_, mem_initEffect_unspecified Config.params k s, rfl⟩
  refine (initEffect_acc_get Config.params k s (by omega)).trans ?_
  rw [← seedWord_eq]
  cases k with
  | false => rw [bulkInit_unkeyed, bulkSeed_get, bulkFill_get _ hg he]; rfl
  | true => rw [bulkInit_keyed, bulkKey_get _ _ _ _ hg he, bulkSeed_get, bulkFill_get _ hg he]; rfl

/-! ## What KEY can reach (R140, R174) -/

/-! ### The writes of registers do not look at KEY -/

theorem State.setRes_withKey (s : State) (k : BitVec 256) (v : Lane) :
    (s.withKey k).setRes v = (s.setRes v).withKey k := rfl

theorem State.setDigest_withKey (s : State) (k : BitVec 256) (v : BitVec 256) :
    (s.withKey k).setDigest v = (s.setDigest v).withKey k := rfl

theorem State.setAcc_withKey (s : State) (k : BitVec 256) (count : Nat) (v : Bulk) :
    (s.withKey k).setAcc count v = (s.setAcc count v).withKey k := rfl

theorem State.setQuad_withKey (s : State) (k : BitVec 256) (q : Quad) :
    (s.withKey k).setQuad q = (s.setQuad q).withKey k := rfl

/-! ### Nor do the reads of any other storage -/

theorem State.opaSeen_withKey (s : State) (k : BitVec 256) : (s.withKey k).opaSeen = s.opaSeen := rfl

theorem State.opbSeen_withKey (s : State) (k : BitVec 256) : (s.withKey k).opbSeen = s.opbSeen := rfl

theorem State.accSeen_withKey (s : State) (k : BitVec 256) : (s.withKey k).accSeen = s.accSeen := rfl

theorem State.dpadSeen_withKey (s : State) (k : BitVec 256) : (s.withKey k).dpadSeen = s.dpadSeen := rfl

theorem State.mbufByte_withKey (s : State) (k : BitVec 256) (j : Nat) : (s.withKey k).mbufByte j = s.mbufByte j := rfl

theorem State.mbufBytes_withKey (s : State) (k : BitVec 256) (a n : Nat) :
    (s.withKey k).mbufBytes a n = s.mbufBytes a n := rfl

/-! ### The effects of commands -/

theorem shortEffect_withKey (cfg : Params) (n : Nat) (s : State) (k : BitVec 256) :
    shortEffect cfg n (s.withKey k) = (shortEffect cfg n s).withKey k := by
  unfold shortEffect
  rw [State.mbufBytes_withKey]
  rfl

/-- Without the key flag INIT does not look at KEY (R138). -/
theorem initEffect_withKey (cfg : Params) (s : State) (k : BitVec 256) :
    initEffect cfg false (s.withKey k) = (initEffect cfg false s).withKey k := by
  unfold initEffect
  rw [bulkInit_unkeyed, bulkInit_unkeyed]
  rfl

theorem compressEffect_withKey (cfg : Params) (s : State) (k : BitVec 256) :
    compressEffect cfg (s.withKey k) = (compressEffect cfg s).withKey k := by
  unfold compressEffect
  rw [State.accSeen_withKey, blockWords_congr cfg (u := s) fun j _ => s.mbufByte_withKey k j]
  rfl

theorem tailEffect_withKey (cfg : Params) (n : Nat) (s : State) (k : BitVec 256) :
    tailEffect cfg n (s.withKey k) = (tailEffect cfg n s).withKey k := by
  unfold tailEffect
  rw [absorbChunks_congr cfg (u := s) (s.accSeen_withKey k) fun j _ => s.mbufByte_withKey k j, State.mbufBytes_withKey]
  rfl

theorem mergeEffect_withKey (cfg : Params) (s : State) (k : BitVec 256) :
    mergeEffect cfg (s.withKey k) = (mergeEffect cfg s).withKey k := by
  unfold mergeEffect
  rw [State.accSeen_withKey, State.setAcc_withKey]

theorem hardenEffect_withKey (cfg : Params) (s : State) (k : BitVec 256) :
    hardenEffect cfg (s.withKey k) = (hardenEffect cfg s).withKey k := by
  unfold hardenEffect
  rw [State.accSeen_withKey, State.setQuad_withKey]

theorem fblockEffect_withKey (cfg : Params) (s : State) (k : BitVec 256) :
    fblockEffect cfg (s.withKey k) = (fblockEffect cfg s).withKey k := by
  unfold fblockEffect
  rw [State.accSeen_withKey, State.dpadSeen_withKey, State.setQuad_withKey]
  rfl

/-- In an unkeyed hash REKEY does nothing, whatever KEY holds (R174). -/
theorem rekeyEffect_withKey {s : State} (k : BitVec 256) (h : s.keyv = false) :
    rekeyEffect (s.withKey k) = (rekeyEffect s).withKey k := by
  rw [rekeyEffect_of_not_keyed h, rekeyEffect_of_not_keyed (s := s.withKey k) h]

theorem reduceEffect_withKey (cfg : Params) (s : State) (k : BitVec 256) :
    reduceEffect cfg (s.withKey k) = (reduceEffect cfg s).withKey k := by
  unfold reduceEffect
  rw [State.accSeen_withKey, State.setDigest_withKey]

/-- FINAL's REKEY finds KEYV as FINAL found it (R177, R178). -/
theorem finalEffect_withKey (cfg : Params) (n : Nat) {s : State} (k : BitVec 256) (h : s.keyv = false) :
    finalEffect cfg n (s.withKey k) = (finalEffect cfg n s).withKey k := by
  have toFblock := (tailEffect_keeps cfg n s).trans <| (mergeEffect_keeps cfg _).trans <|
    (hardenEffect_keeps cfg _).trans (fblockEffect_keeps cfg _)
  unfold finalEffect
  rw [tailEffect_withKey, mergeEffect_withKey, hardenEffect_withKey, fblockEffect_withKey,
    rekeyEffect_withKey k (toFblock.keyv.trans h), reduceEffect_withKey]

/-- In an unkeyed hash no command's effect depends on KEY, but for INIT with the key flag; SRESET, which clears KEY, is left
out. -/
theorem effectOf_withKey {i : Instr} {s : State} (k : BitVec 256) (h : s.keyv = false) (hi : i ≠ .init true)
    (hr : i ≠ .sreset) : effectOf i (s.withKey k) = (effectOf i s).withKey k := by
  cases i with
  | sreset => exact absurd rfl hr
  | nop | clrerr => rfl
  | subb | shrow | mixc => simp only [effectOf, State.opaSeen_withKey, State.setRes_withKey]
  | aesr | clmul _ _ | xor | add64 =>
    simp only [effectOf, State.opaSeen_withKey, State.opbSeen_withKey, State.setRes_withKey]
  | short n => exact shortEffect_withKey _ n s k
  | init b =>
    cases b with
    | false => exact initEffect_withKey _ s k
    | true => exact absurd rfl hi
  | compress => exact compressEffect_withKey _ s k
  | tail n => exact tailEffect_withKey _ n s k
  | merge => exact mergeEffect_withKey _ s k
  | harden => exact hardenEffect_withKey _ s k
  | fblock => exact fblockEffect_withKey _ s k
  | rekey => exact rekeyEffect_withKey k h
  | reduce => exact reduceEffect_withKey _ s k
  | final n => exact finalEffect_withKey _ n k h

/-- Where a command's effect does not depend on KEY, the command does not: gating and refusals never look at KEY (R76). -/
theorem exec_withKey {i : Instr} {s : State} {k : BitVec 256}
    (h : effectOf i (s.withKey k) = (effectOf i s).withKey k) :
    exec i (s.withKey k) = mapNext (fun t => t.withKey k) (exec i s) := by
  have hphase : (s.withKey k).phase = s.phase := rfl
  have herr : (s.withKey k).err = s.err := rfl
  rw [exec_eq_command, exec_eq_command]
  unfold command
  rw [hphase, herr, h, State.raise_withKey, State.raise_withKey]
  split_ifs <;> rfl

/-- Settles O34: refusals never look at KEY, and of the effects of the commands left only REKEY's would, in a keyed hash. -/
theorem keyHasNoEffectOnAnUnkeyedHash : Obligations.KeyHasNoEffectOnAnUnkeyedHash :=
  fun _ _ k hv hi hr => exec_withKey (effectOf_withKey k hv hi hr)

end Sys2Proof.Machine

/-! # Bulk compression (43_bulk_compress.md)

The lane formulas of R148 to R152 are read off the moves of lane groups, each of which goes some number of groups on modulo 8;
COMPRESS is the kernel on the lanes, the whitened block and the index (R155). -/

namespace Sys2Proof.Machine

/-! ## The moves of lanes (R148 to R152) -/

/-- The lane at a bulk index, by the numbers of its lane group and its element (R14). -/
theorem get_bulkIndex (x : Bulk) {G : Fin 8} {E : Fin 4} {g e : Nat} (hG : G.val = g) (hE : E.val = e) :
    x[bulkIndex G E] = x[laneIx (4 * g + e)] := by
  subst hG hE
  exact congrArg (fun i : Fin 32 => x[i]) (bulkIndex_eq G E)

/-- The number of the lane group `k` groups on from that of lane `4g + e` (R148). -/
theorem groupOf_add_val {g e : Nat} (hg : g < 8) (he : e < 4) (k : Fin 8) :
    (groupOf (laneIx (4 * g + e)) + k).val = (g + k.val) % 8 := by
  rw [Fin.val_add, groupOf_laneIx hg he]

/-- Sub-step (a) of a round (R148, R152). -/
theorem bulkAes_get (cfg : Params) (shift : Fin 8) (b : Half) (acc d : Bulk) (r : Fin 10) {g e : Nat} (hg : g < 8)
    (he : e < 4) :
    (bulkAes cfg shift b acc d r)[laneIx (4 * g + e)]
      = aes acc[laneIx (4 * g + e)]
          (add64 (add64 (add64 d[laneIx (4 * ((g + shift.val) % 8) + e)] cfg.rk[r]) (bcast cfg.laneOffset[laneIx (4 * g + e)]))
            (pair b b)) := by
  rw [bulkAes, ofFn_get, get_bulkIndex d (groupOf_add_val hg he shift) (elemOf_laneIx hg he)]

/-- Sub-step (b), the feedback of stride 3 (R148). -/
theorem bulkFeed_get (acc d : Bulk) {g e : Nat} (hg : g < 8) (he : e < 4) :
    (bulkFeed acc d)[laneIx (4 * g + e)] = d[laneIx (4 * g + e)] ^^^ acc[laneIx (4 * ((g + 3) % 8) + e)] := by
  rw [bulkFeed, ofFn_get, get_bulkIndex acc (groupOf_add_val hg he 3) (elemOf_laneIx hg he)]
  rfl

/-- Sub-step (c), the lane rotation (R148). -/
theorem rotateGroups_get (acc : Bulk) {g e : Nat} (hg : g < 8) (he : e < 4) :
    (rotateGroups acc)[laneIx (4 * g + e)] = acc[laneIx (4 * ((g + 1) % 8) + e)] := by
  rw [rotateGroups, ofFn_get, get_bulkIndex acc (groupOf_add_val hg he 1) (elemOf_laneIx hg he)]
  rfl

/-- The element rotation (R149). -/
theorem rotateElems_get (acc : Bulk) {g e : Nat} (hg : g < 8) (he : e < 4) :
    (rotateElems acc)[laneIx (4 * g + e)] = acc[laneIx (4 * g + (e + 1) % 4)] := by
  have next : (elemOf (laneIx (4 * g + e)) + 1).val = (e + 1) % 4 := by rw [Fin.val_add, elemOf_laneIx hg he]; rfl
  rw [rotateElems, ofFn_get, get_bulkIndex acc (groupOf_laneIx hg he) next]

/-- A lane group of the lower half gets the XOR (R150). -/
theorem butterflyHalves_lower (acc : Bulk) {g e : Nat} (hg : g < 4) (he : e < 4) :
    (butterflyHalves acc)[laneIx (4 * g + e)] = acc[laneIx (4 * g + e)] ^^^ acc[laneIx (4 * (g + 4) + e)] := by
  have hg8 : g < 8 := by omega
  have other : (groupOf (laneIx (4 * g + e)) + 4).val = g + 4 :=
    (groupOf_add_val hg8 he 4).trans (Nat.mod_eq_of_lt (Nat.add_lt_add_right hg 4))
  rw [butterflyHalves, ofFn_get, groupOf_laneIx hg8 he, if_pos hg, get_bulkIndex acc other (elemOf_laneIx hg8 he)]

/-- A lane group of the higher half gets the sum; four groups on from it is its partner in the lower half (R150). -/
theorem butterflyHalves_higher (acc : Bulk) {g e : Nat} (hg : g < 4) (he : e < 4) :
    (butterflyHalves acc)[laneIx (4 * (g + 4) + e)]
      = add64 acc[laneIx (4 * (g + 4) + e)] acc[laneIx (4 * g + e)] := by
  have hg8 : g + 4 < 8 := by omega
  have other : (groupOf (laneIx (4 * (g + 4) + e)) + 4).val = g :=
    (groupOf_add_val hg8 he 4).trans (show (g + 4 + 4) % 8 = g by omega)
  rw [butterflyHalves, ofFn_get, groupOf_laneIx hg8 he, if_neg (by omega), get_bulkIndex acc other (elemOf_laneIx hg8 he)]

/-- The lower lane group of a pair of R151 gets the XOR. -/
theorem butterflyPairs_lower (acc : Bulk) {g e : Nat} (hg : g + 2 < 8) (hl : g % 4 < 2) (he : e < 4) :
    (butterflyPairs acc)[laneIx (4 * g + e)] = acc[laneIx (4 * g + e)] ^^^ acc[laneIx (4 * (g + 2) + e)] := by
  have hg8 : g < 8 := by omega
  have other : (groupOf (laneIx (4 * g + e)) + 2).val = g + 2 := (groupOf_add_val hg8 he 2).trans (Nat.mod_eq_of_lt hg)
  rw [butterflyPairs, ofFn_get, groupOf_laneIx hg8 he, if_pos hl, get_bulkIndex acc other (elemOf_laneIx hg8 he)]

/-- The higher lane group of a pair of R151 gets the sum. -/
theorem butterflyPairs_higher (acc : Bulk) {g e : Nat} (hg : g + 2 < 8) (hl : g % 4 < 2) (he : e < 4) :
    (butterflyPairs acc)[laneIx (4 * (g + 2) + e)] = add64 acc[laneIx (4 * (g + 2) + e)] acc[laneIx (4 * g + e)] := by
  have other : (groupOf (laneIx (4 * (g + 2) + e)) - 2).val = g := by
    rw [Fin.sub_val_of_le (by rw [Fin.le_def, groupOf_laneIx hg he]; exact Nat.le_add_left 2 g), groupOf_laneIx hg he]
    exact Nat.add_sub_cancel g 2
  rw [butterflyPairs, ofFn_get, groupOf_laneIx hg he, if_neg (by omega), get_bulkIndex acc other (elemOf_laneIx hg he)]

/-- Settles O36: a round's lanes are those of sub-step (a) moved one group on, and its data words are fed those of sub-step (a)
three groups on. -/
theorem bulkRoundFollowsItsSubsteps : Obligations.BulkRoundFollowsItsSubsteps := by
  intro cfg shift b acc d r g e hg he
  have group : ∀ k, (g + k) % 8 < 8 := fun k => Nat.mod_lt _ (by decide)
  constructor
  · exact (rotateGroups_get _ hg he).trans (bulkAes_get cfg shift b acc d r (group 1) he)
  · exact (bulkFeed_get _ d hg he).trans
      (congrArg (d[laneIx (4 * g + e)] ^^^ ·) (bulkAes_get cfg shift b acc d r (group 3) he))

/-- Settles O37: in each pair of R151 the higher group stands two groups after the lower. -/
theorem bulkMixingFollowsItsFormulas : Obligations.BulkMixingFollowsItsFormulas := by
  intro acc e he
  refine ⟨fun g hg => rotateElems_get acc hg he,
    fun i hi => ⟨butterflyHalves_lower acc hi he, butterflyHalves_higher acc hi he⟩, fun p q hpq => ?_⟩
  obtain ⟨rfl, hp, hl⟩ : q = p + 2 ∧ p + 2 < 8 ∧ p % 4 < 2 := by
    simp only [List.mem_cons, Prod.mk.injEq, List.not_mem_nil, or_false] at hpq
    omega
  exact ⟨butterflyPairs_lower acc hp hl he, butterflyPairs_higher acc hp hl he⟩

/-! ## COMPRESS (R145 to R155) -/

/-- In ABSORB with ERR 0 COMPRESS is performed, and ABSORB stays (R145). -/
theorem exec_compress {s : State} (hs : s.err = .none) (hp : s.phase = .absorb) :
    exec .compress s = .next (compressEffect Config.params s) := by
  have legal : legalIn .compress s.phase = true := by rw [hp]; rfl
  have stays : phaseAfter .compress s.phase = (compressEffect Config.params s).phase := hp.symm
  rw [exec_runs (.inl hs) legal rfl, stays]
  rfl

/-- A write of all lane registers leaves the lanes written (R20, column 'Written by'). -/
theorem State.setAcc_all (s : State) (v : Bulk) : (s.setAcc 32 v).acc = v := bulk_ext fun _ hi => s.setAcc_below 32 v hi hi

/-- COMPRESS writes every lane register with what the kernel computes (R145, R155). -/
theorem compressEffect_acc (cfg : Params) (s : State) :
    (compressEffect cfg s).acc = bulkCompress cfg s.accSeen (blockWords cfg s) s.blk :=
  s.setAcc_all (bulkCompress cfg s.accSeen (blockWords cfg s) s.blk)

/-- COMPRESS takes the marks off `ACC` and off no other word. -/
theorem mem_compressEffect_unspecified (cfg : Params) (s : State) (a : Nat) :
    a ∈ (compressEffect cfg s).unspecified ↔ a ∈ s.unspecified ∧ ¬ (0x400 ≤ a ∧ a < 0x600) := s.mem_define 0x400 128 a

/-- Settles O35: COMPRESS is performed in ABSORB, and its last step XORs the saved lanes into the rotated ones (R153). -/
theorem compressAbsorbsOneBlock : Obligations.CompressAbsorbsOneBlock := by
  intro s hs hp
  refine ⟨_, exec_compress hs hp, fun i _ => ?_, mem_compressEffect_unspecified _ s, rfl⟩
  rw [compressEffect_acc]
  exact xorBulk_get _ _

/-- Settles O38: the lanes COMPRESS writes are the kernel's, whose arguments are the lanes read, the whitened block and the
index. -/
theorem compressReadsOnlyLanesBlockAndIndex : Obligations.CompressReadsOnlyLanesBlockAndIndex := by
  intro s u hs hu hps hpu hacc hbytes hblk
  refine ⟨_, _, exec_compress hs hps, exec_compress hu hpu, ?_, congrArg (· + 1) hblk⟩
  rw [compressEffect_acc, compressEffect_acc, hacc, blockWords_congr _ hbytes, hblk]

end Sys2Proof.Machine

/-! # Finalisation (44_finalize.md)

HARDEN, FBLOCK and REKEY are each one write of `ACC[0..3]`, so what they write and leave is said once of such a command and the
lanes are read off the kernels; TAIL and MERGE are read off the chunks and the levels. No stage looks at PHASE, which is why the
six stages run one by one end where FINAL's composition of their effects does (R178). -/

namespace Sys2Proof.Machine

/-! ## A stage that writes four lanes -/

/-- A write of `ACC[0..3]` takes the marks off those registers and off no other word. -/
theorem State.mem_setQuad_unspecified (s : State) (q : Quad) (a : Nat) :
    a ∈ (s.setQuad q).unspecified ↔ a ∈ s.unspecified ∧ ¬ (0x400 ≤ a ∧ a < 0x440) := s.mem_define 0x400 16 a

/-- With ERR 0 a command that is legal, in range and only writes `ACC[0..3]` leaves those lanes and its phase there, and nothing
else changed. -/
theorem exec_of_setQuad {i : Instr} {s : State} {q : Quad} (hs : s.err = .none) (he : effectOf i s = s.setQuad q)
    (hp : legalIn i s.phase = true) (hn : lengthInRange i = true) :
    ∃ t, exec i s = .next t ∧ (∀ j, j < 4 → t.acc[laneIx j] = q[quadIx j])
      ∧ (∀ j, 4 ≤ j → j < 32 → t.acc[laneIx j] = s.acc[laneIx j])
      ∧ (∀ a, a ∈ t.unspecified ↔ a ∈ s.unspecified ∧ ¬ (0x400 ≤ a ∧ a < 0x440))
      ∧ t = { s with acc := t.acc, phase := phaseAfter i s.phase, unspecified := t.unspecified } := by
  have performed := exec_runs (.inl hs) hp hn
  rw [he] at performed
  exact ⟨_, performed, fun j hj => s.setQuad_below q hj, fun j h4 hj => s.setQuad_above q h4 hj,
    s.mem_setQuad_unspecified q, rfl⟩

/-! ## HARDEN (R167, R168) -/

/-- Settles O41: HARDEN writes each of `ACC[0..3]` from its own lane alone; the worked example is a closed computation. -/
theorem hardenMixesFourLanesWithClmul : Obligations.HardenMixesFourLanesWithClmul := by
  refine ⟨fun s hs hp => ?_, fun cfg hk1 hk2 => ?_⟩
  · obtain ⟨t, performed, lanes, rest⟩ := exec_of_setQuad (i := .harden) hs rfl (beq_iff_eq.mpr hp) rfl
    refine ⟨t, performed, fun i hi => (lanes i hi).trans ?_, rest⟩
    rw [ofFn_get, firstQuad_get _ hi]
    rfl
  · unfold hardenLane
    rw [hk1, hk2]
    decide

/-! ## FBLOCK (R169 to R173) -/

/-- The four lanes the end of the finalisation works on, by their indices. -/
theorem firstQuad_eq (acc : Bulk) : firstQuad acc = Vector.ofFn fun i : Fin 4 => acc[laneIx i] :=
  quad_ext fun i hi => by
    rw [firstQuad_get acc hi, ofFn_get]
    exact congrArg (fun n => acc[laneIx n]) (quadIx_val hi).symm

theorem xorQuad_xorQuad (x y z : Quad) :
    xorQuad (xorQuad x y) z = Vector.ofFn fun i : Fin 4 => x[i] ^^^ y[i] ^^^ z[i] :=
  quad_ext fun i _ => by rw [xorQuad_get, xorQuad_get, ofFn_get]

/-- Settles O42: the kernel is the XOR of the lanes saved before metadata and data go in, and the lanes after the ten rounds. -/
theorem fblockCommitsLengthAndDomain : Obligations.FblockCommitsLengthAndDomain := by
  intro s hs hp
  obtain ⟨t, performed, lanes, rest⟩ := exec_of_setQuad (i := .fblock) hs rfl (beq_iff_eq.mpr hp) rfl
  refine ⟨t, performed, fun i hi => (lanes i hi).trans ?_, rest⟩
  rw [finalBlock, xorQuad_xorQuad, firstQuad_eq]
  exact xorQuad_get _ _

/-- The lane that sub-step (a) of a round leaves (R172). -/
theorem finalAes_get (cfg : Params) (acc d : Quad) (r : Fin 10) (i : Fin 4) :
    (finalAes cfg acc d r)[i] = aes acc[i] (add64 d[i] cfg.rk[r]) := ofFn_get _ i

/-- Settles O43: the lanes are those of sub-step (a), rotated, and odd rounds feed them to the data words. -/
theorem finalRoundFollowsItsSubsteps : Obligations.FinalRoundFollowsItsSubsteps := by
  intro cfg acc d r i hi
  constructor
  · exact (rotateQuad_get _ hi).trans (finalAes_get cfg acc d r _)
  · unfold finalRound
    dsimp only
    split_ifs with odd
    · exact xorQuad_get _ _
    · rfl

/-! ## REKEY (R174, R175) -/

/-- Each lane goes through the rounds by itself, under its column of the patterns (R175). -/
theorem rekeyLanes_get (k0 k1 : Lane) (acc : Quad) (i : Fin 4) :
    (rekeyLanes k0 k1 acc)[i] = (rekeyPatterns k0 k1).foldl (fun x p => aes x p[i]) acc[i] := by
  unfold rekeyLanes
  induction rekeyPatterns k0 k1 generalizing acc with
  | nil => rfl
  | cons p ps ih => rw [List.foldl_cons, List.foldl_cons, ih, ofFn_get]

/-- Settles O44: REKEY does nothing or writes `ACC[0..3]`, each lane by its column of the patterns. -/
theorem rekeyFiresExactlyWhenKeyed : Obligations.RekeyFiresExactlyWhenKeyed := by
  intro s hs hp
  have legal : legalIn .rekey s.phase = true := beq_iff_eq.mpr hp
  refine ⟨fun unkeyed => ?_, fun keyed => ?_⟩
  · have performed := exec_runs (i := .rekey) (.inl hs) legal rfl
    rwa [effectOf, rekeyEffect_of_not_keyed unkeyed] at performed
  · obtain ⟨t, performed, lanes, rest⟩ := exec_of_setQuad (i := .rekey) hs (rekeyEffect_of_keyed keyed) legal rfl
    have column (j : Nat) (hj : j < 4) : t.acc[laneIx j]
        = (rekeyPatterns s.k0Seen s.k1Seen).foldl (fun x p => aes x p[quadIx j]) s.accSeen[laneIx j] := by
      rw [lanes j hj, rekeyLanes_get, firstQuad_get _ hj]
    exact ⟨t, performed, ⟨column 0 (by decide), column 1 (by decide), column 2 (by decide), column 3 (by decide)⟩, rest⟩

/-! ## TAIL (R160 to R164) -/

theorem absorbChunks_succ (cfg : Params) (s : State) (q : Nat) :
    absorbChunks cfg s (q + 1) = absorbChunk cfg s (absorbChunks cfg s q) q := by
  unfold absorbChunks
  rw [List.range_succ, List.foldl_append, List.foldl_cons, List.foldl_nil]

/-- The registers of the chunks that have not been absorbed are as they were (R161). -/
theorem absorbChunks_above (cfg : Params) (s : State) {q i : Nat} (h : 4 * q ≤ i) (hi : i < 32) :
    (absorbChunks cfg s q)[laneIx i] = s.accSeen[laneIx i] := by
  induction q with
  | zero => rfl
  | succ q ih =>
    rw [absorbChunks_succ, absorbChunk, withQuadAt_out _ _ _ hi (.inr (by omega))]
    exact ih (by omega)

/-- The registers of a chunk hold its mini-compression of what they held before TAIL: no other chunk writes them (R161, R163). -/
theorem absorbChunks_below (cfg : Params) (s : State) {q c i : Nat} (hc : c < q) (hq : q ≤ 8) (hi : i < 4) :
    (absorbChunks cfg s q)[laneIx (4 * c + i)]
      = (quadCompress cfg (offsetsFrom cfg (4 * c)) (quadAt s.accSeen (4 * c)) (chunkWords cfg s c))[quadIx i] := by
  induction q with
  | zero => exact absurd hc (Nat.not_lt_zero c)
  | succ q ih =>
    rw [absorbChunks_succ, absorbChunk]
    rcases Nat.lt_succ_iff_lt_or_eq.mp hc with earlier | rfl
    · rw [withQuadAt_out _ _ _ (by omega) (.inl (by omega))]
      exact ih earlier (by omega)
    · have untouched : quadAt (absorbChunks cfg s c) (4 * c) = quadAt s.accSeen (4 * c) :=
        quad_ext fun j hj => by
          rw [quadAt_get _ _ hj, quadAt_get _ _ hj, absorbChunks_above cfg s (by omega) (by omega)]
      rw [withQuadAt_in _ _ _ hi (by omega), untouched]

/-- TAIL takes the marks off the registers of the full chunks and off `DPAD`, and off no other word. -/
theorem mem_tailEffect_unspecified (cfg : Params) (n : Nat) (s : State) (a : Nat) :
    a ∈ (tailEffect cfg n s).unspecified
      ↔ a ∈ s.unspecified ∧ ¬ (0x400 ≤ a ∧ a < 0x400 + 64 * (n / 64)) ∧ ¬ (0x100 ≤ a ∧ a < 0x140) := by
  unfold tailEffect
  dsimp only
  rw [State.setDpad_unspecified, State.mem_define, State.setAcc_unspecified, State.mem_define, and_assoc,
    ← Nat.mul_assoc, ← Nat.mul_assoc]

/-- Settles O39: TAIL is performed in ABSORB; it writes the registers of the full chunks with what the chunks leave there, and
`DPAD`. -/
theorem tailAbsorbsChunksAndPadsTheRest : Obligations.TailAbsorbsChunksAndPadsTheRest := by
  intro s n hs hp hn
  have performed := exec_runs (i := .tail n) (.inl hs) (beq_iff_eq.mpr hp) (decide_eq_true hn)
  refine ⟨_, performed, ⟨fun c i hc hi => ?_, fun i => ?_⟩, fun i h hi => ?_, mem_tailEffect_unspecified _ n s, rfl⟩
  · refine (s.setAcc_below _ _ (by omega) (by omega)).trans ?_
    rw [absorbChunks_below _ s hc (by omega) hi]
    exact xorQuad_get _ _
  · exact ofFn_get _ i
  · exact s.setAcc_above _ _ h hi

/-! ## MERGE (R165, R166) -/

/-- What a surviving lane `x` becomes when it absorbs the lane `y` under the mask `m` (R166). -/
def mergedLane (m : Half) (x y : Lane) : Lane := aes (aes x (y ^^^ pair m m)) (aes x (y ^^^ pair m m) ^^^ pair m m)

theorem mergeLevel_get (count : Nat) (m : Half) (acc : Bulk) {i : Nat} (h : i < count) (hc : count ≤ 16) :
    (mergeLevel count (bcast m) acc)[laneIx i] = mergedLane m acc[laneIx i] acc[laneIx (i + count)] :=
  mergeLevel_below count (bcast m) acc h hc

/-- The lanes after the first level (R166). -/
def mergeOne (cfg : Params) (acc : Bulk) (i : Nat) : Lane := mergedLane cfg.c[5] acc[laneIx i] acc[laneIx (i + 16)]

/-- The lanes after the second level (R166). -/
def mergeTwo (cfg : Params) (acc : Bulk) (i : Nat) : Lane :=
  mergedLane cfg.c[6] (mergeOne cfg acc i) (mergeOne cfg acc (i + 8))

/-- `ACC[8..15]` keep their level-1 values (R166). -/
theorem treeMerge_upper (cfg : Params) (acc : Bulk) {i : Nat} (h : 8 ≤ i) (hi : i < 16) :
    (treeMerge cfg acc)[laneIx i] = mergeOne cfg acc i := by
  rw [treeMerge, mergeLevel_above 4 _ _ (by omega) (by omega), mergeLevel_above 8 _ _ h (by omega),
    mergeLevel_get 16 _ _ hi (by decide)]
  rfl

/-- The lanes that survive the second level, before the third. -/
theorem mergeLevel_two (cfg : Params) (acc : Bulk) {i : Nat} (hi : i < 8) :
    (mergeLevel 8 (bcast cfg.c[6]) (mergeLevel 16 (bcast cfg.c[5]) acc))[laneIx i] = mergeTwo cfg acc i := by
  rw [mergeLevel_get 8 _ _ hi (by decide), mergeLevel_get 16 _ _ (by omega) (by decide),
    mergeLevel_get 16 _ _ (by omega) (by decide)]
  rfl

/-- `ACC[4..7]` keep their level-2 values (R166). -/
theorem treeMerge_middle (cfg : Params) (acc : Bulk) {i : Nat} (h : 4 ≤ i) (hi : i < 8) :
    (treeMerge cfg acc)[laneIx i] = mergeTwo cfg acc i := by
  rw [treeMerge, mergeLevel_above 4 _ _ h (by omega), mergeLevel_two cfg acc hi]

/-- The four lanes that survive the tree-merge (R166). -/
theorem treeMerge_lower (cfg : Params) (acc : Bulk) {i : Nat} (hi : i < 4) :
    (treeMerge cfg acc)[laneIx i] = mergedLane cfg.c[7] (mergeTwo cfg acc i) (mergeTwo cfg acc (i + 4)) := by
  rw [treeMerge, mergeLevel_get 4 _ _ hi (by decide), mergeLevel_two cfg acc (by omega), mergeLevel_two cfg acc (by omega)]

/-- Settles O40: MERGE writes `ACC[0..15]` with the tree-merge, whose lanes are those of the level each survives to. -/
theorem mergeFoldsThirtyTwoLanesToFour : Obligations.MergeFoldsThirtyTwoLanesToFour := by
  intro s hs hp
  have performed := exec_runs (i := .merge) (.inl hs) (beq_iff_eq.mpr hp) rfl
  have written {i : Nat} (hi : i < 16) := s.setAcc_below 16 (treeMerge Config.params s.accSeen) hi (by omega)
  exact ⟨_, performed,
    ⟨fun i hi => (written (by omega)).trans (treeMerge_lower _ _ hi),
      fun i h hi => (written (by omega)).trans (treeMerge_middle _ _ h hi),
      fun i h hi => (written hi).trans (treeMerge_upper _ _ h hi)⟩,
    fun i h hi => s.setAcc_above 16 _ h hi, s.mem_define 0x400 64, rfl⟩

/-! ## FINAL (R177, R178) -/

/-- The state in another phase. -/
def State.inPhase (s : State) (p : Phase) : State := { s with phase := p }

/-! ### No effect of a stage looks at PHASE -/

theorem mergeEffect_inPhase (cfg : Params) (s : State) (p : Phase) :
    mergeEffect cfg (s.inPhase p) = (mergeEffect cfg s).inPhase p := rfl

theorem hardenEffect_inPhase (cfg : Params) (s : State) (p : Phase) :
    hardenEffect cfg (s.inPhase p) = (hardenEffect cfg s).inPhase p := rfl

theorem fblockEffect_inPhase (cfg : Params) (s : State) (p : Phase) :
    fblockEffect cfg (s.inPhase p) = (fblockEffect cfg s).inPhase p := rfl

theorem rekeyEffect_inPhase (s : State) (p : Phase) : rekeyEffect (s.inPhase p) = (rekeyEffect s).inPhase p := by
  rcases Bool.eq_false_or_eq_true s.keyv with h | h
  · rw [rekeyEffect_of_keyed h, rekeyEffect_of_keyed (s := s.inPhase p) h]
    rfl
  · rw [rekeyEffect_of_not_keyed h, rekeyEffect_of_not_keyed (s := s.inPhase p) h]

theorem reduceEffect_inPhase (cfg : Params) (s : State) (p : Phase) :
    reduceEffect cfg (s.inPhase p) = (reduceEffect cfg s).inPhase p := rfl

/-! ### Nor does one write ERR -/

theorem mergeEffect_err (cfg : Params) (s : State) : (mergeEffect cfg s).err = s.err := rfl

theorem hardenEffect_err (cfg : Params) (s : State) : (hardenEffect cfg s).err = s.err := rfl

theorem fblockEffect_err (cfg : Params) (s : State) : (fblockEffect cfg s).err = s.err := rfl

theorem rekeyEffect_err (s : State) : (rekeyEffect s).err = s.err := by
  rcases rekeyEffect_cases s with ⟨q, e⟩ | e <;> rw [e]
  rfl

/-! ### The six stages and the refusals -/

/-- A stage run in the phase another stage left: its effect on the state, whatever the phase was, and its own phase. -/
theorem exec_inPhase {i : Instr} {s : State} {p : Phase} (hs : s.err = .none) (hp : legalIn i p = true)
    (hn : lengthInRange i = true) (he : effectOf i (s.inPhase p) = (effectOf i s).inPhase p) :
    exec i (s.inPhase p) = .next ((effectOf i s).inPhase (phaseAfter i p)) := by
  have performed := exec_runs (i := i) (s := s.inPhase p) (.inl hs) hp hn
  rwa [he] at performed

/-- While ERR is set every command but CLRERR and SRESET changes nothing (R243). -/
theorem exec_of_err {i : Instr} {s : State} (hs : s.err ≠ .none) (hi : runsUnderError i = false) : exec i s = .next s := by
  rw [exec_eq_command, command, if_pos ⟨hs, hi⟩]

/-- A FINAL that is refused (R177): ERR keeps a code it holds (R243), and STATE comes before ARG (R244). -/
theorem exec_final_refused {s : State} {n : Nat} (h : s.phase ≠ .absorb ∨ 511 < n) :
    exec (.final n) s
      = .next { s with err := if s.err ≠ .none then s.err else if s.phase ≠ .absorb then .state else .arg } := by
  split_ifs with gated phase
  · exact exec_of_err gated rfl
  · exact exec_of_wrong_phase (not_not.mp gated) (beq_eq_false_iff_ne.mpr phase)
  · exact exec_of_length_out_of_range (not_not.mp gated) (beq_iff_eq.mpr (not_not.mp phase))
      (decide_eq_false (Nat.not_le.mpr (h.resolve_left phase)))

/-- Settles O46: each stage's effect is that on the state before it in FINAL's composition, and ERR stays 0. -/
theorem finalIsTheSixStagesInOrder : Obligations.FinalIsTheSixStagesInOrder := by
  refine ⟨fun s n hs hp hn => ?_, fun s n h => exec_final_refused h⟩
  have legal : legalIn (.final n) s.phase = true := beq_iff_eq.mpr hp
  have range : lengthInRange (.final n) = true := decide_eq_true hn
  have tail : exec (.tail n) s = .next ((tailEffect Config.params n s).inPhase .tailed) :=
    exec_runs (i := .tail n) (.inl hs) legal range
  have final : exec (.final n) s = .next ((finalEffect Config.params n s).inPhase .done) :=
    exec_runs (i := .final n) (.inl hs) legal range
  have hs₁ : (tailEffect Config.params n s).err = .none := hs
  have hs₂ := (mergeEffect_err Config.params _).trans hs₁
  have hs₃ := (hardenEffect_err Config.params _).trans hs₂
  have hs₄ := (fblockEffect_err Config.params _).trans hs₃
  have hs₅ := (rekeyEffect_err _).trans hs₄
  exact ⟨_, _, _, _, _, _, tail,
    exec_inPhase (i := .merge) hs₁ rfl rfl (mergeEffect_inPhase _ _ _),
    exec_inPhase (i := .harden) hs₂ rfl rfl (hardenEffect_inPhase _ _ _),
    exec_inPhase (i := .fblock) hs₃ rfl rfl (fblockEffect_inPhase _ _ _),
    exec_inPhase (i := .rekey) hs₄ rfl rfl (rekeyEffect_inPhase _ _),
    exec_inPhase (i := .reduce) hs₅ rfl rfl (reduceEffect_inPhase _ _ _), final, rfl⟩

end Sys2Proof.Machine

/-! # The final lane reduction (45_reduce.md)

Each round is said once, of lanes known by their indices; the five rounds are then these rules one after the other. -/

namespace Sys2Proof.Machine

/-! ## The rounds, lane by lane (R187 to R190) -/

/-- The index two on, as the distant swap takes it (R188). -/
theorem quadIx_add_two {i : Nat} (hi : i < 4) : quadIx i + 2 = quadIx ((i + 2) % 4) :=
  Fin.ext (by rw [Fin.val_add, quadIx_val hi, quadIx_val (Nat.mod_lt _ (by decide))]; rfl)

theorem xor_one_lt_four {i : Nat} (hi : i < 4) : Nat.xor i 1 < 4 := Nat.xor_lt_two_pow (n := 2) hi (by decide)

/-- The partner of an index, as the adjacent swap takes it (R186). -/
theorem partner_quadIx {i : Nat} (hi : i < 4) : partner (quadIx i) = quadIx (Nat.xor i 1) :=
  Fin.ext ((congrArg (Nat.xor · 1) (quadIx_val hi)).trans (quadIx_val (xor_one_lt_four hi)).symm)

section
variable {x : Quad} {f : Nat → Lane} (lanes : ∀ i, i < 4 → x[quadIx i] = f i)
include lanes

/-- Round 1 (R187). -/
theorem reduceSelf_get : ∀ i, i < 4 → (reduceSelf x)[quadIx i] = aes (f i) (f i) := by
  intro i hi
  rw [reduceSelf, ofFn_get, lanes i hi]

/-- Rounds 2 and 4, the distant swap (R188, R190). -/
theorem reduceDistant_get : ∀ i, i < 4 → (reduceDistant x)[quadIx i] = aes (f i) (f ((i + 2) % 4)) := by
  intro i hi
  have distant : x[quadIx i + 2] = f ((i + 2) % 4) :=
    (congrArg (fun j : Fin 4 => x[j]) (quadIx_add_two hi)).trans (lanes _ (Nat.mod_lt _ (by decide)))
  rw [reduceDistant, ofFn_get, lanes i hi, distant]

/-- Rounds 3 and 5, the adjacent swap with asymmetry (R189, R190). -/
theorem reduceAdjacent_get (cfg : Params) :
    ∀ i, i < 4 → (reduceAdjacent cfg x)[quadIx i] = aes (f i) (f (Nat.xor i 1) ^^^ (reduceBias cfg)[quadIx i]) := by
  intro i hi
  have adjacent : x[partner (quadIx i)] = f (Nat.xor i 1) :=
    (congrArg (fun j : Fin 4 => x[j]) (partner_quadIx hi)).trans (lanes _ (xor_one_lt_four hi))
  rw [reduceAdjacent, ofFn_get, lanes i hi, adjacent]

end

/-! ## The output (R191) -/

/-- `DIGEST[127:0] = e[0]` (R191). -/
theorem reduceLanes_low (cfg : Params) (x : Quad) :
    (reduceLanes cfg x).extractLsb' 0 128 = (reduceRounds cfg x)[quadIx 0] :=
  BitVec.extractLsb'_append_eq_right

/-- `DIGEST[255:128] = e[1]` (R191). -/
theorem reduceLanes_high (cfg : Params) (x : Quad) :
    (reduceLanes cfg x).extractLsb' 128 128 = (reduceRounds cfg x)[quadIx 1] :=
  BitVec.extractLsb'_append_eq_left

/-! ## REDUCE (R185) -/

/-- Settles O45: in REKEYED REDUCE is performed and only writes `DIGEST`, with the first two lanes of the five rounds on the lanes
read. -/
theorem reduceWritesTheDigest : Obligations.ReduceWritesTheDigest := by
  intro s hs hp
  have round1 := reduceSelf_get fun _ hi => firstQuad_get s.accSeen hi
  have round3 := reduceAdjacent_get (reduceDistant_get round1) Config.params
  have round5 := reduceAdjacent_get (reduceDistant_get round3) Config.params
  exact ⟨_, exec_runs (i := .reduce) (.inl hs) (beq_iff_eq.mpr hp) rfl,
    ⟨(reduceLanes_low _ _).trans (round5 0 (by decide)), (reduceLanes_high _ _).trans (round5 1 (by decide))⟩, rfl⟩

end Sys2Proof.Machine

/-! # The housekeeping commands (46_system.md)

Neither NOP nor CLRERR is ever refused for its phase or its length (R76), and ERR gates NOP alone (R243). -/

namespace Sys2Proof.Machine

/-! ## NOP (R195) -/

/-- Performed or gated by ERR, NOP comes to the same state. -/
theorem exec_nop (s : State) : exec .nop s = .next s := by
  by_cases hs : s.err = .none
  · exact exec_runs (i := .nop) (.inl hs) rfl rfl
  · exact exec_of_err hs rfl

/-- Settles O14: NOP is performed under ERR 0 and gated otherwise, and neither changes anything. -/
theorem nopChangesNothing : Obligations.NopChangesNothing :=
  ⟨exec_nop, by decide⟩

/-! ## CLRERR (R196) -/

/-- CLRERR is performed whatever ERR holds. -/
theorem exec_clrerr (s : State) : exec .clrerr s = .next s.clearErr :=
  exec_runs (i := .clrerr) (.inr rfl) rfl rfl

/-- With ERR 0 there is nothing to clear. -/
theorem State.clearErr_of_err_eq_none {s : State} (hs : s.err = .none) : s.clearErr = s := by
  rw [State.clearErr, ← hs]

/-- Settles O15: no value of ERR gates CLRERR, and all it writes is ERR. -/
theorem clrerrClearsErrOnly : Obligations.ClrerrClearsErrOnly :=
  ⟨exec_clrerr, by decide, fun s hs => by rw [exec_clrerr, State.clearErr_of_err_eq_none hs]⟩

end Sys2Proof.Machine

/-! # Errors (60_exceptions.md)

With ERR set a refusal changes nothing (`State.raise_of_err`) and a command is gated (`exec_of_err`). What is left to say is
which commands and accesses get past ERR, and that register words are read and stored without a look at it. -/

namespace Sys2Proof.Machine

/-! ## No step is stuck (R240) -/

theorem exec_total (i : Instr) (s : State) : ∃ t, exec i s = .next t := by
  rw [exec_eq_command]
  exact command_total i s _

/-- With nothing pending the engine waits (R252). -/
theorem step_of_no_access {s : State} (h : s.nextAccess = none) : step s = .next s := by
  rw [step, h]

/-- Settles O8: waiting, a command and an access that runs no command each give a next state. -/
theorem everyStepAnswersANextState : Obligations.EveryStepAnswersANextState := by
  intro s
  rcases s.nextAccess_cases with ⟨-, waits⟩ | ⟨x, rest, hp, -⟩
  · exact ⟨s, step_of_no_access waits⟩
  · cases ha : (s.performing rest).access x with
    | run i =>
      rw [step_of_run hp ha]
      exact exec_total i _
    | done t => exact ⟨t, step_of_done hp ha⟩

/-! ## What ERR gates (R243) -/

theorem runsUnderError_iff (i : Instr) : runsUnderError i = true ↔ i = .clrerr ∨ i = .sreset := by
  cases i <;> simp [runsUnderError]

/-- Of the readable registers STATUS alone shows ERR (R35, R243). -/
theorem State.readReg_withErr (s : State) (e : ErrCode) {r : Reg} (hr : r ≠ .status) (k : Nat) :
    ({ s with err := e } : State).readReg r k = s.readReg r k := by
  cases r
  case status => exact absurd rfl hr
  all_goals rfl

/-- A store does the same whatever ERR holds (R243). -/
theorem State.writeReg_withErr (s : State) (e : ErrCode) (r : Reg) (k : Nat) (w : Word) :
    ({ s with err := e } : State).writeReg r k w = { s.writeReg r k w with err := e } := by
  cases r <;> rfl

/-- Settles O9: an illegal word is a refusal, and an accepted access of a data register comes to a read or a store of it. -/
theorem errGatesEveryOtherCommand : Obligations.ErrGatesEveryOtherCommand := by
  refine ⟨fun i s hs hc hr => ?_, fun s rest w why hs hp hd => ?_, fun s width a e r k ht hr => ?_,
    fun s width a w e r k ht hc => ?_⟩
  · exact exec_of_err hs (Bool.eq_false_iff.mpr fun h => ((runsUnderError_iff i).mp h).elim hc hr)
  · rw [step_of_done hp ((s.performing rest).hostWrite_of_illegal hd), State.raise_of_err (s := s.performing rest) hs]
  · rw [State.hostRead_of_target _ ht, State.hostRead_of_target _ ht, s.readReg_withErr e hr]
  · rw [State.hostWrite_of_target _ w ht hc, State.writeReg_withErr]

/-! ## ERR keeps the first code (R242) -/

/-- With ERR set a command leaves it, unless it is CLRERR or SRESET and makes it 0. -/
theorem exec_err_of_err {i : Instr} {s t : State} (hs : s.err ≠ .none) (h : exec i s = .next t) :
    t.err = s.err ∨ (t.err = .none ∧ (i = .clrerr ∨ i = .sreset)) := by
  by_cases hi : runsUnderError i = true
  · rcases (runsUnderError_iff i).mp hi with rfl | rfl
    · cases (exec_clrerr s).symm.trans h
      exact .inr ⟨rfl, .inl rfl⟩
    · cases (exec_sreset s).symm.trans h
      exact .inr ⟨rfl, .inr rfl⟩
  · cases (exec_of_err hs (Bool.eq_false_iff.mpr hi)).symm.trans h
    exact .inl rfl

/-- With ERR set a read leaves it, whether or not it is refused. -/
theorem State.hostRead_err_of_err {s : State} (hs : s.err ≠ .none) (width a : Nat) : (s.hostRead width a).err = s.err := by
  rcases s.hostRead_cases width a with ⟨-, e⟩ | ⟨r, k, -, e⟩ <;> rw [e]
  rw [State.raise_of_err hs]

/-- With ERR set a write that runs no command leaves it, whether or not it is refused. -/
theorem State.hostWrite_err_of_err {s t : State} (hs : s.err ≠ .none) {width a : Nat} {w : Word}
    (h : s.hostWrite width a w = .done t) : t.err = s.err := by
  rcases s.hostWrite_cases width a w with ⟨-, e⟩ | ⟨k, i, -, -, e⟩ | ⟨k, why, -, -, e⟩ | ⟨r, k, -, -, e⟩ <;>
    cases e.symm.trans h
  · rw [State.raise_of_err hs]
  · rw [State.raise_of_err hs]
  · exact s.writeReg_err r k w

/-- With ERR set an access that runs no command leaves it, unless it is a hardware reset and makes it 0. -/
theorem access_err_of_err {s t : State} {x : HostAccess} (hs : s.err ≠ .none) (h : s.access x = .done t) :
    t.err = s.err ∨ (t.err = .none ∧ x = .reset) := by
  cases x with
  | read width a =>
    cases h
    exact .inl (State.hostRead_err_of_err hs width a.toNat)
  | write width a w => exact .inl (State.hostWrite_err_of_err hs h)
  | reset =>
    cases h
    exact .inr ⟨rfl, rfl⟩

/-- Settles O12: of what a step can do, only a reset and the two commands that run under ERR touch it. -/
theorem errKeepsTheFirstCode : Obligations.ErrKeepsTheFirstCode := by
  intro s t hs h
  rcases step_cases h with ⟨-, rfl⟩ | ⟨x, rest, hp, ⟨i, ha, he⟩ | ha⟩
  · exact .inl rfl
  · obtain ⟨w, rfl, hd⟩ := access_eq_run ha
    rcases exec_err_of_err (s := s.performing rest) hs he with kept | ⟨cleared, hi⟩
    · exact .inl kept
    · refine .inr ⟨cleared, _, rest, hp, .inr ⟨w, rfl, ?_⟩⟩
      rcases hi with rfl | rfl
      · exact .inl hd
      · exact .inr hd
  · exact (access_err_of_err (s := s.performing rest) hs ha).imp_right fun ⟨cleared, hx⟩ => ⟨cleared, x, rest, hp, .inl hx⟩

end Sys2Proof.Machine
